-- ==== Sys2Proof/Word.lean ====
section
/-! DEFINITION. The word types of the parser core: bytes of packets and 64-bit configuration words
(spec 30_encoding.md R101). -/

namespace Sys2Proof

/-- A byte of a packet (20_memory.md R70). -/
abbrev Byte := BitVec 8

/-- A configuration word, bit 0 least significant (30_encoding.md R101). -/
abbrev W64 := BitVec 64

end Sys2Proof
end

