-- ==== Sys2Proof/Config.lean ====
section
/-! DEFINITION. The constants the spec fixes (00_scope.md R7, R8), the configuration fields it asks a
model to take as such (R9), and the two values it leaves open, as constants with no body. -/

namespace Sys2Proof.Config

/-- `N_ROWS`: rows per parser instance (00_scope.md R7). -/
def nRows : Nat := 256
/-- `N_CSUM_ROWS`: ChecksumCtrlRows per engine (R8, D44). -/
def nCsumRows : Nat := 32
/-- `W_BYTES`: bytes of the packet visible at the cursor (R8, D10). -/
def wBytes : Nat := 32
/-- `LEN_MAX`: the largest packet length in bytes (R8, D42). -/
def lenMax : Nat := 65535

/-- `TIE_BREAK` (R9, D9): the default, and any other convention.
DESIGN CHOICE (log 12): the spec names no second value. -/
inductive TieBreak
  | lowest
  | other
deriving DecidableEq, Repr

/-- `STATE_MERGE` (R9, D16). -/
inductive StateMerge
  | select
  | or
deriving DecidableEq, Repr

/-- `CTR_NOLOAD_MODE` (R9, D13). -/
inductive CtrNoload
  | add
  | hold
deriving DecidableEq, Repr

/-- The four bytes of the match window, in the order of the `pri_upd_src` codes (44_priority.md R252);
also the domain of `STATE_WIN_SRC` (41_pipeline_ea.md R168). -/
inductive WinByte
  | lookup16hi
  | lookup16lo
  | lookup8_0
  | lookup8_1
deriving DecidableEq, Repr

/-- The configuration fields of the machine (00_scope.md R8, R9). No rule writes them. -/
structure Params where
  tieBreak    : TieBreak
  stateMerge  : StateMerge
  stateWinSrc : WinByte
  ctrNoload   : CtrNoload
  /-- `N_QCTR`, the number of per-copy queueing counters of a packet (10_state.md R55). -/
  nQctr       : Nat
deriving DecidableEq, Repr

/-- The spec's default of each field (92_eei_decisions.md, first table).
`nQctr` has no default there; 2 is a DESIGN CHOICE (log 6). -/
def Params.default : Params :=
  { tieBreak := .lowest, stateMerge := .select, stateWinSrc := .lookup8_0, ctrNoload := .add, nQctr := 2 }

/-- `CtrSrc1` (41_pipeline_ea.md R166, D14): the reload value for `ctr_ld_src` = 1, a total function of
`ctr_amt_idx` and the 32-bit window. OPEN in the spec, so a free value here (log 11). -/
opaque ctrSrc1 : BitVec 8 → BitVec 32 → BitVec 8

/-- Which member of the list of matching rows a tie-break other than lowest-index picks (log 12).
A free value: the spec gives no second convention. -/
opaque otherTieBreak : List (BitVec 8) → Nat

end Sys2Proof.Config
end

