-- ==== Sys2Proof/Syntax.lean ====
section
/-! DEFINITION. The instructions: one constructor per row of spec/opcode_table.json (48 rows), with the
operand types they carry, and the places a micro-operation's word is read from. -/

namespace Sys2Proof

/-- Ingress or egress: the direction of a parser instance and the name of a packet view (10_state.md R39, R50). -/
inductive Dir
  | ing
  | egr
deriving DecidableEq, Repr

/-- The two checksum engines of an instance (10_state.md R44). -/
inductive Eng
  | e0
  | e1
deriving DecidableEq, Repr

/-- An opaque handle; `none` is the spec's distinguished `null` (10_state.md R52). -/
abbrev Handle := Option Nat

/-- The fields of a TcamRow word, value or mask (30_encoding.md R102). -/
structure TcamRow where
  lookup16  : BitVec 16
  lookup8_0 : BitVec 8
  lookup8_1 : BitVec 8
  currState : BitVec 8
  ctrZero   : BitVec 1
  ctrNeg    : BitVec 1
  ver0      : BitVec 1
  ver1      : BitVec 1
deriving DecidableEq, Repr

/-- The fields of an enabled extraction lane slot (30_encoding.md R105). -/
structure Lane where
  srcType      : BitVec 1
  src          : BitVec 6
  dst          : BitVec 8
  offsetAddDst : BitVec 1
  offsetRotImm : BitVec 2
deriving DecidableEq, Repr

/-- The fields of a ChecksumCtrlRow that CSUM.ACC itself reads (30_encoding.md R109, R110). -/
structure CsumLanes where
  mask : BitVec 32
  swap : BitVec 17
  shr  : BitVec 1
  add  : BitVec 16
deriving DecidableEq, Repr

/-- All fields of an EaRow (30_encoding.md R104), in the order of its table. -/
structure EaRow where
  ctrLoad       : BitVec 1
  ctrLdSrc      : BitVec 1
  ctrAmtIdx     : BitVec 8
  shiftAmt      : BitVec 6
  lookupOff16   : BitVec 6
  lookupOff8_0  : BitVec 6
  lookupOff8_1  : BitVec 6
  ldLookup16    : BitVec 1
  ldLookup8_0   : BitVec 1
  ldLookup8_1   : BitVec 1
  done          : BitVec 1
  nxtState      : BitVec 8
  nxtStateMask  : BitVec 8
  bufReq        : BitVec 6
deriving DecidableEq, Repr

/-- All fields of an ActionRow's control word `W6` (30_encoding.md R107), in the order of its table. -/
structure ActCtl where
  dstOffsetRst  : BitVec 1
  dstOffsetInc  : BitVec 8
  csumEn0       : BitVec 1
  csumAddr0     : BitVec 5
  csumEn1       : BitVec 1
  csumAddr1     : BitVec 5
  priUpdType    : BitVec 1
  priUpdSrc     : BitVec 2
  priUpdEnShr   : BitVec 3
  priUpdValMask : BitVec 3
deriving DecidableEq, Repr

/-- All fields of a ChecksumCtrlRow (30_encoding.md R109, R110). -/
structure CsumRow where
  lanes          : CsumLanes
  start          : BitVec 1
  endFlag        : BitVec 1
  zerosAsOnes    : BitVec 1
  zerosAsOnesPos : BitVec 5
deriving DecidableEq, Repr

/-- The kinds of clone (45_packet.md R261). -/
inductive CloneKind
  | mc
  | mirror
  | mcC2c
deriving DecidableEq, Repr

/-- The numeric packet fields PKT.WR may write (45_packet.md R270). -/
inductive NumField
  | version (d : Dir)
  | metadataAdded (d : Dir)
  | origHdrLen (d : Dir)
  | parsableHdrLen (d : Dir)
  | l1Cnt
  | l2Cnt
  | mcGrpId
  | copyCtr (k : Nat)
  | recircCnt
  | priority
deriving DecidableEq, Repr

/-- The handle fields PKT.WR may write (45_packet.md R270). -/
inductive HandleField
  | phv (d : Dir)
  | port (d : Dir)
  | clot (d : Dir)
  | teop
deriving DecidableEq, Repr

/-- The byte-string fields PKT.WR may write (45_packet.md R270). -/
inductive BytesField
  | signature
  | bytes
deriving DecidableEq, Repr

/-- A field of PKT.WR with the value written to it. A field that R270 calls not writable has no
constructor, so no such command can be said. A number is the operand before truncation. -/
inductive FieldWrite
  | num (f : NumField) (v : W64)
  | handle (f : HandleField) (h : Handle)
  | bytes (f : BytesField) (v : List Byte)
deriving DecidableEq, Repr

/-- The memories CFG.WR writes; ACT carries its word-pair sub-index `j` (20_memory.md R78). -/
inductive CfgMem
  | tcam
  | ea
  | act (j : Nat)
  | csum (e : Eng)
  | ctl
deriving DecidableEq, Repr

/-- The instructions. Packets and instances are named by numbers. A micro-operation acts on the parse
of the instance whose turn it is; TCAM.MATCH carries the row it tests and the CSUM.* operations their
engine, which the place their word is read from gives. -/
inductive Instr
  | winSample
  | tcamKey
  | tcamMatch (i : BitVec 8) (v m : TcamRow)
  | tcamSelect
  | parse (p k : Nat)
  | eaCtrAdd (amt : BitVec 8)
  | eaCtrLdi (amt : BitVec 8)
  | eaCtrLds (idx : BitVec 8)
  | eaShift (amt : BitVec 6)
  | eaNxt (st mask : BitVec 8)
  | eaArm16 (off : BitVec 6)
  | eaArm8_0 (off : BitVec 6)
  | eaArm8_1 (off : BitVec 6)
  | eaBufreq (n : BitVec 6)
  | eaDone (done : BitVec 1)
  | actDoff (rst : BitVec 1) (inc : BitVec 8)
  | actEx32_0 (l : Lane)
  | actEx32_1 (l : Lane)
  | actEx32_2 (l : Lane)
  | actEx32_3 (l : Lane)
  | actEx16_0 (l : Lane)
  | actEx16_1 (l : Lane)
  | actEx16_2 (l : Lane)
  | actEx16_3 (l : Lane)
  | actEx8_0 (l : Lane)
  | actEx8_1 (l : Lane)
  | actEx8_2 (l : Lane)
  | actEx8_3 (l : Lane)
  | actCsum0 (addr : BitVec 5)
  | actCsum1 (addr : BitVec 5)
  | csumAcc (e : Eng) (r : CsumLanes)
  | csumStart (e : Eng)
  | csumEnd (e : Eng) (pos : BitVec 5)
  | csumZao (e : Eng) (pos : BitVec 5)
  | actPriImm (v : BitVec 3)
  | actPriFld (src : BitVec 2) (shr mask : BitVec 3)
  | pktCreate (bytes : List Byte) (id32 : BitVec 32)
  | pktClone (src : Nat) (kind : CloneKind) (pipe : BitVec 4) (copy : BitVec 16) (carry : BitVec 1)
  | pktReset (p : Nat)
  | pktSetEgress (p : Nat)
  | pktRetire (p : Nat)
  | pktWr (p : Nat) (w : FieldWrite)
  | pktId (p : Nat) (id32 : BitVec 32)
  | pktType (p : Nat) (t4 : BitVec 4)
  | pktIdMcCpy (p : Nat) (id32 : BitVec 32) (pipe : BitVec 4) (copy : BitVec 16)
  | pktIdMirrCpy (p : Nat) (id32 : BitVec 32) (pipe : BitVec 4) (copy : BitVec 16)
  | pktIdMcC2c (p : Nat) (id32 : BitVec 32) (pipe : BitVec 4) (copy : BitVec 16)
  | cfgWr (k : Nat) (mem : CfgMem) (i : Nat) (w0 w1 : W64)
deriving DecidableEq, Repr

/-- The place in one iteration a micro-operation is read from (41_pipeline_ea.md R163): it says which
word, if any, holds the fields. `ex32 k` and the like are the lane slots of 30_encoding.md R106. -/
inductive Slot
  | winSample
  | tcamKey
  | tcamMatch (i : BitVec 8)
  | tcamSelect
  | eaShift
  | eaCtr
  | eaArm16
  | eaArm8_0
  | eaArm8_1
  | eaNxt
  | eaBufreq
  | actDoff
  | ex32 (k : Fin 4)
  | ex16 (k : Fin 4)
  | ex8 (k : Fin 4)
  | actCsum (e : Eng)
  | csumStart (e : Eng)
  | csumAcc (e : Eng)
  | csumZao (e : Eng)
  | csumEnd (e : Eng)
  | actPri
  | eaDone
deriving DecidableEq, Repr

/-- Where an instruction's words stand: at a place of the iteration, or at the host's command port. -/
inductive Loc
  | micro (sl : Slot)
  | port
deriving DecidableEq, Repr

end Sys2Proof
end

