-- ==== Sys2Proof/WellFormed.lean ====
section
/-! DEFINITION. Which instructions the encodings admit: names and counts fit their words, a packet is
at most `LEN_MAX` bytes long, a non-null handle is no zero word. What a well-formed instruction's operands
MEAN (a reserved `shift_amt`, an index outside its memory) is judged when it runs, not here. -/

namespace Sys2Proof

/-- A number fits one 64-bit operand word. -/
abbrev fitsWord (n : Nat) : Bool := decide (n < 2 ^ 64)

/-- A byte string fits: at most `LEN_MAX` bytes (10_state.md R47). -/
abbrev fitsLen (b : List Byte) : Bool := decide (b.length ≤ Config.lenMax)

/-- A handle is null or a nonzero number of 64 bits (log 14: a zero word says null). -/
def Handle.wf : Handle → Bool
  | none => true
  | some n => decide (0 < n) && fitsWord n

/-- A counter index fits one word; every other numeric field has no index. -/
def NumField.wf : NumField → Bool
  | .copyCtr k => fitsWord k
  | .version _ | .metadataAdded _ | .origHdrLen _ | .parsableHdrLen _ => true
  | .l1Cnt | .l2Cnt | .mcGrpId | .recircCnt | .priority => true

/-- A PKT.WR operand can be said in the command's words. -/
def FieldWrite.wf : FieldWrite → Bool
  | .num f _ => f.wf
  | .handle _ h => Handle.wf h
  | .bytes _ v => fitsLen v

/-- A CFG.WR memory can be said in the command's words. -/
def CfgMem.wf : CfgMem → Bool
  | .act j => fitsWord j
  | .tcam | .ea | .csum _ | .ctl => true

/-- The instruction can be encoded. -/
def Instr.wf : Instr → Bool
  | .parse p k => fitsWord p && fitsWord k
  | .pktCreate b _ => fitsLen b
  | .pktClone p _ _ _ _ => fitsWord p
  | .pktReset p | .pktSetEgress p | .pktRetire p => fitsWord p
  | .pktWr p w => fitsWord p && w.wf
  | .pktId p _ | .pktType p _ => fitsWord p
  | .pktIdMcCpy p _ _ _ | .pktIdMirrCpy p _ _ _ | .pktIdMcC2c p _ _ _ => fitsWord p
  | .cfgWr k m i _ _ => fitsWord k && m.wf && fitsWord i
  | .winSample | .tcamKey | .tcamMatch _ _ _ | .tcamSelect => true
  | .eaCtrAdd _ | .eaCtrLdi _ | .eaCtrLds _ | .eaShift _ | .eaNxt _ _ => true
  | .eaArm16 _ | .eaArm8_0 _ | .eaArm8_1 _ | .eaBufreq _ | .eaDone _ | .actDoff _ _ => true
  | .actEx32_0 _ | .actEx32_1 _ | .actEx32_2 _ | .actEx32_3 _ => true
  | .actEx16_0 _ | .actEx16_1 _ | .actEx16_2 _ | .actEx16_3 _ => true
  | .actEx8_0 _ | .actEx8_1 _ | .actEx8_2 _ | .actEx8_3 _ => true
  | .actCsum0 _ | .actCsum1 _ | .csumAcc _ _ | .csumStart _ | .csumEnd _ _ | .csumZao _ _ => true
  | .actPriImm _ | .actPriFld _ _ _ => true

end Sys2Proof
end

