-- ==== Sys2Proof/Decode.lean ====
section
/-! DEFINITION. The decoder, total on any words and rejecting by name, and after it the encoder.
Configuration words: 30_encoding.md R101 to R110, R121. Host commands: R115 gives their operation codes
and operands and no layout; the message layout is the model's (DESIGN CHOICE, log 14). -/

namespace Sys2Proof

/-- Why words are not an instruction. -/
inductive DecodeError
  /-- The enable bits of the word select no micro-operation at this place (30_encoding.md R121). -/
  | notSelected
  /-- The message or row has another number of words than the instruction. -/
  | wordCount
  /-- An operation code outside R115 (30_encoding.md R130). -/
  | reservedOpcode
  /-- A command's first word has a bit above the operation code. -/
  | reservedBits
  /-- An operand word does not fit the operand's width (93_implementation_defined.md U20). -/
  | operandRange
  /-- An operand code (clone kind, packet field, memory) that names nothing. -/
  | badOperand
deriving DecidableEq, Repr

/-! ### Rows -/

/-- The fields of a TcamRow word; bits 63:44 are ignored (30_encoding.md R102, R126). -/
def decTcam (w : W64) : TcamRow :=
  { lookup16  := w.extractLsb' 0 16
    lookup8_0 := w.extractLsb' 16 8
    lookup8_1 := w.extractLsb' 24 8
    currState := w.extractLsb' 32 8
    ctrZero   := w.extractLsb' 40 1
    ctrNeg    := w.extractLsb' 41 1
    ver0      := w.extractLsb' 42 1
    ver1      := w.extractLsb' 43 1 }

/-- The fields of an EaRow; bits 63:60 are ignored (30_encoding.md R104, R126). -/
def decEa (w : W64) : EaRow :=
  { ctrLoad      := w.extractLsb' 0 1
    ctrLdSrc     := w.extractLsb' 1 1
    ctrAmtIdx    := w.extractLsb' 2 8
    shiftAmt     := w.extractLsb' 10 6
    lookupOff16  := w.extractLsb' 16 6
    lookupOff8_0 := w.extractLsb' 22 6
    lookupOff8_1 := w.extractLsb' 28 6
    ldLookup16   := w.extractLsb' 34 1
    ldLookup8_0  := w.extractLsb' 35 1
    ldLookup8_1  := w.extractLsb' 36 1
    done         := w.extractLsb' 37 1
    nxtState     := w.extractLsb' 38 8
    nxtStateMask := w.extractLsb' 46 8
    bufReq       := w.extractLsb' 54 6 }

/-- The fields of the control word `W6`; bits 63:30 are ignored (30_encoding.md R107, R126). -/
def decActCtl (w : W64) : ActCtl :=
  { dstOffsetRst  := w.extractLsb' 0 1
    dstOffsetInc  := w.extractLsb' 1 8
    csumEn0       := w.extractLsb' 9 1
    csumAddr0     := w.extractLsb' 10 5
    csumEn1       := w.extractLsb' 15 1
    csumAddr1     := w.extractLsb' 16 5
    priUpdType    := w.extractLsb' 21 1
    priUpdSrc     := w.extractLsb' 22 2
    priUpdEnShr   := w.extractLsb' 24 3
    priUpdValMask := w.extractLsb' 27 3 }

/-- The fields of a ChecksumCtrlRow; word 0 bits 63:58 and word 1 bits 63:16 are ignored
(30_encoding.md R109, R110, R126). -/
def decCsum (w0 w1 : W64) : CsumRow :=
  { lanes :=
      { mask := w0.extractLsb' 0 32
        swap := w0.extractLsb' 32 17
        shr  := w0.extractLsb' 49 1
        add  := w1.extractLsb' 0 16 }
    start          := w0.extractLsb' 50 1
    endFlag        := w0.extractLsb' 51 1
    zerosAsOnes    := w0.extractLsb' 52 1
    zerosAsOnesPos := w0.extractLsb' 53 5 }

/-- The lane slot in bits `lo+31 : lo` of an ACT word: its fields if its enable bit is 1
(30_encoding.md R105); bits 31:19 of the slot are ignored. -/
def decLane (w : W64) (lo : Nat) : Except DecodeError Lane :=
  if w.extractLsb' lo 1 = 1#1 then
    .ok { srcType      := w.extractLsb' (lo + 1) 1
          src          := w.extractLsb' (lo + 2) 6
          dst          := w.extractLsb' (lo + 8) 8
          offsetAddDst := w.extractLsb' (lo + 16) 1
          offsetRotImm := w.extractLsb' (lo + 17) 2 }
  else .error .notSelected

/-- Where lane `k` of its width stands in its word: even lanes low, odd lanes high (R106). -/
def laneLo (k : Fin 4) : Nat := if k.val % 2 = 0 then 0 else 32

/-! ### Micro-operations -/

/-- The constructor of each 32-bit lane. -/
def mkEx32 : Fin 4 → Lane → Instr
  | 0 => .actEx32_0
  | 1 => .actEx32_1
  | 2 => .actEx32_2
  | 3 => .actEx32_3

/-- The constructor of each 16-bit lane. -/
def mkEx16 : Fin 4 → Lane → Instr
  | 0 => .actEx16_0
  | 1 => .actEx16_1
  | 2 => .actEx16_2
  | 3 => .actEx16_3

/-- The constructor of each 8-bit lane. -/
def mkEx8 : Fin 4 → Lane → Instr
  | 0 => .actEx8_0
  | 1 => .actEx8_1
  | 2 => .actEx8_2
  | 3 => .actEx8_3

/-- The lane operation of an ACT word, if the lane is enabled. -/
def decLaneOp (mk : Fin 4 → Lane → Instr) (k : Fin 4) (w : W64) : Except DecodeError Instr :=
  match decLane w (laneLo k) with
  | .ok l => .ok (mk k l)
  | .error e => .error e

/-- `i` when the enable bit is 1, else nothing (30_encoding.md R121). -/
def whenOn (b : BitVec 1) (i : Instr) : Except DecodeError Instr :=
  if b = 1#1 then .ok i else .error .notSelected

/-- The counter operation: exactly one of ADD, LDI, LDS (41_pipeline_ea.md R164 to R166). -/
def decCtr (r : EaRow) : Instr :=
  if r.ctrLoad = 0#1 then .eaCtrAdd r.ctrAmtIdx
  else if r.ctrLdSrc = 0#1 then .eaCtrLdi r.ctrAmtIdx
  else .eaCtrLds r.ctrAmtIdx

/-- The priority operation of a row, if it has one (44_priority.md R250). -/
def decPri (r : ActCtl) : Except DecodeError Instr :=
  if r.priUpdType = 1#1 then .ok (.actPriFld r.priUpdSrc r.priUpdEnShr r.priUpdValMask)
  else whenOn (r.priUpdEnShr.extractLsb' 0 1) (.actPriImm r.priUpdValMask)

/-- The checksum dispatch of engine `e` (42_extract.md R210). -/
def decActCsum (r : ActCtl) : Eng → Except DecodeError Instr
  | .e0 => whenOn r.csumEn0 (.actCsum0 r.csumAddr0)
  | .e1 => whenOn r.csumEn1 (.actCsum1 r.csumAddr1)

/-- A place that reads no word. -/
def bare (i : Instr) : List W64 → Except DecodeError Instr
  | [] => .ok i
  | _ :: _ => .error .wordCount

/-- A place that reads one word. -/
def oneWord (f : W64 → Except DecodeError Instr) : List W64 → Except DecodeError Instr
  | [w] => f w
  | [] | _ :: _ :: _ => .error .wordCount

/-- A place that reads two words. -/
def twoWords (f : W64 → W64 → Except DecodeError Instr) : List W64 → Except DecodeError Instr
  | [w0, w1] => f w0 w1
  | [] | [_] | _ :: _ :: _ :: _ => .error .wordCount

/-- The micro-operation at a place of the iteration (30_encoding.md R121). -/
def decodeSlot (sl : Slot) (ws : List W64) : Except DecodeError Instr :=
  match sl with
  | .winSample => bare .winSample ws
  | .tcamKey => bare .tcamKey ws
  | .tcamMatch i => twoWords (fun v m => .ok (.tcamMatch i (decTcam v) (decTcam m))) ws
  | .tcamSelect => bare .tcamSelect ws
  | .eaShift => oneWord (fun w => .ok (.eaShift (decEa w).shiftAmt)) ws
  | .eaCtr => oneWord (fun w => .ok (decCtr (decEa w))) ws
  | .eaArm16 => oneWord (fun w => whenOn (decEa w).ldLookup16 (.eaArm16 (decEa w).lookupOff16)) ws
  | .eaArm8_0 => oneWord (fun w => whenOn (decEa w).ldLookup8_0 (.eaArm8_0 (decEa w).lookupOff8_0)) ws
  | .eaArm8_1 => oneWord (fun w => whenOn (decEa w).ldLookup8_1 (.eaArm8_1 (decEa w).lookupOff8_1)) ws
  | .eaNxt => oneWord (fun w => .ok (.eaNxt (decEa w).nxtState (decEa w).nxtStateMask)) ws
  | .eaBufreq => oneWord (fun w => .ok (.eaBufreq (decEa w).bufReq)) ws
  | .actDoff => oneWord (fun w => .ok (.actDoff (decActCtl w).dstOffsetRst (decActCtl w).dstOffsetInc)) ws
  | .ex32 k => oneWord (decLaneOp mkEx32 k) ws
  | .ex16 k => oneWord (decLaneOp mkEx16 k) ws
  | .ex8 k => oneWord (decLaneOp mkEx8 k) ws
  | .actCsum e => oneWord (fun w => decActCsum (decActCtl w) e) ws
  | .csumStart e => twoWords (fun w0 w1 => whenOn (decCsum w0 w1).start (.csumStart e)) ws
  | .csumAcc e => twoWords (fun w0 w1 => .ok (.csumAcc e (decCsum w0 w1).lanes)) ws
  | .csumZao e =>
    twoWords (fun w0 w1 =>
      whenOn ((decCsum w0 w1).endFlag &&& (decCsum w0 w1).zerosAsOnes)
        (.csumZao e (decCsum w0 w1).zerosAsOnesPos)) ws
  | .csumEnd e =>
    twoWords (fun w0 w1 => whenOn (decCsum w0 w1).endFlag (.csumEnd e (decCsum w0 w1).zerosAsOnesPos)) ws
  | .actPri => oneWord (fun w => decPri (decActCtl w)) ws
  | .eaDone => oneWord (fun w => .ok (.eaDone (decEa w).done)) ws

/-! ### Host commands (log 14)

A message is a list of 64-bit words: the operation code in bits 7:0 of the first (its other bits 0), then
one word per operand in the order of R115, then, for a byte string, its length and one word per byte. -/

/-- An operand word read as an `n`-bit value. -/
def narrow (n : Nat) (w : W64) : Except DecodeError (BitVec n) :=
  if w.toNat < 2 ^ n then .ok (BitVec.ofNat n w.toNat) else .error .operandRange

/-- A byte string: its length, then one word per byte. -/
def decBytes : List W64 → Except DecodeError (List Byte)
  | [] => .error .wordCount
  | n :: ws =>
    if ws.length ≠ n.toNat then .error .wordCount
    else if n.toNat ≤ Config.lenMax then ws.mapM (narrow 8) else .error .operandRange

/-- A handle word: zero is null. -/
def decHandle (w : W64) : Handle := if w.toNat = 0 then none else some w.toNat

/-- A view selector. -/
def decDir (w : W64) : Except DecodeError Dir :=
  match w.toNat with
  | 0 => .ok .ing
  | 1 => .ok .egr
  | _ => .error .badOperand

/-- The kind of a clone. -/
def decKind (w : W64) : Except DecodeError CloneKind :=
  match w.toNat with
  | 0 => .ok .mc
  | 1 => .ok .mirror
  | 2 => .ok .mcC2c
  | _ => .error .badOperand

/-- The field code and index of PKT.WR, with the value words after them. The index word is ignored, whatever it
holds, for a field that has no index (log 14, DESIGN CHOICE). -/
def decField (code idx : W64) (vs : List W64) : Except DecodeError FieldWrite :=
  let num (f : NumField) : Except DecodeError FieldWrite :=
    match vs with
    | [v] => .ok (.num f v)
    | [] | _ :: _ :: _ => .error .wordCount
  let hnd (f : HandleField) : Except DecodeError FieldWrite :=
    match vs with
    | [v] => .ok (.handle f (decHandle v))
    | [] | _ :: _ :: _ => .error .wordCount
  match code.toNat with
  | 0 => (decDir idx).bind fun d => num (.version d)
  | 1 => (decDir idx).bind fun d => num (.metadataAdded d)
  | 2 => (decDir idx).bind fun d => num (.origHdrLen d)
  | 3 => (decDir idx).bind fun d => num (.parsableHdrLen d)
  | 4 => num .l1Cnt
  | 5 => num .l2Cnt
  | 6 => num .mcGrpId
  | 7 => num (.copyCtr idx.toNat)
  | 8 => num .recircCnt
  | 9 => num .priority
  | 16 => (decDir idx).bind fun d => hnd (.phv d)
  | 17 => (decDir idx).bind fun d => hnd (.port d)
  | 18 => (decDir idx).bind fun d => hnd (.clot d)
  | 19 => hnd .teop
  | 32 => (decBytes vs).bind fun b => .ok (.bytes .signature b)
  | 33 => (decBytes vs).bind fun b => .ok (.bytes .bytes b)
  | _ => .error .badOperand

/-- The memory code and word-pair sub-index of CFG.WR. The sub-index word is ignored, whatever it holds, for a
memory other than ACT (log 14, DESIGN CHOICE). -/
def decMem (code j : W64) : Except DecodeError CfgMem :=
  match code.toNat with
  | 0 => .ok .tcam
  | 1 => .ok .ea
  | 2 => .ok (.act j.toNat)
  | 3 => .ok (.csum .e0)
  | 4 => .ok (.csum .e1)
  | 5 => .ok .ctl
  | _ => .error .badOperand

/-- A command whose only operand is a packet. -/
def onlyPacket (mk : Nat → Instr) : List W64 → Except DecodeError Instr
  | [p] => .ok (mk p.toNat)
  | [] | _ :: _ :: _ => .error .wordCount

/-- A copy encoder: packet, base id, pipe, copy count (45_packet.md R264 to R266). -/
def copyId (mk : Nat → BitVec 32 → BitVec 4 → BitVec 16 → Instr) : List W64 → Except DecodeError Instr
  | [p, id, pipe, copy] =>
    (narrow 32 id).bind fun id => (narrow 4 pipe).bind fun pipe => (narrow 16 copy).bind fun copy =>
      .ok (mk p.toNat id pipe copy)
  | _ => .error .wordCount

/-- The operands of each operation code of 30_encoding.md R115. -/
def decodeOp (op : Nat) (ws : List W64) : Except DecodeError Instr :=
  match op with
  | 0x00 => match ws with
    | [p, k] => .ok (.parse p.toNat k.toNat)
    | _ => .error .wordCount
  | 0x10 => match ws with
    | id :: rest => (narrow 32 id).bind fun id => (decBytes rest).bind fun b => .ok (.pktCreate b id)
    | [] => .error .wordCount
  | 0x11 => match ws with
    | [p, kind, pipe, copy, carry] =>
      (decKind kind).bind fun kind => (narrow 4 pipe).bind fun pipe => (narrow 16 copy).bind fun copy =>
        (narrow 1 carry).bind fun carry => .ok (.pktClone p.toNat kind pipe copy carry)
    | _ => .error .wordCount
  | 0x12 => onlyPacket .pktReset ws
  | 0x13 => onlyPacket .pktSetEgress ws
  | 0x14 => onlyPacket .pktRetire ws
  | 0x15 => match ws with
    | p :: code :: idx :: vs => (decField code idx vs).bind fun w => .ok (.pktWr p.toNat w)
    | _ => .error .wordCount
  | 0x20 => match ws with
    | [p, id] => (narrow 32 id).bind fun id => .ok (.pktId p.toNat id)
    | _ => .error .wordCount
  | 0x21 => match ws with
    | [p, t] => (narrow 4 t).bind fun t => .ok (.pktType p.toNat t)
    | _ => .error .wordCount
  | 0x22 => copyId .pktIdMcCpy ws
  | 0x23 => copyId .pktIdMirrCpy ws
  | 0x24 => copyId .pktIdMcC2c ws
  | 0x30 => match ws with
    | [k, mem, i, j, w0, w1] => (decMem mem j).bind fun mem => .ok (.cfgWr k.toNat mem i.toNat w0 w1)
    | _ => .error .wordCount
  | _ => .error .reservedOpcode

/-- A host command message. -/
def decodeCmd : List W64 → Except DecodeError Instr
  | [] => .error .wordCount
  | w :: ws => if w.toNat < 256 then decodeOp w.toNat ws else .error .reservedBits

/-- The decoder: total, on the words that stand at any place. -/
def decode (l : Loc) (ws : List W64) : Except DecodeError Instr :=
  match l with
  | .micro sl => decodeSlot sl ws
  | .port => decodeCmd ws

/-! ### The encoder -/

/-- The 44 bits of a TcamRow word (30_encoding.md R102). -/
def TcamRow.bits (r : TcamRow) : BitVec 44 :=
  r.ver1 ++ r.ver0 ++ r.ctrNeg ++ r.ctrZero ++ r.currState ++ r.lookup8_1 ++ r.lookup8_0 ++ r.lookup16

/-- A TcamRow word, reserved bits 0. -/
def encTcam (r : TcamRow) : W64 := 0#20 ++ r.bits

/-- An EaRow word (30_encoding.md R104), reserved bits 0. -/
def encEa (r : EaRow) : W64 :=
  0#4 ++ r.bufReq ++ r.nxtStateMask ++ r.nxtState ++ r.done ++ r.ldLookup8_1 ++ r.ldLookup8_0 ++
    r.ldLookup16 ++ r.lookupOff8_1 ++ r.lookupOff8_0 ++ r.lookupOff16 ++ r.shiftAmt ++ r.ctrAmtIdx ++
    r.ctrLdSrc ++ r.ctrLoad

/-- A control word `W6` (30_encoding.md R107), reserved bits 0. -/
def encActCtl (r : ActCtl) : W64 :=
  0#34 ++ r.priUpdValMask ++ r.priUpdEnShr ++ r.priUpdSrc ++ r.priUpdType ++ r.csumAddr1 ++ r.csumEn1 ++
    r.csumAddr0 ++ r.csumEn0 ++ r.dstOffsetInc ++ r.dstOffsetRst

/-- Word 0 of a ChecksumCtrlRow (30_encoding.md R109), reserved bits 0. -/
def encCsum0 (r : CsumRow) : W64 :=
  0#6 ++ r.zerosAsOnesPos ++ r.zerosAsOnes ++ r.endFlag ++ r.start ++ r.lanes.shr ++ r.lanes.swap ++
    r.lanes.mask

/-- Word 1 of a ChecksumCtrlRow (30_encoding.md R110), reserved bits 0. -/
def encCsum1 (r : CsumRow) : W64 := 0#48 ++ r.lanes.add

/-- An enabled lane slot (30_encoding.md R105), reserved bits 0. -/
def encLaneSlot (l : Lane) : BitVec 32 :=
  0#13 ++ l.offsetRotImm ++ l.offsetAddDst ++ l.dst ++ l.src ++ l.srcType ++ 1#1

/-- The ACT word with lane `k` enabled and the other slot of the word zero (30_encoding.md R106). -/
def encLane (k : Fin 4) (l : Lane) : W64 :=
  if k.val % 2 = 0 then 0#32 ++ encLaneSlot l else encLaneSlot l ++ 0#32

/-- An EaRow with every field zero. -/
def EaRow.zero : EaRow :=
  ⟨0, 0, 0, 0, 0, 0, 0, 0, 0, 0, 0, 0, 0, 0⟩

/-- A control word with every field zero. -/
def ActCtl.zero : ActCtl := ⟨0, 0, 0, 0, 0, 0, 0, 0, 0, 0⟩

/-- A ChecksumCtrlRow with every field zero. -/
def CsumRow.zero : CsumRow := ⟨⟨0, 0, 0, 0⟩, 0, 0, 0, 0⟩

/-- The two words of a ChecksumCtrlRow. -/
def encCsum (r : CsumRow) : List W64 := [encCsum0 r, encCsum1 r]

/-- A number as an operand word. -/
def opWord (n : Nat) : W64 := BitVec.ofNat 64 n

/-- A byte string as operand words. -/
def encBytes (b : List Byte) : List W64 := opWord b.length :: b.map fun x => opWord x.toNat

/-- A handle as an operand word. -/
def encHandle : Handle → W64
  | none => 0
  | some n => opWord n

/-- A view selector as an operand word. -/
def encDir : Dir → W64
  | .ing => 0
  | .egr => 1

/-- A clone kind as an operand word. -/
def encKind : CloneKind → W64
  | .mc => 0
  | .mirror => 1
  | .mcC2c => 2

/-- The field code, index and value words of PKT.WR. -/
def encField : FieldWrite → List W64
  | .num f v => match f with
    | .version d => [0, encDir d, v]
    | .metadataAdded d => [1, encDir d, v]
    | .origHdrLen d => [2, encDir d, v]
    | .parsableHdrLen d => [3, encDir d, v]
    | .l1Cnt => [4, 0, v]
    | .l2Cnt => [5, 0, v]
    | .mcGrpId => [6, 0, v]
    | .copyCtr k => [7, opWord k, v]
    | .recircCnt => [8, 0, v]
    | .priority => [9, 0, v]
  | .handle f h => match f with
    | .phv d => [16, encDir d, encHandle h]
    | .port d => [17, encDir d, encHandle h]
    | .clot d => [18, encDir d, encHandle h]
    | .teop => [19, 0, encHandle h]
  | .bytes f b => match f with
    | .signature => 32 :: 0 :: encBytes b
    | .bytes => 33 :: 0 :: encBytes b

/-- The memory code and sub-index words of CFG.WR: (code, j). -/
def encMem : CfgMem → W64 × W64
  | .tcam => (0, 0)
  | .ea => (1, 0)
  | .act j => (2, opWord j)
  | .csum .e0 => (3, 0)
  | .csum .e1 => (4, 0)
  | .ctl => (5, 0)

/-- The encoder: where the instruction's words stand, and the words, every unused field and every
reserved bit zero. -/
def encode : Instr → Loc × List W64
  | .winSample => (.micro .winSample, [])
  | .tcamKey => (.micro .tcamKey, [])
  | .tcamMatch i v m => (.micro (.tcamMatch i), [encTcam v, encTcam m])
  | .tcamSelect => (.micro .tcamSelect, [])
  | .parse p k => (.port, [0x00, opWord p, opWord k])
  | .eaCtrAdd amt => (.micro .eaCtr, [encEa { EaRow.zero with ctrAmtIdx := amt }])
  | .eaCtrLdi amt => (.micro .eaCtr, [encEa { EaRow.zero with ctrLoad := 1, ctrAmtIdx := amt }])
  | .eaCtrLds idx => (.micro .eaCtr, [encEa { EaRow.zero with ctrLoad := 1, ctrLdSrc := 1, ctrAmtIdx := idx }])
  | .eaShift amt => (.micro .eaShift, [encEa { EaRow.zero with shiftAmt := amt }])
  | .eaNxt st mask => (.micro .eaNxt, [encEa { EaRow.zero with nxtState := st, nxtStateMask := mask }])
  | .eaArm16 off => (.micro .eaArm16, [encEa { EaRow.zero with ldLookup16 := 1, lookupOff16 := off }])
  | .eaArm8_0 off => (.micro .eaArm8_0, [encEa { EaRow.zero with ldLookup8_0 := 1, lookupOff8_0 := off }])
  | .eaArm8_1 off => (.micro .eaArm8_1, [encEa { EaRow.zero with ldLookup8_1 := 1, lookupOff8_1 := off }])
  | .eaBufreq n => (.micro .eaBufreq, [encEa { EaRow.zero with bufReq := n }])
  | .eaDone d => (.micro .eaDone, [encEa { EaRow.zero with done := d }])
  | .actDoff rst inc =>
    (.micro .actDoff, [encActCtl { ActCtl.zero with dstOffsetRst := rst, dstOffsetInc := inc }])
  | .actEx32_0 l => (.micro (.ex32 0), [encLane 0 l])
  | .actEx32_1 l => (.micro (.ex32 1), [encLane 1 l])
  | .actEx32_2 l => (.micro (.ex32 2), [encLane 2 l])
  | .actEx32_3 l => (.micro (.ex32 3), [encLane 3 l])
  | .actEx16_0 l => (.micro (.ex16 0), [encLane 0 l])
  | .actEx16_1 l => (.micro (.ex16 1), [encLane 1 l])
  | .actEx16_2 l => (.micro (.ex16 2), [encLane 2 l])
  | .actEx16_3 l => (.micro (.ex16 3), [encLane 3 l])
  | .actEx8_0 l => (.micro (.ex8 0), [encLane 0 l])
  | .actEx8_1 l => (.micro (.ex8 1), [encLane 1 l])
  | .actEx8_2 l => (.micro (.ex8 2), [encLane 2 l])
  | .actEx8_3 l => (.micro (.ex8 3), [encLane 3 l])
  | .actCsum0 addr =>
    (.micro (.actCsum .e0), [encActCtl { ActCtl.zero with csumEn0 := 1, csumAddr0 := addr }])
  | .actCsum1 addr =>
    (.micro (.actCsum .e1), [encActCtl { ActCtl.zero with csumEn1 := 1, csumAddr1 := addr }])
  | .csumAcc e r => (.micro (.csumAcc e), encCsum { CsumRow.zero with lanes := r })
  | .csumStart e => (.micro (.csumStart e), encCsum { CsumRow.zero with start := 1 })
  | .csumEnd e pos =>
    (.micro (.csumEnd e), encCsum { CsumRow.zero with endFlag := 1, zerosAsOnesPos := pos })
  | .csumZao e pos =>
    (.micro (.csumZao e), encCsum { CsumRow.zero with endFlag := 1, zerosAsOnes := 1, zerosAsOnesPos := pos })
  | .actPriImm v =>
    (.micro .actPri, [encActCtl { ActCtl.zero with priUpdEnShr := 1, priUpdValMask := v }])
  | .actPriFld src shr mask =>
    (.micro .actPri,
      [encActCtl { ActCtl.zero with
        priUpdType := 1, priUpdSrc := src, priUpdEnShr := shr, priUpdValMask := mask }])
  | .pktCreate b id => (.port, 0x10 :: opWord id.toNat :: encBytes b)
  | .pktClone p kind pipe copy carry =>
    (.port, [0x11, opWord p, encKind kind, opWord pipe.toNat, opWord copy.toNat, opWord carry.toNat])
  | .pktReset p => (.port, [0x12, opWord p])
  | .pktSetEgress p => (.port, [0x13, opWord p])
  | .pktRetire p => (.port, [0x14, opWord p])
  | .pktWr p w => (.port, 0x15 :: opWord p :: encField w)
  | .pktId p id => (.port, [0x20, opWord p, opWord id.toNat])
  | .pktType p t => (.port, [0x21, opWord p, opWord t.toNat])
  | .pktIdMcCpy p id pipe copy =>
    (.port, [0x22, opWord p, opWord id.toNat, opWord pipe.toNat, opWord copy.toNat])
  | .pktIdMirrCpy p id pipe copy =>
    (.port, [0x23, opWord p, opWord id.toNat, opWord pipe.toNat, opWord copy.toNat])
  | .pktIdMcC2c p id pipe copy =>
    (.port, [0x24, opWord p, opWord id.toNat, opWord pipe.toNat, opWord copy.toNat])
  | .cfgWr k mem i w0 w1 =>
    (.port, [0x30, opWord k, (encMem mem).1, opWord i, (encMem mem).2, w0, w1])

/-! ### The opcode table's numbers (log 20)

The table gives a row a match and a mask inside ONE word and no mark of the place the word stands at, so
one number stands for several rows. The number is read at the place of the most specific row it fits. -/

/-- How many operand words follow the operation code in the shortest message of a command
(a byte string of a message of operand words of zeros has no byte). -/
def cmdOperands (op : Nat) : Option Nat :=
  match op with
  | 0x00 => some 2
  | 0x10 => some 2
  | 0x11 => some 5
  | 0x12 | 0x13 | 0x14 => some 1
  | 0x15 => some 4
  | 0x20 | 0x21 => some 2
  | 0x22 | 0x23 | 0x24 => some 4
  | 0x30 => some 6
  | _ => none

/-- The place of the opcode-table row a number is read as: a command code if it is one and nothing more;
for the number 0, which eleven rows share, the row its width points to; else the row of the highest
enable bit that is set. -/
def tableLoc (nbits w : Nat) : Loc :=
  if w = 0 then
    if nbits ≤ 8 then .port else if nbits ≤ 16 then .micro .eaShift else .micro .winSample
  else if w < 256 ∧ (cmdOperands w).isSome then .port
  else if w.testBit 51 then if w.testBit 52 then .micro (.csumZao .e0) else .micro (.csumEnd .e0)
  else if w.testBit 50 then .micro (.csumStart .e0)
  else if w.testBit 37 then .micro .eaDone
  else if w.testBit 36 then .micro .eaArm8_1
  else if w.testBit 35 then .micro .eaArm8_0
  else if w.testBit 34 then .micro .eaArm16
  else if w.testBit 32 then .micro (.ex32 1)
  else if w.testBit 24 || w.testBit 21 then .micro .actPri
  else if w.testBit 15 then .micro (.actCsum .e1)
  else if w.testBit 9 then .micro (.actCsum .e0)
  else .micro .eaCtr

/-- The words the number stands for at a place: a command's message with operand words of zeros, a
ChecksumCtrlRow's two words, else one word, or none where the place reads none. -/
def tableWords (l : Loc) (w : Nat) : List W64 :=
  match l with
  | .port => opWord w :: List.replicate ((cmdOperands w).getD 0) 0
  | .micro .winSample | .micro .tcamKey | .micro .tcamSelect => []
  | .micro (.csumStart _) | .micro (.csumAcc _) | .micro (.csumZao _) | .micro (.csumEnd _)
  | .micro (.tcamMatch _) => [opWord w, opWord (w >>> 64)]
  | .micro _ => [opWord w]

/-- The instruction the decoder reads from an opcode-table number. -/
def decodeTableWord (nbits w : Nat) : Option Instr :=
  match decode (tableLoc nbits w) (tableWords (tableLoc nbits w) w) with
  | .ok i => some i
  | .error _ => none

end Sys2Proof
end

