-- ==== Sys2Proof/Machine/State.lean ====
section
/-! DEFINITION. The state of the machine, everything the spec gives it, and the state after reset
(10_state.md; INVENTORY.md '## State' lists each field with its rule). Plain data throughout. -/

namespace Sys2Proof.Machine

/-- Sparse data by number: pairs of key and value with rising keys. A key not listed holds no value. -/
abbrev Memory (α : Type) := List (Nat × α)

/-- Who executes a step, and who owns a packet: the host or a parser instance (10_state.md R20, R21). -/
inductive Agent
  | host
  | inst (k : Nat)
deriving DecidableEq, Repr

/-- The outcome tag of the last parse (10_state.md R54, 60_exceptions.md R301). -/
inductive ParseOutcome
  | none
  | success
  | failed
  | aborted
deriving DecidableEq, Repr

/-- The error cause of the last parse (60_exceptions.md R300). -/
inductive Cause
  | noError
  | noMatch
  | loopBudgetExceeded
  | outOfBoundsRead
deriving DecidableEq, Repr

/-- The match window `WIN` (10_state.md R32). -/
structure Window where
  lookup16  : BitVec 16
  lookup8_0 : BitVec 8
  lookup8_1 : BitVec 8
deriving DecidableEq, Repr

/-- The registers of one checksum engine (10_state.md R44, R45). -/
structure Csum where
  sum   : BitVec 16
  final : BitVec 16
  valid : BitVec 1
  pos   : BitVec 5
deriving DecidableEq, Repr

/-- The parse working registers `P.ps` (10_state.md R25 to R35, R43 to R45, R56). -/
structure ParseRegs where
  state  : BitVec 8
  nxt    : BitVec 8
  idx    : BitVec 8
  hit    : BitVec 1
  ctr    : BitVec 8
  cur    : BitVec 16
  off16  : BitVec 6
  off8_0 : BitVec 6
  off8_1 : BitVec 6
  win    : Window
  doff   : BitVec 8
  iter   : BitVec 16
  bufreq : BitVec 6
  ver    : BitVec 1
  csum0  : Csum
  csum1  : Csum
deriving DecidableEq, Repr

/-- One IEInfo view of a packet (10_state.md R50). -/
structure View where
  phv            : Handle
  port           : Handle
  clot           : Handle
  version        : BitVec 1
  metadataAdded  : BitVec 1
  origHdrLen     : BitVec 16
  parsableHdrLen : BitVec 16
deriving DecidableEq, Repr

/-- The queueing-stage scratch `P.q` (10_state.md R55). -/
structure QueueScratch where
  l1Cnt   : BitVec 16
  l2Cnt   : BitVec 16
  mcGrpId : BitVec 16
  copyCtr : List (BitVec 16)
deriving DecidableEq, Repr

/-- The packet container (10_state.md R47 to R56). `P.len` is the length of `bytes`. -/
structure Packet where
  owner      : Agent
  bytes      : List Byte
  pktId      : BitVec 64
  recircCnt  : BitVec 8
  signature  : List Byte
  ing        : View
  egr        : View
  activeView : Dir
  teop       : Handle
  priority   : BitVec 3
  outcome    : ParseOutcome
  cause      : Cause
  q          : QueueScratch
  ps         : ParseRegs
deriving DecidableEq, Repr

/-- The configuration of one instance: its row memories and control registers (10_state.md R22, R36 to R38).
`tcam` holds (value, mask); word `n` of ActionRow `i` stands in `act` at `8 * i + n`. The three `…Written`
flags say whether the host has written the register, which R24 and 70_reset_and_hazards.md R342 (d) ask of a
launch; a row memory word the host has not written is one that is not listed. -/
structure InstCfg where
  tcam       : Memory (W64 × W64)
  ea         : Memory W64
  act        : Memory W64
  csumRow0   : Memory (W64 × W64)
  csumRow1   : Memory (W64 × W64)
  startState : BitVec 8
  defOff16   : BitVec 6
  defOff8_0  : BitVec 6
  defOff8_1  : BitVec 6
  maxIter    : BitVec 16
  startWritten : Bool
  offWritten   : Bool
  iterWritten  : Bool
deriving DecidableEq, Repr

/-- Where a parse in progress stands: at the loop head of PARSE (41_pipeline_ea.md R160, R162) or at a
place of the iteration (R163). -/
inductive Phase
  | head
  | slot (sl : Slot)
deriving DecidableEq, Repr

/-- A parse in progress on an instance: which packet, where it stands, and the values the rules hand from
one micro-operation of an iteration to a later one (log 1). -/
structure Run where
  pkt      : Nat
  phase    : Phase
  /-- `cur0`, the cursor on entry to the iteration (00_scope.md R18). -/
  cur0     : BitVec 16
  /-- `KEY` (40_match.md R142). -/
  key      : BitVec 44
  /-- The rows found to match so far, oldest first (40_match.md R145). -/
  hits     : List (BitVec 8)
  /-- `DOFF_eff` (42_extract.md R201). -/
  doffEff  : BitVec 8
  /-- The ChecksumCtrlRow being used (42_extract.md R210). -/
  csumAddr : BitVec 5
  /-- `sum_in` of the engine being invoked (43_checksum.md R231). -/
  sumIn    : BitVec 16
deriving DecidableEq, Repr

/-- One parser instance (10_state.md R20, R39, R42). -/
structure Instance where
  dir  : Dir
  cfg  : InstCfg
  snap : InstCfg
  run  : Option Run
deriving DecidableEq, Repr

/-- The content of a PHV container: the width and value of the last write (10_state.md R46). -/
inductive PhvVal
  | w8 (v : BitVec 8)
  | w16 (v : BitVec 16)
  | w32 (v : BitVec 32)
deriving DecidableEq, Repr

/-- Why the machine is stuck: the spec gives no step (93_implementation_defined.md U12, U14). -/
inductive Fault
  /-- A host message that names no command; raised by the step at the command port. Safe. -/
  | badCommand (e : DecodeError)
  /-- A command on a packet that does not exist or that the host does not own; raised by PARSE and the
  PKT.* commands (10_state.md R21, 45_packet.md R269). Safe. -/
  | notOwned
  /-- PARSE or CFG.WR on an instance number beyond `N_INST`. Safe. -/
  | noSuchInstance
  /-- PARSE on an instance that is parsing (10_state.md R20, U14). Safe. -/
  | instanceBusy
  /-- PKT.WR of a per-copy counter at an index beyond `N_QCTR` (10_state.md R55, log 23). Safe. -/
  | noSuchField
  /-- A micro-operation when the agent on turn has no parse in progress. Safe. -/
  | noParse
deriving DecidableEq, Repr

/-- What the spec gives no meaning (00_scope.md R15). -/
inductive Refusal
  /-- An instruction that has no meaning in this model yet. Safe. -/
  | notModelled (mnemonic : String)
  /-- PARSE with a configuration that holds a `shift_amt` of 33 to 63 in a row that can be matched, or
  EA.SHIFT with one (30_encoding.md R127, U8). Safe. -/
  | reservedShiftAmt
  /-- PARSE with a null PHV handle in the view the instance uses, or an extraction through one
  (20_memory.md R76, 41_pipeline_ea.md R160, U13). Safe. -/
  | nullPhv
  /-- PARSE of a packet whose PHV another running parse writes (20_memory.md R84, U15). Safe. -/
  | sharedPhv
  /-- PARSE whose parse can read configuration the host never wrote (10_state.md R24,
  70_reset_and_hazards.md R342, U7). Safe. -/
  | configUnwritten
  /-- The step's fetch comes to a row the host never wrote; no parse that PARSE launched does (R24). Safe. -/
  | rowUnwritten
  /-- CFG.WR to an index outside its memory, to CTL index 3 or above, or to an ACT sub-index above 3
  (30_encoding.md R130, U11). Safe. -/
  | badConfigIndex
deriving DecidableEq, Repr

/-- The machine. -/
structure State where
  /-- The configuration fields of the machine (00_scope.md R9); no rule writes them. -/
  params  : Config.Params
  /-- The parser instances; `N_INST` is the length (10_state.md R20). -/
  insts   : List Instance
  /-- The packets that exist, by name. -/
  packets : Memory Packet
  /-- The model's own: the name the next created packet gets (log 15). -/
  nextPkt : Nat
  /-- Every PHV: container `id` of handle `h` at `256 * h + id` (10_state.md R46). -/
  phvs    : Memory PhvVal
  /-- The model's own: the host's command messages not yet taken, oldest first (log 14). -/
  cmds    : List (List W64)
  /-- The model's own: which agent moves next, first to move first (log 4). -/
  turns   : List Agent
deriving DecidableEq, Repr

/-! ### Cleared values (45_packet.md R267) -/

/-- A cleared engine. -/
def Csum.cleared : Csum := { sum := 0, final := 0, valid := 0, pos := 0 }

/-- A cleared window. -/
def Window.cleared : Window := { lookup16 := 0, lookup8_0 := 0, lookup8_1 := 0 }

/-- Cleared parse registers. -/
def ParseRegs.cleared : ParseRegs :=
  { state := 0, nxt := 0, idx := 0, hit := 0, ctr := 0, cur := 0, off16 := 0, off8_0 := 0, off8_1 := 0,
    win := .cleared, doff := 0, iter := 0, bufreq := 0, ver := 0, csum0 := .cleared, csum1 := .cleared }

/-- A cleared view. -/
def View.cleared : View :=
  { phv := none, port := none, clot := none, version := 0, metadataAdded := 0, origHdrLen := 0,
    parsableHdrLen := 0 }

/-- Cleared queueing scratch with `n` per-copy counters. -/
def QueueScratch.cleared (n : Nat) : QueueScratch :=
  { l1Cnt := 0, l2Cnt := 0, mcGrpId := 0, copyCtr := List.replicate n 0 }

/-! ### Reset -/

/-- Configuration after power-on: no row and no control register written (10_state.md R24). The control
registers' zeros are a DESIGN CHOICE (log 7): the spec leaves them unspecified. -/
def InstCfg.reset : InstCfg :=
  { tcam := [], ea := [], act := [], csumRow0 := [], csumRow1 := [], startState := 0, defOff16 := 0,
    defOff8_0 := 0, defOff8_1 := 0, maxIter := 0, startWritten := false, offWritten := false,
    iterWritten := false }

/-- An idle instance after power-on. `SNAP` has no reset value; it equals the configuration here (log 9). -/
def Instance.reset (d : Dir) : Instance := { dir := d, cfg := .reset, snap := .reset, run := none }

/-- A machine after power-on with given configuration fields and instance directions. -/
def State.resetWith (p : Config.Params) (dirs : List Dir) : State :=
  { params := p, insts := dirs.map Instance.reset, packets := [], nextPkt := 0, phvs := [], cmds := [],
    turns := [] }

/-- The machine after power-on: no packet exists (10_state.md R62). One ingress and one egress instance
are a DESIGN CHOICE (log 5): `N_INST` is open. -/
def State.reset : State := State.resetWith .default [.ing, .egr]

end Sys2Proof.Machine
end

