-- ==== Sys2Proof/Machine/Ops.lean ====
section
/-! DEFINITION. The named operations over the state: sparse memories, the agent on turn, the parse in
progress and how a micro-operation acts on it, taking an exception and ending a parse, and the host's
operations on packets. -/

namespace Sys2Proof.Machine

/-! ### Sparse memories -/

/-- The canonical form: keys strictly rising (so no key is listed twice). -/
abbrev Memory.wf {α : Type} (m : Memory α) : Prop := m.Pairwise fun a b => a.1 < b.1

/-- What a key holds; a key not listed holds no value. -/
def Memory.get {α : Type} : Memory α → Nat → Option α
  | [], _ => none
  | (a, x) :: r, k => if a = k then some x else Memory.get r k

/-- Write a key, keeping the form. -/
def Memory.set {α : Type} : Memory α → Nat → α → Memory α
  | [], k, v => [(k, v)]
  | (a, x) :: r, k, v =>
    if k < a then (k, v) :: (a, x) :: r
    else if k = a then (k, v) :: r
    else (a, x) :: Memory.set r k v

/-- Remove a key. -/
def Memory.erase {α : Type} (m : Memory α) (k : Nat) : Memory α := m.filter fun e => e.1 ≠ k

/-! ### Views, engines and PHVs -/

/-- The view `P.IE[d]` (10_state.md R50). -/
def Packet.view (p : Packet) : Dir → View
  | .ing => p.ing
  | .egr => p.egr

/-- Replace the view `P.IE[d]`. -/
def Packet.setView (p : Packet) (d : Dir) (v : View) : Packet :=
  match d with
  | .ing => { p with ing := v }
  | .egr => { p with egr := v }

/-- The registers of engine `e` (10_state.md R44, R45). -/
def ParseRegs.csum (r : ParseRegs) : Eng → Csum
  | .e0 => r.csum0
  | .e1 => r.csum1

/-- Replace the registers of engine `e`. -/
def ParseRegs.setCsum (r : ParseRegs) (e : Eng) (c : Csum) : ParseRegs :=
  match e with
  | .e0 => { r with csum0 := c }
  | .e1 => { r with csum1 := c }

/-- The ChecksumCtrlRows of engine `e` (10_state.md R22). -/
def InstCfg.csumRow (c : InstCfg) : Eng → Memory (W64 × W64)
  | .e0 => c.csumRow0
  | .e1 => c.csumRow1

/-- The key of container `id` of the PHV behind handle `h`. -/
def phvKey (h : Nat) (id : BitVec 8) : Nat := 256 * h + id.toNat

/-- What a container holds: the width and value of its last write, if any (10_state.md R46). -/
def phvRead (m : Memory PhvVal) (h : Nat) (id : BitVec 8) : Option PhvVal := m.get (phvKey h id)

/-- `PhvWrite`: replace the whole container (20_memory.md R76). -/
def phvWrite (m : Memory PhvVal) (h : Nat) (id : BitVec 8) (v : PhvVal) : Memory PhvVal :=
  m.set (phvKey h id) v

/-! ### Who moves -/

/-- The lowest-numbered instance that is parsing. -/
def State.busy (s : State) : Option Nat :=
  s.insts.findIdx? fun i => i.run.isSome

/-- The agent on turn: the first scheduled one; with none scheduled a parsing instance runs on to its
end (20_memory.md R83), else the host moves (log 4). -/
def State.agent (s : State) : Agent :=
  match s.turns with
  | a :: _ => a
  | [] => match s.busy with
    | some k => .inst k
    | none => .host

/-- The turn is over. -/
def State.endTurn (s : State) : State := { s with turns := s.turns.tail }

/-- The oldest host message is taken. -/
def State.popCmd (s : State) : State := { s with cmds := s.cmds.tail }

/-! ### The parse in progress -/

/-- What a micro-operation sees and may change: the parse in progress of instance `k`, on packet `pid`. -/
structure Ctx where
  k      : Nat
  pid    : Nat
  params : Config.Params
  dir    : Dir
  snap   : InstCfg
  run    : Run
  pkt    : Packet
  phvs   : Memory PhvVal
deriving DecidableEq, Repr

/-- The parse in progress of instance `k`, if it has one. -/
def State.ctxOf (s : State) (k : Nat) : Option Ctx :=
  match s.insts[k]? with
  | none => none
  | some i => match i.run with
    | none => none
    | some r => match s.packets.get r.pkt with
      | none => none
      | some p =>
        some { k := k, pid := r.pkt, params := s.params, dir := i.dir, snap := i.snap, run := r,
               pkt := p, phvs := s.phvs }

/-- The parse in progress of the instance on turn. -/
def State.ctx (s : State) : Option Ctx :=
  match s.agent with
  | .host => none
  | .inst k => s.ctxOf k

/-- Set what instance `k` is doing. -/
def State.setRun (s : State) (k : Nat) (r : Option Run) : State :=
  { s with insts := s.insts.modify k fun i => { i with run := r } }

/-- Store the parse's changes: the values carried within the iteration, the packet, the PHVs. -/
def State.commit (s : State) (c : Ctx) : State :=
  { s.setRun c.k (some c.run) with packets := s.packets.set c.pid c.pkt, phvs := c.phvs }

/-- The parse has ended: the instance is idle and the host owns the packet again (41_pipeline_ea.md R160). -/
def State.release (s : State) (c : Ctx) : State :=
  { s.setRun c.k none with packets := s.packets.set c.pid { c.pkt with owner := .host }, phvs := c.phvs }

/-- What a micro-operation comes to. -/
inductive Effect
  /-- The parse goes on. -/
  | go (c : Ctx)
  /-- The parse ends and the packet returns to the host. -/
  | stop (c : Ctx)
  /-- The spec gives no meaning. -/
  | refuse (r : Refusal)
deriving DecidableEq, Repr

/-- Carry an effect out. -/
def Effect.apply (s : State) : Effect → Host.Outcome State Fault Refusal
  | .go c => .next (s.commit c)
  | .stop c => .next (s.release c)
  | .refuse r => .refused r

/-- A micro-operation acts on the parse of the instance on turn; with none there is no step. -/
def onParse (s : State) (f : Ctx → Effect) : Host.Outcome State Fault Refusal :=
  match s.ctx with
  | none => .fault .noParse
  | some c => (f c).apply s

/-- Replace the packet's parse registers. -/
def Ctx.setPs (c : Ctx) (r : ParseRegs) : Ctx := { c with pkt := { c.pkt with ps := r } }

/-- The outcome tag of a cause (60_exceptions.md R301). -/
def outcomeOf : Cause → ParseOutcome
  | .loopBudgetExceeded => .aborted
  | .noMatch | .outOfBoundsRead => .failed
  | .noError => .success

/-- TAKING AN EXCEPTION, `raise c` (60_exceptions.md R301, R305): the cause and the outcome are written on
the packet, the parse ends where it stands, every earlier write stays, and the packet returns to the
host. Nothing is saved aside, no mode changes and there is no vector. -/
def raise (c : Ctx) (why : Cause) : Effect :=
  .stop { c with pkt := { c.pkt with cause := why, outcome := outcomeOf why } }

/-- Ending a parse with Success (41_pipeline_ea.md R172). There is no return from an exception: none is
handled inside the block (60_exceptions.md R307). -/
def finish (c : Ctx) : Effect := raise c .noError

/-! ### Host operations -/

/-- The packet, if it exists and the host owns it (10_state.md R21). -/
def State.hostPacket (s : State) (p : Nat) : Option Packet :=
  match s.packets.get p with
  | none => none
  | some q => if q.owner = .host then some q else none

/-- A host command that changes one packet in place. -/
def onPacket (s : State) (p : Nat) (f : Packet → Packet) : Host.Outcome State Fault Refusal :=
  match s.hostPacket p with
  | none => .fault .notOwned
  | some q => .next { s with packets := s.packets.set p (f q) }

/-- Bring a new packet into being under the next name (log 15). -/
def State.addPacket (s : State) (p : Packet) : State :=
  { s with packets := s.packets.set s.nextPkt p, nextPkt := s.nextPkt + 1 }

/-- Whether instance `i` is parsing a packet into the PHV behind handle `h`. -/
def State.usesPhv (s : State) (h : Nat) (i : Instance) : Bool :=
  match i.run with
  | none => false
  | some r => match s.packets.get r.pkt with
    | none => false
    | some p => (p.view i.dir).phv == some h

/-- Whether some running parse writes the PHV behind handle `h` (20_memory.md R84). -/
def State.phvInUse (s : State) (h : Nat) : Bool := s.insts.any (s.usesPhv h)

/-- The write of CFG.WR into an instance's configuration (20_memory.md R78, 30_encoding.md R111, R130). -/
def cfgWrite (c : InstCfg) (mem : CfgMem) (i : Nat) (w0 w1 : W64) : Option InstCfg :=
  match mem with
  | .tcam => if i < Config.nRows then some { c with tcam := c.tcam.set i (w0, w1) } else none
  | .ea => if i < Config.nRows then some { c with ea := c.ea.set i w0 } else none
  | .act j =>
    if i < Config.nRows ∧ j < 4 then
      let low := c.act.set (8 * i + 2 * j) w0
      -- word 7 does not exist: the second word of pair 3 is ignored
      some { c with act := if j = 3 then low else low.set (8 * i + 2 * j + 1) w1 }
    else none
  | .csum .e0 => if i < Config.nCsumRows then some { c with csumRow0 := c.csumRow0.set i (w0, w1) } else none
  | .csum .e1 => if i < Config.nCsumRows then some { c with csumRow1 := c.csumRow1.set i (w0, w1) } else none
  | .ctl =>
    match i with
    | 0 => some { c with startState := w0.extractLsb' 0 8, startWritten := true }
    | 1 =>
      some { c with
        defOff16 := w0.extractLsb' 0 6
        defOff8_0 := w0.extractLsb' 6 6
        defOff8_1 := w0.extractLsb' 12 6
        offWritten := true }
    | 2 => some { c with maxIter := w0.extractLsb' 0 16, iterWritten := true }
    | _ => none

end Sys2Proof.Machine
end

