-- ==== Sys2Proof/Machine/Flags.lean ====
section
/-! DEFINITION. Flags and codes: the counter flags of the search key (10_state.md R29), the outcome and
cause codes (60_exceptions.md R300, R301), the copy-type codes (30_encoding.md R114) and the packet
identifier's functions (45_packet.md R262 to R266, R271). -/

namespace Sys2Proof.Machine

/-- `ctr_zero` (10_state.md R29). -/
def ctrZero (ctr : BitVec 8) : BitVec 1 := if ctr = 0#8 then 1#1 else 0#1

/-- `ctr_neg` (10_state.md R29). -/
def ctrNeg (ctr : BitVec 8) : BitVec 1 := ctr.extractLsb' 7 1

/-- `ver0` of the key: the version is 0 (40_match.md R142). -/
def keyVer0 (ver : BitVec 1) : BitVec 1 := if ver = 0#1 then 1#1 else 0#1

/-- `ver1` of the key: the version is 1 (40_match.md R142). -/
def keyVer1 (ver : BitVec 1) : BitVec 1 := if ver = 1#1 then 1#1 else 0#1

/-- The code of an outcome (60_exceptions.md R301). -/
def ParseOutcome.code : ParseOutcome → BitVec 2
  | .none => 0
  | .success => 1
  | .failed => 2
  | .aborted => 3

/-- The code of a cause (60_exceptions.md R300). -/
def Cause.code : Cause → BitVec 2
  | .noError => 0
  | .noMatch => 1
  | .loopBudgetExceeded => 2
  | .outOfBoundsRead => 3

/-- Copy-type codes (30_encoding.md R114). -/
def typeNormal : BitVec 4 := 0
/-- `MIRROR`. -/
def typeMirror : BitVec 4 := 1
/-- `GENERATED`. -/
def typeGenerated : BitVec 4 := 2
/-- `MC_COPY`. -/
def typeMcCopy : BitVec 4 := 3

/-- A fresh NORMAL id (45_packet.md R260). -/
def normalId (id32 : BitVec 32) : BitVec 64 := typeNormal ++ 0#28 ++ id32

/-- `set_base` (45_packet.md R262). -/
def setBase (x : BitVec 64) (id32 : BitVec 32) : BitVec 64 := x.extractLsb' 32 32 ++ id32

/-- `set_type` (45_packet.md R263). -/
def setType (x : BitVec 64) (t4 : BitVec 4) : BitVec 64 := t4 ++ x.extractLsb' 0 60

/-- A copy id of a type: the whole id cleared, then base, type, pipe and copy count set
(45_packet.md R264, R265; positions 30_encoding.md R113). -/
def copyIdOf (t4 : BitVec 4) (id32 : BitVec 32) (pipe : BitVec 4) (copy : BitVec 16) : BitVec 64 :=
  t4 ++ 0#8 ++ pipe ++ copy ++ id32

/-- `mc_cpy` (45_packet.md R264). -/
def mcCpy (id32 : BitVec 32) (pipe : BitVec 4) (copy : BitVec 16) : BitVec 64 :=
  copyIdOf typeMcCopy id32 pipe copy

/-- `mirr_cpy` (45_packet.md R265). -/
def mirrCpy (id32 : BitVec 32) (pipe : BitVec 4) (copy : BitVec 16) : BitVec 64 :=
  copyIdOf typeMirror id32 pipe copy

/-- `mc_c2c` (45_packet.md R266). -/
def mcC2c (id32 : BitVec 32) (pipe : BitVec 4) (copy : BitVec 16) : BitVec 64 :=
  mcCpy id32 pipe copy ||| (1#64 <<< 59)

/-- The decoders of the identifier (45_packet.md R271). -/
def idBase (x : BitVec 64) : BitVec 32 := x.extractLsb' 0 32
/-- `type(x)`. -/
def idType (x : BitVec 64) : BitVec 4 := x.extractLsb' 60 4
/-- `c2c(x)`. -/
def idC2c (x : BitVec 64) : BitVec 1 := x.extractLsb' 59 1
/-- `pipe(x)`. -/
def idPipe (x : BitVec 64) : BitVec 4 := x.extractLsb' 48 4
/-- `copy(x)`. -/
def idCopy (x : BitVec 64) : BitVec 16 := x.extractLsb' 32 16

end Sys2Proof.Machine
end

