-- ==== Sys2Proof/Machine/Operands.lean ====
section
/-! DEFINITION. Operand forms: the byte window and packet reads (20_memory.md R71, R75), lane source and
destination (30_encoding.md R118, R119), window bytes, ones'-complement addition (00_scope.md R11). -/

namespace Sys2Proof.Machine

/-- `avail = min(W_BYTES, P.len - cur0)` (20_memory.md R71). -/
def Ctx.avail (c : Ctx) : Nat := min Config.wBytes (c.pkt.bytes.length - c.run.cur0.toNat)

/-- `B[o]`, the byte at window offset `o`; the rules read it only for `o < avail` (20_memory.md R72). -/
def Ctx.byteAt (c : Ctx) (o : Nat) : Byte := c.pkt.bytes.getD (c.run.cur0.toNat + o) 0

/-- Two bytes, the lower offset more significant (20_memory.md R75). -/
def Ctx.read16 (c : Ctx) (o : Nat) : BitVec 16 := c.byteAt o ++ c.byteAt (o + 1)

/-- Four bytes, the lower offset more significant (20_memory.md R75). -/
def Ctx.read32 (c : Ctx) (o : Nat) : BitVec 32 :=
  c.byteAt o ++ c.byteAt (o + 1) ++ c.byteAt (o + 2) ++ c.byteAt (o + 3)

/-- `src_eff` (30_encoding.md R118, 42_extract.md R203): not truncated. -/
def srcEff (l : Lane) (doffEff : BitVec 8) : Nat :=
  l.src.toNat + if l.srcType = 1#1 then doffEff.toNat else 0

/-- `dst_eff` (30_encoding.md R119, 42_extract.md R204): modulo 256. -/
def dstEff (l : Lane) (doffEff : BitVec 8) : BitVec 8 :=
  l.dst + if l.offsetAddDst = 1#1 then doffEff else l.offsetRotImm.zeroExtend 8

/-- `WIN` as one 32-bit value `{lookup8[1], lookup8[0], lookup16}` (00_scope.md R18). -/
def Window.bits (w : Window) : BitVec 32 := w.lookup8_1 ++ w.lookup8_0 ++ w.lookup16

/-- One byte of the window (44_priority.md R252). -/
def Window.byte (w : Window) : Config.WinByte → BitVec 8
  | .lookup16hi => w.lookup16.extractLsb' 8 8
  | .lookup16lo => w.lookup16.extractLsb' 0 8
  | .lookup8_0 => w.lookup8_0
  | .lookup8_1 => w.lookup8_1

/-- The window byte of a `pri_upd_src` code (44_priority.md R252). -/
def priSrc (src : BitVec 2) : Config.WinByte :=
  if src = 0#2 then .lookup16hi
  else if src = 1#2 then .lookup16lo
  else if src = 2#2 then .lookup8_0
  else .lookup8_1

/-- `a +1c b`: 16-bit ones'-complement addition with end-around carry (00_scope.md R11). -/
def onesAdd (a b : BitVec 16) : BitVec 16 :=
  let t := a.zeroExtend 17 + b.zeroExtend 17
  t.extractLsb' 0 16 + (t.extractLsb' 16 1).zeroExtend 16

/-- The low bits of a host operand: a value "truncated to the field's width" (45_packet.md R270). -/
def low (n : Nat) (v : W64) : BitVec n := v.extractLsb' 0 n

end Sys2Proof.Machine
end

