-- ==== Sys2Proof/Machine/Match.lean ====
section
/-! DEFINITION. The TCAM match engine (40_match.md): WIN.SAMPLE, TCAM.KEY, TCAM.MATCH, TCAM.SELECT. -/

namespace Sys2Proof.Machine

/-- The three samples lie in the byte window (40_match.md R141). -/
def Ctx.sampleLegal (c : Ctx) : Prop :=
  c.pkt.ps.off16.toNat + 2 ≤ c.avail ∧ c.pkt.ps.off8_0.toNat + 1 ≤ c.avail ∧
    c.pkt.ps.off8_1.toNat + 1 ≤ c.avail

/-- The window at the armed offsets (40_match.md R141). -/
def Ctx.sample (c : Ctx) : Window :=
  { lookup16  := c.read16 c.pkt.ps.off16.toNat
    lookup8_0 := c.byteAt c.pkt.ps.off8_0.toNat
    lookup8_1 := c.byteAt c.pkt.ps.off8_1.toNat }

/-- The search key (40_match.md R142), in the layout of a TcamRow (30_encoding.md R103). -/
def searchKey (win : Window) (state ctr : BitVec 8) (ver : BitVec 1) : TcamRow :=
  { lookup16 := win.lookup16, lookup8_0 := win.lookup8_0, lookup8_1 := win.lookup8_1,
    currState := state, ctrZero := ctrZero ctr, ctrNeg := ctrNeg ctr, ver0 := keyVer0 ver,
    ver1 := keyVer1 ver }

/-- The ternary test of one row over all 44 bits (40_match.md R143). -/
def ternary (key v m : BitVec 44) : Bool := (key &&& m) == (v &&& m)

/-- The lower of two row numbers. -/
def minRow (a b : BitVec 8) : BitVec 8 := if a.toNat ≤ b.toNat then a else b

/-- Which of the matching rows `h :: hs` wins (40_match.md R145): the lowest, or, under another
`TIE_BREAK`, a member the spec does not name (log 12). -/
def pickRow (tb : Config.TieBreak) (h : BitVec 8) (hs : List (BitVec 8)) : BitVec 8 :=
  match tb with
  | .lowest => hs.foldl minRow h
  | .other => (h :: hs).getD (Config.otherTieBreak (h :: hs) % (hs.length + 1)) h

/-- WIN.SAMPLE (40_match.md R141): all three checks come before the write. -/
def execWinSample (s : State) : Host.Outcome State Fault Refusal :=
  onParse s fun c =>
    if c.pkt.ps.off16.toNat + 2 > c.avail then raise c .outOfBoundsRead
    else if c.pkt.ps.off8_0.toNat + 1 > c.avail then raise c .outOfBoundsRead
    else if c.pkt.ps.off8_1.toNat + 1 > c.avail then raise c .outOfBoundsRead
    else .go (c.setPs { c.pkt.ps with win := c.sample })

/-- TCAM.KEY (40_match.md R142): the key of this iteration, before any row is tested. -/
def execTcamKey (s : State) : Host.Outcome State Fault Refusal :=
  onParse s fun c =>
    let key := (searchKey c.pkt.ps.win c.pkt.ps.state c.pkt.ps.ctr c.pkt.ps.ver).bits
    .go { c with run := { c.run with key := key, hits := [] } }

/-- TCAM.MATCH of row `i` (40_match.md R143): a matching row joins the set of matches. -/
def execTcamMatch (i : BitVec 8) (v m : TcamRow) (s : State) : Host.Outcome State Fault Refusal :=
  onParse s fun c =>
    if ternary c.run.key v.bits m.bits then .go { c with run := { c.run with hits := c.run.hits ++ [i] } }
    else .go c

/-- TCAM.SELECT (40_match.md R145): on no match `IDX` keeps its value. -/
def execTcamSelect (s : State) : Host.Outcome State Fault Refusal :=
  onParse s fun c =>
    match c.run.hits with
    | [] => raise (c.setPs { c.pkt.ps with hit := 0 }) .noMatch
    | h :: hs => .go (c.setPs { c.pkt.ps with hit := 1, idx := pickRow c.params.tieBreak h hs })

end Sys2Proof.Machine
end

