-- ==== Sys2Proof/Machine/Launch.lean ====
section
/-! DEFINITION. Which launches are refused for their configuration: one whose parse can read a word the host
never wrote (10_state.md R24, 70_reset_and_hazards.md R342), and one whose configuration holds a reserved
`shift_amt` in a row that can be matched (30_encoding.md R127). -/

namespace Sys2Proof.Machine

/-- Some search key of a parse under version `ver` matches the row: the window and the state may be anything,
so a key with the row's own values there will do; the counter is zero, negative or neither
(40_match.md R142, R143; log 8). -/
def rowCanMatch (v m : W64) (ver : BitVec 1) : Bool :=
  let r := decTcam v
  [0x00#8, 0x01#8, 0x80#8].any fun ctr =>
    ternary (searchKey ⟨r.lookup16, r.lookup8_0, r.lookup8_1⟩ r.currState ctr ver).bits r.bits
      (decTcam m).bits

/-- Entry `i` can match under version `ver`. -/
def InstCfg.canMatch (c : InstCfg) (ver : BitVec 1) (i : Nat) : Bool :=
  match c.tcam.get i with
  | none => false
  | some (v, m) => rowCanMatch v m ver

/-- The ChecksumCtrlRows that a control word names are written (70_reset_and_hazards.md R342 (c)). -/
def InstCfg.csumWritten (c : InstCfg) (w : W64) : Bool :=
  let r := decActCtl w
  (r.csumEn0 != 1#1 || (c.csumRow0.get r.csumAddr0.toNat).isSome) &&
    (r.csumEn1 != 1#1 || (c.csumRow1.get r.csumAddr1.toNat).isSome)

/-- `EA[i]`, the seven words of `ACT[i]` and the ChecksumCtrlRows they name are written
(70_reset_and_hazards.md R342 (b), (c)). -/
def InstCfg.entryWritten (c : InstCfg) (i : Nat) : Bool :=
  (c.ea.get i).isSome && ((List.range 7).all fun n => (c.act.get (8 * i + n)).isSome) &&
    match c.act.get (8 * i + 6) with
    | none => false
    | some w => c.csumWritten w

/-- Every TCAM row is written, and so is every entry that can match under version `ver`. -/
def InstCfg.rowsWritten (c : InstCfg) (ver : BitVec 1) : Bool :=
  (List.range Config.nRows).all fun i => (c.tcam.get i).isSome && (!c.canMatch ver i || c.entryWritten i)

/-- A parse under version `ver` can read no word the host never wrote (70_reset_and_hazards.md R342): the
control registers are written, and the rows too unless `MAX_ITER` lets no iteration begin (log 8). -/
def InstCfg.written (c : InstCfg) (ver : BitVec 1) : Bool :=
  c.startWritten && c.offWritten && c.iterWritten && (c.maxIter == 0 || c.rowsWritten ver)

/-- No row that can be matched holds a reserved `shift_amt` (30_encoding.md R127). -/
def InstCfg.shiftsDefined (c : InstCfg) : Bool :=
  c.ea.all fun e =>
    !(c.canMatch 0 e.1 || c.canMatch 1 e.1) || decide ((decEa e.2).shiftAmt.toNat ≤ Config.wBytes)

end Sys2Proof.Machine
end

