-- ==== Sys2Proof/Machine/Pipeline.lean ====
section
/-! DEFINITION. PARSE, its loop head, and the EaRow micro-operations (41_pipeline_ea.md). -/

namespace Sys2Proof.Machine

/-- The parse registers at parse start (10_state.md R60). -/
def ParseRegs.start (c : InstCfg) (ver : BitVec 1) : ParseRegs :=
  { ParseRegs.cleared with
    ver := ver, state := c.startState, off16 := c.defOff16, off8_0 := c.defOff8_0, off8_1 := c.defOff8_1 }

/-- The packet at parse start, owned by instance `k` (10_state.md R60, 41_pipeline_ea.md R160). -/
def Packet.start (p : Packet) (k : Nat) (i : Instance) : Packet :=
  { p with
    owner := .inst k, outcome := .none, cause := .noError, ps := .start i.cfg (p.view i.dir).version }

/-- A parse of packet `p` that stands at the loop head. -/
def Run.start (p : Nat) : Run :=
  { pkt := p, phase := .head, cur0 := 0, key := 0, hits := [], doffEff := 0, csumAddr := 0, sumIn := 0 }

/-- Parse start on instance `k`, whose record is `i`, of packet `p`, whose record is `q`: the snapshot is
taken and ownership passes (41_pipeline_ea.md R160, R161; 10_state.md R42). -/
def State.launch (s : State) (k : Nat) (i : Instance) (p : Nat) (q : Packet) : State :=
  { s with
    insts := s.insts.set k { i with snap := i.cfg, run := some (Run.start p) }
    packets := s.packets.set p (q.start k i) }

/-- PARSE (41_pipeline_ea.md R160): no step on an absent or busy instance or a packet the host does not
own; refused with a null or a shared PHV handle, with a configuration not written (10_state.md R24) or with
a reserved shift that can be matched (30_encoding.md R127); else parse start. The loop is run by the
instance's own steps. -/
def execParse (p k : Nat) (s : State) : Host.Outcome State Fault Refusal :=
  match s.insts[k]? with
  | none => .fault .noSuchInstance
  | some i =>
    match i.run with
    | some _ => .fault .instanceBusy
    | none =>
      match s.hostPacket p with
      | none => .fault .notOwned
      | some q =>
        match (q.view i.dir).phv with
        | none => .refused .nullPhv
        | some h =>
          if s.phvInUse h then .refused .sharedPhv
          else if i.cfg.written (q.view i.dir).version = false then .refused .configUnwritten
          else if i.cfg.shiftsDefined = false then .refused .reservedShiftAmt
          else .next (s.launch k i p q)

/-- The loop head of PARSE (41_pipeline_ea.md R160, R162): the budget check, then the iteration begins
and `cur0` is the cursor on entry to it. -/
def loopHead (s : State) : Host.Outcome State Fault Refusal :=
  onParse s fun c =>
    if c.pkt.ps.iter.toNat ≥ c.snap.maxIter.toNat then raise c .loopBudgetExceeded
    else
      let c := c.setPs { c.pkt.ps with iter := c.pkt.ps.iter + 1 }
      .go { c with run := { c.run with cur0 := c.pkt.ps.cur } }

/-- EA.CTR.ADD (41_pipeline_ea.md R164): step the counter, or hold it, by `CTR_NOLOAD_MODE`. -/
def execEaCtrAdd (amt : BitVec 8) (s : State) : Host.Outcome State Fault Refusal :=
  onParse s fun c =>
    match c.params.ctrNoload with
    | .add => .go (c.setPs { c.pkt.ps with ctr := c.pkt.ps.ctr + amt })
    | .hold => .go c

/-- EA.CTR.LDI (41_pipeline_ea.md R165). -/
def execEaCtrLdi (amt : BitVec 8) (s : State) : Host.Outcome State Fault Refusal :=
  onParse s fun c => .go (c.setPs { c.pkt.ps with ctr := amt })

/-- EA.CTR.LDS (41_pipeline_ea.md R166): the reload value is the free function `CtrSrc1` (log 11). -/
def execEaCtrLds (idx : BitVec 8) (s : State) : Host.Outcome State Fault Refusal :=
  onParse s fun c => .go (c.setPs { c.pkt.ps with ctr := Config.ctrSrc1 idx c.pkt.ps.win.bits })

/-- EA.SHIFT (41_pipeline_ea.md R167): 33 to 63 are reserved (30_encoding.md R127), and PARSE launches no
configuration that can come to one; the bound is checked
before any write of step (3), which is why this operation is the first of the step (log 2). -/
def execEaShift (amt : BitVec 6) (s : State) : Host.Outcome State Fault Refusal :=
  onParse s fun c =>
    if amt.toNat > Config.wBytes then .refuse .reservedShiftAmt
    else if amt.toNat > c.avail then raise c .outOfBoundsRead
    else .go (c.setPs { c.pkt.ps with cur := c.run.cur0 + amt.zeroExtend 16 })

/-- The next-state merge under `STATE_MERGE`, with `w` the byte `STATE_WIN_SRC` names (41_pipeline_ea.md R168). -/
def mergeState (p : Config.Params) (st mask : BitVec 8) (win : Window) : BitVec 8 :=
  let w := win.byte p.stateWinSrc
  match p.stateMerge with
  | .select => (st &&& ~~~mask) ||| (w &&& mask)
  | .or => st ||| (w &&& mask)

/-- EA.NXT (41_pipeline_ea.md R168). -/
def execEaNxt (st mask : BitVec 8) (s : State) : Host.Outcome State Fault Refusal :=
  onParse s fun c => .go (c.setPs { c.pkt.ps with nxt := mergeState c.params st mask c.pkt.ps.win })

/-- EA.ARM16 (41_pipeline_ea.md R169). -/
def execEaArm16 (off : BitVec 6) (s : State) : Host.Outcome State Fault Refusal :=
  onParse s fun c => .go (c.setPs { c.pkt.ps with off16 := off })

/-- EA.ARM8_0 (41_pipeline_ea.md R169). -/
def execEaArm8_0 (off : BitVec 6) (s : State) : Host.Outcome State Fault Refusal :=
  onParse s fun c => .go (c.setPs { c.pkt.ps with off8_0 := off })

/-- EA.ARM8_1 (41_pipeline_ea.md R169). -/
def execEaArm8_1 (off : BitVec 6) (s : State) : Host.Outcome State Fault Refusal :=
  onParse s fun c => .go (c.setPs { c.pkt.ps with off8_1 := off })

/-- EA.BUFREQ (41_pipeline_ea.md R171). -/
def execEaBufreq (n : BitVec 6) (s : State) : Host.Outcome State Fault Refusal :=
  onParse s fun c => .go (c.setPs { c.pkt.ps with bufreq := n })

/-- EA.DONE, step (7) (41_pipeline_ea.md R172): finish, or take the next state. -/
def execEaDone (done : BitVec 1) (s : State) : Host.Outcome State Fault Refusal :=
  onParse s fun c =>
    if done = 1#1 then finish c else .go (c.setPs { c.pkt.ps with state := c.pkt.ps.nxt })

end Sys2Proof.Machine
end

