-- ==== Sys2Proof/Machine/Extract.lean ====
section
/-! DEFINITION. The header field extractor (42_extract.md): ACT.DOFF, the twelve lanes, and the dispatch
of the checksum engines. -/

namespace Sys2Proof.Machine

/-- ACT.DOFF (42_extract.md R201): the lanes of this row use `DOFF_eff`, the next row sees the sum. -/
def execActDoff (rst : BitVec 1) (inc : BitVec 8) (s : State) : Host.Outcome State Fault Refusal :=
  onParse s fun c =>
    let eff := if rst = 1#1 then 0#8 else c.pkt.ps.doff
    let c := c.setPs { c.pkt.ps with doff := eff + inc }
    .go { c with run := { c.run with doffEff := eff } }

/-- A lane of `n` bytes (42_extract.md R203, R204, R205): the source is checked before the write; `val`
reads the bytes at a window offset. -/
def extract (n : Nat) (val : Ctx → Nat → PhvVal) (l : Lane) (c : Ctx) : Effect :=
  let o := srcEff l c.run.doffEff
  if o + n > c.avail then raise c .outOfBoundsRead
  else match (c.pkt.view c.dir).phv with
    | none => .refuse .nullPhv
    | some h => .go { c with phvs := phvWrite c.phvs h (dstEff l c.run.doffEff) (val c o) }

/-- A 32-bit lane (42_extract.md R205). -/
def extract32 : Lane → Ctx → Effect := extract 4 fun c o => .w32 (c.read32 o)

/-- A 16-bit lane (42_extract.md R206). -/
def extract16 : Lane → Ctx → Effect := extract 2 fun c o => .w16 (c.read16 o)

/-- An 8-bit lane (42_extract.md R207). -/
def extract8 : Lane → Ctx → Effect := extract 1 fun c o => .w8 (c.byteAt o)

/-- ACT.EX32.0 (42_extract.md R205). -/
def execActEx32_0 (l : Lane) (s : State) : Host.Outcome State Fault Refusal := onParse s (extract32 l)
/-- ACT.EX32.1. -/
def execActEx32_1 (l : Lane) (s : State) : Host.Outcome State Fault Refusal := onParse s (extract32 l)
/-- ACT.EX32.2. -/
def execActEx32_2 (l : Lane) (s : State) : Host.Outcome State Fault Refusal := onParse s (extract32 l)
/-- ACT.EX32.3. -/
def execActEx32_3 (l : Lane) (s : State) : Host.Outcome State Fault Refusal := onParse s (extract32 l)
/-- ACT.EX16.0 (42_extract.md R206). -/
def execActEx16_0 (l : Lane) (s : State) : Host.Outcome State Fault Refusal := onParse s (extract16 l)
/-- ACT.EX16.1. -/
def execActEx16_1 (l : Lane) (s : State) : Host.Outcome State Fault Refusal := onParse s (extract16 l)
/-- ACT.EX16.2. -/
def execActEx16_2 (l : Lane) (s : State) : Host.Outcome State Fault Refusal := onParse s (extract16 l)
/-- ACT.EX16.3. -/
def execActEx16_3 (l : Lane) (s : State) : Host.Outcome State Fault Refusal := onParse s (extract16 l)
/-- ACT.EX8.0 (42_extract.md R207). -/
def execActEx8_0 (l : Lane) (s : State) : Host.Outcome State Fault Refusal := onParse s (extract8 l)
/-- ACT.EX8.1. -/
def execActEx8_1 (l : Lane) (s : State) : Host.Outcome State Fault Refusal := onParse s (extract8 l)
/-- ACT.EX8.2. -/
def execActEx8_2 (l : Lane) (s : State) : Host.Outcome State Fault Refusal := onParse s (extract8 l)
/-- ACT.EX8.3. -/
def execActEx8_3 (l : Lane) (s : State) : Host.Outcome State Fault Refusal := onParse s (extract8 l)

/-- The invocation of engine `e` with row `addr`: its running sum becomes `sum_in` (42_extract.md R210). -/
def invoke (e : Eng) (addr : BitVec 5) (c : Ctx) : Effect :=
  .go { c with run := { c.run with csumAddr := addr, sumIn := (c.pkt.ps.csum e).sum } }

/-- ACT.CSUM0 (42_extract.md R210). -/
def execActCsum0 (addr : BitVec 5) (s : State) : Host.Outcome State Fault Refusal :=
  onParse s (invoke .e0 addr)

/-- ACT.CSUM1 (42_extract.md R210). -/
def execActCsum1 (addr : BitVec 5) (s : State) : Host.Outcome State Fault Refusal :=
  onParse s (invoke .e1 addr)

end Sys2Proof.Machine
end

