-- ==== Sys2Proof/Machine/Checksum.lean ====
section
/-! DEFINITION. The ones'-complement checksum accumulator (43_checksum.md): CSUM.START, CSUM.ACC, CSUM.ZAO,
CSUM.END, in this order within one invocation (log 3). -/

namespace Sys2Proof.Machine

/-- Every set mask bit names a byte of the byte window (43_checksum.md R231). -/
def lanesLegal (r : CsumLanes) (avail : Nat) : Bool :=
  (List.range 32).all fun k => !r.mask.getLsbD k || decide (k < avail)

/-- The 16-bit term of window byte `k` (43_checksum.md R231): lane position `p`, halfword position `j`,
the high byte at even positions unless swapped. -/
def laneTerm (r : CsumLanes) (k : Nat) (b : Byte) : BitVec 16 :=
  let p := k + r.shr.toNat
  let j := p / 2
  let hi := xor (p % 2 == 0) (r.swap.getLsbD j)
  if hi then b ++ 0#8 else 0#8 ++ b

/-- `sum_out` before the end of the accumulation: `add`, then every selected byte in increasing order. -/
def accumulate (r : CsumLanes) (byte : Nat → Byte) (sumIn : BitVec 16) : BitVec 16 :=
  (List.range 32).foldl
    (fun s k => if r.mask.getLsbD k then onesAdd s (laneTerm r k (byte k)) else s) (onesAdd sumIn r.add)

/-- Write the running sum of engine `e`. -/
def Ctx.setSum (c : Ctx) (e : Eng) (v : BitVec 16) : Ctx :=
  c.setPs (c.pkt.ps.setCsum e { c.pkt.ps.csum e with sum := v })

/-- CSUM.START (43_checksum.md R232): the accumulation begins from zero; `CSUM[e]` itself is not touched
before the bound check of CSUM.ACC. -/
def execCsumStart (_e : Eng) (s : State) : Host.Outcome State Fault Refusal :=
  onParse s fun c => .go { c with run := { c.run with sumIn := 0 } }

/-- CSUM.ACC (43_checksum.md R231): the bound check, then the sum. -/
def execCsumAcc (e : Eng) (r : CsumLanes) (s : State) : Host.Outcome State Fault Refusal :=
  onParse s fun c =>
    if lanesLegal r c.avail then .go (c.setSum e (accumulate r c.byteAt c.run.sumIn))
    else raise c .outOfBoundsRead

/-- CSUM.ZAO (43_checksum.md R234): a zero sum becomes all-ones, whatever the position; the position is
carried beside the result. -/
def execCsumZao (e : Eng) (pos : BitVec 5) (s : State) : Host.Outcome State Fault Refusal :=
  onParse s fun c =>
    let g := c.pkt.ps.csum e
    let v := if g.sum = 0#16 then 0xFFFF#16 else g.sum
    .go (c.setPs (c.pkt.ps.setCsum e { g with sum := v, pos := pos }))

/-- CSUM.END (43_checksum.md R233): the result latch. -/
def execCsumEnd (e : Eng) (pos : BitVec 5) (s : State) : Host.Outcome State Fault Refusal :=
  onParse s fun c =>
    let g := c.pkt.ps.csum e
    .go (c.setPs (c.pkt.ps.setCsum e { g with final := g.sum, valid := 1, pos := pos }))

end Sys2Proof.Machine
end

