-- ==== Sys2Proof/Machine/Priority.lean ====
section
/-! DEFINITION. The priority-update program (44_priority.md): ACT.PRI.IMM, ACT.PRI.FLD. -/

namespace Sys2Proof.Machine

/-- Write `P.priority`. -/
def Ctx.setPriority (c : Ctx) (v : BitVec 3) : Ctx := { c with pkt := { c.pkt with priority := v } }

/-- ACT.PRI.IMM (44_priority.md R251). -/
def execActPriImm (v : BitVec 3) (s : State) : Host.Outcome State Fault Refusal :=
  onParse s fun c => .go (c.setPriority v)

/-- The value of a field program: shift, then the low three bits, then the mask (44_priority.md R252). -/
def priField (win : Window) (src : BitVec 2) (shr mask : BitVec 3) : BitVec 3 :=
  (win.byte (priSrc src) >>> shr.toNat).extractLsb' 0 3 &&& mask

/-- ACT.PRI.FLD (44_priority.md R252). -/
def execActPriFld (src : BitVec 2) (shr mask : BitVec 3) (s : State) : Host.Outcome State Fault Refusal :=
  onParse s fun c => .go (c.setPriority (priField c.pkt.ps.win src shr mask))

end Sys2Proof.Machine
end

