-- ==== Sys2Proof/Machine/PacketCmds.lean ====
section
/-! DEFINITION. The packet-state container's commands (45_packet.md) and CFG.WR (20_memory.md R78). -/

namespace Sys2Proof.Machine

/-- The packet after PKT.RESET (45_packet.md R267); `n` is `N_QCTR`. Kept: owner, bytes, id,
recirculation count, signature. -/
def Packet.resetFields (p : Packet) (n : Nat) : Packet :=
  { p with
    ing := .cleared, egr := .cleared, activeView := .ing, teop := none, priority := 0,
    outcome := .none, cause := .noError, q := .cleared n, ps := .cleared }

/-- A new packet of the host with every field at its reset value (45_packet.md R260). -/
def Packet.fresh (bytes : List Byte) (pktId : BitVec 64) (n : Nat) : Packet :=
  { owner := .host, bytes := bytes, pktId := pktId, recircCnt := 0, signature := [],
    ing := .cleared, egr := .cleared, activeView := .ing, teop := none, priority := 0,
    outcome := .none, cause := .noError, q := .cleared n, ps := .cleared }

/-- The id of a clone (45_packet.md R261). -/
def cloneId (kind : CloneKind) (base : BitVec 32) (pipe : BitVec 4) (copy : BitVec 16) : BitVec 64 :=
  match kind with
  | .mc => mcCpy base pipe copy
  | .mirror => mirrCpy base pipe copy
  | .mcC2c => mcC2c base pipe copy

/-- PKT.CREATE (45_packet.md R260). -/
def execPktCreate (bytes : List Byte) (id32 : BitVec 32) (s : State) : Host.Outcome State Fault Refusal :=
  .next (s.addPacket (Packet.fresh bytes (normalId id32) s.params.nQctr))

/-- PKT.CLONE (45_packet.md R261): with `carry` every other field comes along, else none. -/
def execPktClone (src : Nat) (kind : CloneKind) (pipe : BitVec 4) (copy : BitVec 16) (carry : BitVec 1)
    (s : State) : Host.Outcome State Fault Refusal :=
  match s.hostPacket src with
  | none => .fault .notOwned
  | some p =>
    let id := cloneId kind (idBase p.pktId) pipe copy
    .next (s.addPacket
      (if carry = 1#1 then { p with pktId := id } else Packet.fresh p.bytes id s.params.nQctr))

/-- PKT.RESET (45_packet.md R267). -/
def execPktReset (p : Nat) (s : State) : Host.Outcome State Fault Refusal :=
  onPacket s p fun q => q.resetFields s.params.nQctr

/-- PKT.SET_EGRESS (45_packet.md R268). -/
def execPktSetEgress (p : Nat) (s : State) : Host.Outcome State Fault Refusal :=
  onPacket s p fun q => { q with egr := q.ing, activeView := .egr }

/-- PKT.RETIRE (45_packet.md R269): the packet ceases to exist. -/
def execPktRetire (p : Nat) (s : State) : Host.Outcome State Fault Refusal :=
  match s.hostPacket p with
  | none => .fault .notOwned
  | some _ => .next { s with packets := s.packets.erase p }

/-- Write a numeric field, truncated to its width (45_packet.md R270). -/
def Packet.setNum (p : Packet) (f : NumField) (v : W64) : Packet :=
  match f with
  | .version d => p.setView d { p.view d with version := low 1 v }
  | .metadataAdded d => p.setView d { p.view d with metadataAdded := low 1 v }
  | .origHdrLen d => p.setView d { p.view d with origHdrLen := low 16 v }
  | .parsableHdrLen d => p.setView d { p.view d with parsableHdrLen := low 16 v }
  | .l1Cnt => { p with q := { p.q with l1Cnt := low 16 v } }
  | .l2Cnt => { p with q := { p.q with l2Cnt := low 16 v } }
  | .mcGrpId => { p with q := { p.q with mcGrpId := low 16 v } }
  | .copyCtr k => { p with q := { p.q with copyCtr := p.q.copyCtr.set k (low 16 v) } }
  | .recircCnt => { p with recircCnt := low 8 v }
  | .priority => { p with priority := low 3 v }

/-- Write a handle field (45_packet.md R270). -/
def Packet.setHandle (p : Packet) (f : HandleField) (h : Handle) : Packet :=
  match f with
  | .phv d => p.setView d { p.view d with phv := h }
  | .port d => p.setView d { p.view d with port := h }
  | .clot d => p.setView d { p.view d with clot := h }
  | .teop => { p with teop := h }

/-- Write a byte-string field; the length goes with the bytes (45_packet.md R270). -/
def Packet.setBytes (p : Packet) (f : BytesField) (v : List Byte) : Packet :=
  match f with
  | .signature => { p with signature := v }
  | .bytes => { p with bytes := v }

/-- Write one field (45_packet.md R270). -/
def Packet.write (p : Packet) : FieldWrite → Packet
  | .num f v => p.setNum f v
  | .handle f h => p.setHandle f h
  | .bytes f v => p.setBytes f v

/-- Whether the field exists: a per-copy counter has an index below `N_QCTR` (10_state.md R55, log 23). -/
def fieldExists (n : Nat) : FieldWrite → Bool
  | .num (.copyCtr k) _ => decide (k < n)
  | .num _ _ | .handle _ _ | .bytes _ _ => true

/-- PKT.WR (45_packet.md R270). -/
def execPktWr (p : Nat) (w : FieldWrite) (s : State) : Host.Outcome State Fault Refusal :=
  if fieldExists s.params.nQctr w then onPacket s p fun q => q.write w else .fault .noSuchField

/-- PKT.ID (45_packet.md R262). -/
def execPktId (p : Nat) (id32 : BitVec 32) (s : State) : Host.Outcome State Fault Refusal :=
  onPacket s p fun q => { q with pktId := setBase q.pktId id32 }

/-- PKT.TYPE (45_packet.md R263): any 4-bit value is stored. -/
def execPktType (p : Nat) (t4 : BitVec 4) (s : State) : Host.Outcome State Fault Refusal :=
  onPacket s p fun q => { q with pktId := setType q.pktId t4 }

/-- PKT.ID_MC_CPY (45_packet.md R264): the old id is not read. -/
def execPktIdMcCpy (p : Nat) (id32 : BitVec 32) (pipe : BitVec 4) (copy : BitVec 16) (s : State) :
    Host.Outcome State Fault Refusal :=
  onPacket s p fun q => { q with pktId := mcCpy id32 pipe copy }

/-- PKT.ID_MIRR_CPY (45_packet.md R265). -/
def execPktIdMirrCpy (p : Nat) (id32 : BitVec 32) (pipe : BitVec 4) (copy : BitVec 16) (s : State) :
    Host.Outcome State Fault Refusal :=
  onPacket s p fun q => { q with pktId := mirrCpy id32 pipe copy }

/-- PKT.ID_MC_C2C (45_packet.md R266). -/
def execPktIdMcC2c (p : Nat) (id32 : BitVec 32) (pipe : BitVec 4) (copy : BitVec 16) (s : State) :
    Host.Outcome State Fault Refusal :=
  onPacket s p fun q => { q with pktId := mcC2c id32 pipe copy }

/-- CFG.WR (20_memory.md R78): at any time, also while the instance parses (10_state.md R41); only the
live configuration changes, never the snapshot. -/
def execCfgWr (k : Nat) (mem : CfgMem) (i : Nat) (w0 w1 : W64) (s : State) :
    Host.Outcome State Fault Refusal :=
  match s.insts[k]? with
  | none => .fault .noSuchInstance
  | some inst => match cfgWrite inst.cfg mem i w0 w1 with
    | none => .refused .badConfigIndex
    | some cfg => .next { s with insts := s.insts.set k { inst with cfg := cfg } }

end Sys2Proof.Machine
end

