-- ==== Sys2Proof/Machine/Dispatch.lean ====
section
/-! DEFINITION. One arm per constructor of Instr, each a direct call of its meaning. -/

namespace Sys2Proof.Machine

def exec (i : Instr) (s : State) : Host.Outcome State Fault Refusal :=
  match i with
  | .winSample => Sys2Proof.Machine.execWinSample s
  | .tcamKey => Sys2Proof.Machine.execTcamKey s
  | .tcamMatch row v m => Sys2Proof.Machine.execTcamMatch row v m s
  | .tcamSelect => Sys2Proof.Machine.execTcamSelect s
  | .parse p k => Sys2Proof.Machine.execParse p k s
  | .eaCtrAdd amt => Sys2Proof.Machine.execEaCtrAdd amt s
  | .eaCtrLdi amt => Sys2Proof.Machine.execEaCtrLdi amt s
  | .eaCtrLds idx => Sys2Proof.Machine.execEaCtrLds idx s
  | .eaShift amt => Sys2Proof.Machine.execEaShift amt s
  | .eaNxt st mask => Sys2Proof.Machine.execEaNxt st mask s
  | .eaArm16 off => Sys2Proof.Machine.execEaArm16 off s
  | .eaArm8_0 off => Sys2Proof.Machine.execEaArm8_0 off s
  | .eaArm8_1 off => Sys2Proof.Machine.execEaArm8_1 off s
  | .eaBufreq n => Sys2Proof.Machine.execEaBufreq n s
  | .eaDone done => Sys2Proof.Machine.execEaDone done s
  | .actDoff rst inc => Sys2Proof.Machine.execActDoff rst inc s
  | .actEx32_0 l => Sys2Proof.Machine.execActEx32_0 l s
  | .actEx32_1 l => Sys2Proof.Machine.execActEx32_1 l s
  | .actEx32_2 l => Sys2Proof.Machine.execActEx32_2 l s
  | .actEx32_3 l => Sys2Proof.Machine.execActEx32_3 l s
  | .actEx16_0 l => Sys2Proof.Machine.execActEx16_0 l s
  | .actEx16_1 l => Sys2Proof.Machine.execActEx16_1 l s
  | .actEx16_2 l => Sys2Proof.Machine.execActEx16_2 l s
  | .actEx16_3 l => Sys2Proof.Machine.execActEx16_3 l s
  | .actEx8_0 l => Sys2Proof.Machine.execActEx8_0 l s
  | .actEx8_1 l => Sys2Proof.Machine.execActEx8_1 l s
  | .actEx8_2 l => Sys2Proof.Machine.execActEx8_2 l s
  | .actEx8_3 l => Sys2Proof.Machine.execActEx8_3 l s
  | .actCsum0 addr => Sys2Proof.Machine.execActCsum0 addr s
  | .actCsum1 addr => Sys2Proof.Machine.execActCsum1 addr s
  | .csumAcc e r => Sys2Proof.Machine.execCsumAcc e r s
  | .csumStart e => Sys2Proof.Machine.execCsumStart e s
  | .csumEnd e pos => Sys2Proof.Machine.execCsumEnd e pos s
  | .csumZao e pos => Sys2Proof.Machine.execCsumZao e pos s
  | .actPriImm v => Sys2Proof.Machine.execActPriImm v s
  | .actPriFld src shr mask => Sys2Proof.Machine.execActPriFld src shr mask s
  | .pktCreate bytes id32 => Sys2Proof.Machine.execPktCreate bytes id32 s
  | .pktClone src kind pipe copy carry => Sys2Proof.Machine.execPktClone src kind pipe copy carry s
  | .pktReset p => Sys2Proof.Machine.execPktReset p s
  | .pktSetEgress p => Sys2Proof.Machine.execPktSetEgress p s
  | .pktRetire p => Sys2Proof.Machine.execPktRetire p s
  | .pktWr p w => Sys2Proof.Machine.execPktWr p w s
  | .pktId p id32 => Sys2Proof.Machine.execPktId p id32 s
  | .pktType p t4 => Sys2Proof.Machine.execPktType p t4 s
  | .pktIdMcCpy p id32 pipe copy => Sys2Proof.Machine.execPktIdMcCpy p id32 pipe copy s
  | .pktIdMirrCpy p id32 pipe copy => Sys2Proof.Machine.execPktIdMirrCpy p id32 pipe copy s
  | .pktIdMcC2c p id32 pipe copy => Sys2Proof.Machine.execPktIdMcC2c p id32 pipe copy s
  | .cfgWr k mem n w0 w1 => Sys2Proof.Machine.execCfgWr k mem n w0 w1 s

end Sys2Proof.Machine
end

