-- ==== Sys2Proof/Machine/Fetch.lean ====
section
/-! DEFINITION. The order of an iteration (41_pipeline_ea.md R163), the words at each of its places
(20_memory.md R77), how a turn ends, and how an opcode-table number is laid before the machine. -/

namespace Sys2Proof.Machine

/-- The lane after lane `k`, or the place after the last lane. -/
def laneNext (mk : Fin 4 → Slot) (k : Fin 4) (last : Slot) : Slot :=
  match k with
  | 0 => mk 1
  | 1 => mk 2
  | 2 => mk 3
  | 3 => last

/-- The place after engine `e` is done with (42_extract.md R210: engine 0, then engine 1). -/
def afterEngine : Eng → Slot
  | .e0 => .actCsum .e1
  | .e1 => .actPri

/-- What follows a place of the iteration (41_pipeline_ea.md R163; inside a step: 42_extract.md R202,
R210, 43_checksum.md R231). After step (7) comes the loop head. -/
def slotNext : Slot → Phase
  | .winSample => .slot .tcamKey
  | .tcamKey => .slot (.tcamMatch 0)
  | .tcamMatch i => .slot (if i = 255#8 then .tcamSelect else .tcamMatch (i + 1))
  | .tcamSelect => .slot .eaShift
  | .eaShift => .slot .eaCtr
  | .eaCtr => .slot .eaArm16
  | .eaArm16 => .slot .eaArm8_0
  | .eaArm8_0 => .slot .eaArm8_1
  | .eaArm8_1 => .slot .eaNxt
  | .eaNxt => .slot .eaBufreq
  | .eaBufreq => .slot .actDoff
  | .actDoff => .slot (.ex32 0)
  | .ex32 k => .slot (laneNext .ex32 k (.ex16 0))
  | .ex16 k => .slot (laneNext .ex16 k (.ex8 0))
  | .ex8 k => .slot (laneNext .ex8 k (.actCsum .e0))
  | .actCsum e => .slot (.csumStart e)
  | .csumStart e => .slot (.csumAcc e)
  | .csumAcc e => .slot (.csumZao e)
  | .csumZao e => .slot (.csumEnd e)
  | .csumEnd e => .slot (afterEngine e)
  | .actPri => .slot .eaDone
  | .eaDone => .head

/-- Where the parse goes on when a place selects no micro-operation: the next place, past the whole
engine when the engine is not invoked. -/
def slotSkip : Slot → Phase
  | .actCsum e => .slot (afterEngine e)
  | sl => slotNext sl

/-- What follows a phase. -/
def Phase.next : Phase → Phase
  | .head => .slot .winSample
  | .slot sl => slotNext sl

/-- Word `n` of ActionRow `i` (10_state.md R22). -/
def InstCfg.actWord (c : InstCfg) (i : BitVec 8) (n : Nat) : Option W64 := c.act.get (8 * i.toNat + n)

/-- The word of lane `k` of a group whose first word is `Wn` (30_encoding.md R106). -/
def InstCfg.laneWord (c : InstCfg) (i : BitVec 8) (n : Nat) (k : Fin 4) : Option W64 :=
  c.actWord i (n + k.val / 2)

/-- A stored word as a list. -/
def asList (w : Option W64) : Option (List W64) := w.map fun w => [w]

/-- A stored pair of words as a list. -/
def asPair (w : Option (W64 × W64)) : Option (List W64) := w.map fun w => [w.1, w.2]

/-- `RowRead` from the snapshot: the words at a place of the iteration, for the matched row `idx` and the
checksum row `addr` (20_memory.md R77); nothing if the host never wrote them. -/
def slotWords (c : InstCfg) (idx : BitVec 8) (addr : BitVec 5) : Slot → Option (List W64)
  | .winSample | .tcamKey | .tcamSelect => some []
  | .tcamMatch i => asPair (c.tcam.get i.toNat)
  | .eaShift | .eaCtr | .eaArm16 | .eaArm8_0 | .eaArm8_1 | .eaNxt | .eaBufreq | .eaDone =>
    asList (c.ea.get idx.toNat)
  | .actDoff | .actCsum _ | .actPri => asList (c.actWord idx 6)
  | .ex32 k => asList (c.laneWord idx 0 k)
  | .ex16 k => asList (c.laneWord idx 2 k)
  | .ex8 k => asList (c.laneWord idx 4 k)
  | .csumStart e | .csumAcc e | .csumZao e | .csumEnd e => asPair ((c.csumRow e).get addr.toNat)

/-- Move the parse of instance `k`, if it is still in progress, to the phase `f` gives. -/
def State.movePhase (s : State) (k : Nat) (f : Phase → Phase) : State :=
  { s with
    insts := s.insts.modify k fun i =>
      { i with run := i.run.map fun r => { r with phase := f r.phase } } }

/-- Where a skipped place leads. -/
def Phase.skip : Phase → Phase
  | .head => Phase.head.next
  | .slot sl => slotSkip sl

/-- Go on from a next state. -/
def andThen (o : Host.Outcome State Fault Refusal) (f : State → State) : Host.Outcome State Fault Refusal :=
  match o with
  | .next t => .next (f t)
  | .fault r => .fault r
  | .refused r => .refused r

/-- The bookkeeping after an instance's step: the parse moves on, the turn is over. -/
def afterInst (k : Nat) (t : State) : State := (t.movePhase k Phase.next).endTurn

/-- The bookkeeping after a host command: its message is taken, the turn is over. -/
def afterCmd (t : State) : State := t.popCmd.endTurn

/-! ### Laying an opcode-table number before the machine (log 19) -/

/-- A snapshot in which the word or words at a place, for row 0 and checksum row 0, are `ws`. -/
def InstCfg.withSlotWords (c : InstCfg) (sl : Slot) (ws : List W64) : InstCfg :=
  let w0 := ws.getD 0 0
  let w1 := ws.getD 1 0
  match sl with
  | .winSample | .tcamKey | .tcamSelect => c
  | .tcamMatch i => { c with tcam := c.tcam.set i.toNat (w0, w1) }
  | .eaShift | .eaCtr | .eaArm16 | .eaArm8_0 | .eaArm8_1 | .eaNxt | .eaBufreq | .eaDone =>
    { c with ea := c.ea.set 0 w0 }
  | .actDoff | .actCsum _ | .actPri => { c with act := c.act.set 6 w0 }
  | .ex32 k => { c with act := c.act.set (0 + k.val / 2) w0 }
  | .ex16 k => { c with act := c.act.set (2 + k.val / 2) w0 }
  | .ex8 k => { c with act := c.act.set (4 + k.val / 2) w0 }
  | .csumStart e | .csumAcc e | .csumZao e | .csumEnd e =>
    match e with
    | .e0 => { c with csumRow0 := c.csumRow0.set 0 (w0, w1) }
    | .e1 => { c with csumRow1 := c.csumRow1.set 0 (w0, w1) }

/-- A packet of 32 zero bytes with PHV 1 in both views. -/
def Packet.probe (owner : Agent) (n : Nat) : Packet :=
  let v : View := { View.cleared with phv := some 1 }
  { Packet.fresh (List.replicate 32 0) 0 n with owner := owner, ing := v, egr := v }

/-- Instance 0 in the midst of a parse, about to fetch `ws` at a place. -/
def State.withSlot (s : State) (sl : Slot) (ws : List W64) : State :=
  match s.insts with
  | [] => s
  | i :: rest =>
    { s.addPacket (.probe (.inst 0) s.params.nQctr) with
      insts :=
        { i with
          snap := i.snap.withSlotWords sl ws
          run := some { Run.start s.nextPkt with phase := .slot sl } } :: rest
      turns := .inst 0 :: s.turns }

/-- The state in which the host has written every control register, `MAX_ITER` with 0, so that PARSE asks for
no row. -/
def State.withLaunchable (s : State) : State :=
  { s with
    insts := s.insts.map fun i =>
      { i with cfg := { i.cfg with maxIter := 0, startWritten := true, offWritten := true, iterWritten := true } } }

/-- The host about to take the message `ws`. An operand word of zeros names packet 0: if no packet of that
name exists, one does now. PARSE, whose code is 0, also takes control registers the host has written. -/
def State.withCmd (s : State) (ws : List W64) : State :=
  let s := if ws.getD 0 1 = 0 then s.withLaunchable else s
  let s := match s.packets.get 0 with
    | some _ => s
    | none =>
      { s with
        packets := s.packets.set 0 (.probe .host s.params.nQctr), nextPkt := max s.nextPkt 1 }
  { s with cmds := ws :: s.cmds, turns := .host :: s.turns }

end Sys2Proof.Machine
end

