-- ==== Sys2Proof/Machine/Step.lean ====
section
/-! DEFINITION. One step of the machine, for the agent on turn (logs 1 and 4). -/

namespace Sys2Proof.Machine

/-- The host's step: it takes its oldest message, or it is idle. -/
def hostStep (s : State) : Host.Outcome State Fault Refusal :=
  match s.cmds with
  | [] => .next s.endTurn
  | m :: _ =>
    match decode .port m with
    | .error e => .fault (.badCommand e)
    | .ok i => andThen (exec i s) afterCmd

/-- The step of instance `k`, whose parse in progress is `c`, at a place of the iteration. -/
def slotStep (s : State) (k : Nat) (c : Ctx) (sl : Slot) : Host.Outcome State Fault Refusal :=
  match slotWords c.snap c.pkt.ps.idx c.run.csumAddr sl with
  | none => .refused .rowUnwritten
  | some ws =>
    match decode (.micro sl) ws with
    | .error _ => .next (s.movePhase k Phase.skip).endTurn
    | .ok i => andThen (exec i s) (afterInst k)

/-- The step of instance `k`: it is idle, or at the loop head, or at a place of the iteration. -/
def instStep (s : State) (k : Nat) : Host.Outcome State Fault Refusal :=
  match s.ctxOf k with
  | none => .next s.endTurn
  | some c =>
    match c.run.phase with
    | .head => andThen (loopHead s) (afterInst k)
    | .slot sl => slotStep s k c sl

/-- One step. -/
def step (s : State) : Host.Outcome State Fault Refusal :=
  match s.agent with
  | .host => hostStep s
  | .inst k => instStep s k

/-- The state with an opcode-table number laid where the very next step fetches (log 19). -/
def State.withFetchWord (s : State) (nbits w : Nat) : State :=
  let l := tableLoc nbits w
  let ws := tableWords l w
  match l with
  | .port => s.withCmd ws
  | .micro sl => s.withSlot sl ws

end Sys2Proof.Machine
end

