-- ==== Sys2Proof/Machine/Iteration.lean ====
section
/-! DEFINITION. The machine at the spec's own grain: "One iteration is one step of the model"
(70_reset_and_hazards.md R354). It is `step`, the micro-operations of an iteration taken together. -/

namespace Sys2Proof.Machine

/-- Whether instance `k` has a parse in progress that is inside an iteration. -/
def State.midIteration (s : State) (k : Nat) : Bool :=
  match s.ctxOf k with
  | none => false
  | some c => c.run.phase != .head

/-- Instance `k` keeps the turn and steps until its iteration is over, at most `n` times. -/
def restOfIteration (k : Nat) : Nat → State → Host.Outcome State Fault Refusal
  | 0, t => .next t
  | n + 1, t =>
    if t.midIteration k then
      match step { t with turns := .inst k :: t.turns } with
      | .next u => restOfIteration k n u
      | .fault e => .fault e
      | .refused e => .refused e
    else .next t

/-- One step at the spec's grain: a host command, or one whole iteration of the instance on turn, as one
turn. An iteration has 291 places and its loop head. -/
def iterStep (s : State) : Host.Outcome State Fault Refusal :=
  match s.agent with
  | .host => step s
  | .inst k =>
    match step s with
    | .next t => restOfIteration k 291 t
    | .fault e => .fault e
    | .refused e => .refused e

end Sys2Proof.Machine
end

