-- ==== Sys2Proof/Safety.lean ====
section
/-! DEFINITION. The terms claims are stated in: what a step may touch and what it leaves alone, the
invariant of the machine, and the measure of a parse in progress. -/

namespace Sys2Proof.Machine

/-! ### What one step leaves alone -/

/-- All of the state but what instance `k` is doing, packet `pid` and the PHVs is the same in `t` as in
`s`; the direction, configuration and snapshot of instance `k` are the same too. -/
structure SameButParse (s t : State) (k pid : Nat) : Prop where
  params  : t.params = s.params
  nextPkt : t.nextPkt = s.nextPkt
  cmds    : t.cmds = s.cmds
  turns   : t.turns = s.turns
  insts   : ∀ j, j ≠ k → t.insts[j]? = s.insts[j]?
  packets : ∀ q, q ≠ pid → t.packets.get q = s.packets.get q
  static  : (t.insts[k]?).map (fun i => (i.dir, i.cfg, i.snap)) =
              (s.insts[k]?).map fun i => (i.dir, i.cfg, i.snap)

/-- The outcome `o` of a micro-operation on the parse `c` in progress in `s` is a next state in which the
parse goes on with packet `p` and carried values `r`, no PHV container is written, and nothing else
changes. -/
def GoesOn (s : State) (c : Ctx) (o : Host.Outcome State Fault Refusal) (r : Run) (p : Packet) : Prop :=
  ∃ t, o = .next t ∧ SameButParse s t c.k c.pid ∧ t.phvs = s.phvs ∧
    (t.insts[c.k]?).map Instance.run = some (some r) ∧ t.packets.get c.pid = some p

/-- The outcome `o` is a next state in which the parse `c` has ended for cause `why`: the instance is
idle, the packet is `p` with the cause, its outcome tag and the host as owner, no PHV container is
written, and nothing else changes (60_exceptions.md R301, R305). -/
def Ends (s : State) (c : Ctx) (o : Host.Outcome State Fault Refusal) (why : Cause) (p : Packet) : Prop :=
  ∃ t, o = .next t ∧ SameButParse s t c.k c.pid ∧ t.phvs = s.phvs ∧
    (t.insts[c.k]?).map Instance.run = some none ∧
    t.packets.get c.pid = some { p with owner := .host, cause := why, outcome := outcomeOf why }

/-- The outcome `o` is a next state in which container `id` of the PHV behind `h` holds `v`, every other
container holds what it held, the parse goes on with its packet and carried values as they were, and
nothing else changes. -/
def WritesPhv (s : State) (c : Ctx) (o : Host.Outcome State Fault Refusal) (h : Nat) (id : BitVec 8)
    (v : PhvVal) : Prop :=
  ∃ t, o = .next t ∧ SameButParse s t c.k c.pid ∧ phvRead t.phvs h id = some v ∧
    (∀ g d, (g, d) ≠ (h, id) → phvRead t.phvs g d = phvRead s.phvs g d) ∧
    (t.insts[c.k]?).map Instance.run = some (some c.run) ∧ t.packets.get c.pid = some c.pkt

/-- All of the state but packet `p` is the same in `t` as in `s`. -/
structure SameButPacket (s t : State) (p : Nat) : Prop where
  params  : t.params = s.params
  insts   : t.insts = s.insts
  phvs    : t.phvs = s.phvs
  cmds    : t.cmds = s.cmds
  turns   : t.turns = s.turns
  packets : ∀ q, q ≠ p → t.packets.get q = s.packets.get q

/-- The outcome `o` of a host command is a next state in which packet `p` is `q` and nothing else changes. -/
def Becomes (s : State) (o : Host.Outcome State Fault Refusal) (p : Nat) (q : Packet) : Prop :=
  ∃ t, o = .next t ∧ SameButPacket s t p ∧ t.nextPkt = s.nextPkt ∧ t.packets.get p = some q

/-- The outcome `o` of a host command is a next state in which the new packet `q` exists under the next
name and nothing else changes. -/
def Creates (s : State) (o : Host.Outcome State Fault Refusal) (q : Packet) : Prop :=
  ∃ t, o = .next t ∧ SameButPacket s t s.nextPkt ∧ t.nextPkt = s.nextPkt + 1 ∧
    t.packets.get s.nextPkt = some q

/-- The outcome `o` of CFG.WR is a next state in which the live configuration of instance `k`, whose record
was `i`, is one that `P` holds of, and nothing else changes: not the snapshot, not a parse in progress. -/
def Configures (s : State) (o : Host.Outcome State Fault Refusal) (k : Nat) (i : Instance)
    (P : InstCfg → Prop) : Prop :=
  ∃ t cfg, o = .next t ∧ P cfg ∧ t.insts[k]? = some { i with cfg := cfg } ∧
    (∀ j, j ≠ k → t.insts[j]? = s.insts[j]?) ∧ t.params = s.params ∧ t.packets = s.packets ∧
    t.nextPkt = s.nextPkt ∧ t.phvs = s.phvs ∧ t.cmds = s.cmds ∧ t.turns = s.turns

/-- The memory `m'` is `m` but for key `k`, which holds `v`. -/
def Updated {α : Type} (m m' : Memory α) (k : Nat) (v : α) : Prop :=
  ∀ n, m'.get n = if n = k then some v else m.get n

/-! ### What a launch asks of the configuration -/

/-- Row `j` can be matched under version `ver`: some search key that a parse may form (40_match.md R142)
matches it (R143). -/
def CanMatch (c : InstCfg) (ver : BitVec 1) (j : Nat) : Prop :=
  ∃ v m win st ctr, c.tcam.get j = some (v, m) ∧
    ternary (searchKey win st ctr ver).bits (decTcam v).bits (decTcam m).bits = true

/-- The host has written all that a parse under version `ver` can read (70_reset_and_hazards.md R342): the
control registers, and, where `MAX_ITER` lets an iteration begin, every TCAM row and, of every entry that can
match, the EaRow, the seven ActionRow words and the ChecksumCtrlRows that its control word names. -/
structure WrittenFor (c : InstCfg) (ver : BitVec 1) : Prop where
  ctl  : c.startWritten = true ∧ c.offWritten = true ∧ c.iterWritten = true
  tcam : c.maxIter ≠ 0 → ∀ j < 256, c.tcam.get j ≠ none
  ea   : c.maxIter ≠ 0 → ∀ j < 256, CanMatch c ver j → c.ea.get j ≠ none
  act  : c.maxIter ≠ 0 → ∀ j < 256, CanMatch c ver j → ∀ n < 7, c.act.get (8 * j + n) ≠ none
  csum : c.maxIter ≠ 0 → ∀ j < 256, CanMatch c ver j → ∀ w, c.act.get (8 * j + 6) = some w →
    (w.getLsbD 9 = true → c.csumRow0.get (w.extractLsb' 10 5).toNat ≠ none) ∧
    (w.getLsbD 15 = true → c.csumRow1.get (w.extractLsb' 16 5).toNat ≠ none)

/-- No row that can be matched, under either version, holds a reserved `shift_amt` (30_encoding.md R127). -/
def ShiftsDefined (c : InstCfg) : Prop :=
  ∀ j w ver, (j, w) ∈ c.ea → CanMatch c ver j → (w.extractLsb' 10 6).toNat ≤ 32

/-! ### The invariant -/

/-- The row memories of one configuration are canonical, and list no row the instance does not have. -/
structure InstCfg.Wf (c : InstCfg) : Prop where
  tcam     : Memory.wf c.tcam ∧ ∀ e ∈ c.tcam, e.1 < Config.nRows
  ea       : Memory.wf c.ea ∧ ∀ e ∈ c.ea, e.1 < Config.nRows
  act      : Memory.wf c.act ∧ ∀ e ∈ c.act, e.1 < 8 * Config.nRows ∧ e.1 % 8 < 7
  csumRow0 : Memory.wf c.csumRow0 ∧ ∀ e ∈ c.csumRow0, e.1 < Config.nCsumRows
  csumRow1 : Memory.wf c.csumRow1 ∧ ∀ e ∈ c.csumRow1, e.1 < Config.nCsumRows

/-- The parse `r` in progress on instance `k`, whose record is `i`, has its packet to itself: the packet
exists and `k` owns it, it has a PHV, its outcome is None, and the cursor is within it (10_state.md R21,
R30, R34; 60_exceptions.md R301), which R30 says at all times and the model of parses in progress only (log 27); and
its snapshot is one that a launch accepts (10_state.md R24, 30_encoding.md R127, as logs 8 and 10 read them). -/
def RunWf (s : State) (k : Nat) (i : Instance) (r : Run) : Prop :=
  ∃ q, s.packets.get r.pkt = some q ∧ q.owner = .inst k ∧ (q.view i.dir).phv ≠ none ∧
    q.outcome = .none ∧ q.cause = .noError ∧
    q.ps.cur.toNat ≤ q.bytes.length ∧ r.cur0.toNat ≤ q.bytes.length ∧
    q.ps.iter.toNat ≤ i.snap.maxIter.toNat ∧ WrittenFor i.snap q.ps.ver ∧ ShiftsDefined i.snap

/-- The invariant of the machine. -/
structure MachineInv (s : State) : Prop where
  /-- Every sparse memory is in canonical form. -/
  canonical : Memory.wf s.packets ∧ Memory.wf s.phvs ∧ ∀ i ∈ s.insts, i.cfg.Wf ∧ i.snap.Wf
  /-- Names of packets to come are unused; a packet is at most `LEN_MAX` bytes; it has `N_QCTR` counters. -/
  packets : ∀ p q, s.packets.get p = some q →
    p < s.nextPkt ∧ q.bytes.length ≤ Config.lenMax ∧ q.q.copyCtr.length = s.params.nQctr
  /-- A parse in progress has its packet to itself. -/
  runs : ∀ (k : Nat) (i : Instance) (r : Run), s.insts[k]? = some i → i.run = some r → RunWf s k i r
  /-- An instance owns only the packet it is parsing (10_state.md R21). -/
  owners : ∀ (p : Nat) (q : Packet) (k : Nat), s.packets.get p = some q → q.owner = .inst k →
    ∃ i r, s.insts[k]? = some i ∧ i.run = some r ∧ r.pkt = p
  /-- Two running parses write different PHVs (20_memory.md R84). -/
  phvsApart : ∀ (j k : Nat) (i i' : Instance) (r r' : Run) (q q' : Packet), j ≠ k →
    s.insts[j]? = some i → s.insts[k]? = some i' → i.run = some r → i'.run = some r' →
    s.packets.get r.pkt = some q → s.packets.get r'.pkt = some q' →
    (q.view i.dir).phv ≠ (q'.view i'.dir).phv

/-! ### The search -/

/-- Row `j` of a snapshot matches a key, on the 44 bits the row words hold (40_match.md R143). -/
def rowMatches (c : InstCfg) (key : BitVec 44) (j : Nat) : Bool :=
  match c.tcam.get j with
  | none => false
  | some (v, m) => (key &&& m.extractLsb' 0 44) == (v.extractLsb' 0 44 &&& m.extractLsb' 0 44)

/-- Of the first `n` rows, the parse has found exactly those that match the key, lowest first, and the key
is that of the window, state, counter and version. -/
def SearchedTo (c : Ctx) (n : Nat) : Prop :=
  c.run.key = (searchKey c.pkt.ps.win c.pkt.ps.state c.pkt.ps.ctr c.pkt.ps.ver).bits ∧
    c.run.hits.map BitVec.toNat = (List.range n).filter (rowMatches c.snap c.run.key)

/-- The places at which the matched entry is applied: steps (3) to (7). -/
def appliesAt : Slot → Bool
  | .winSample | .tcamKey | .tcamMatch _ | .tcamSelect => false
  | _ => true

/-- The checksum engine whose row a place reads. -/
def engineAt : Slot → Option Eng
  | .csumStart e | .csumAcc e | .csumZao e | .csumEnd e => some e
  | _ => none

/-- The entry being applied matches the key of this iteration, which is that of its window, state and version
and of the counter as it was. -/
def AppliesMatch (c : Ctx) : Prop :=
  rowMatches c.snap c.run.key c.pkt.ps.idx.toNat = true ∧
    ∃ ctr, c.run.key = (searchKey c.pkt.ps.win c.pkt.ps.state ctr c.pkt.ps.ver).bits

/-- The checksum row in use is the one the entry's control word names for engine `e`, enabled there. -/
def InvokedAs (c : Ctx) (e : Eng) : Prop :=
  ∃ w, c.snap.act.get (8 * c.pkt.ps.idx.toNat + 6) = some w ∧
    match e with
    | .e0 => w.getLsbD 9 = true ∧ c.run.csumAddr = w.extractLsb' 10 5
    | .e1 => w.getLsbD 15 = true ∧ c.run.csumAddr = w.extractLsb' 16 5

/-- Every parse in the midst of its search has searched exactly the rows it has passed; past its search it
applies an entry that matches, and uses the checksum rows that this entry names; and an iteration begins only
where the budget lets one. -/
def SearchExact (s : State) : Prop :=
  ∀ k c, s.ctxOf k = some c →
    (∀ i, c.run.phase = .slot (.tcamMatch i) → SearchedTo c i.toNat) ∧
    (c.run.phase = .slot .tcamSelect → SearchedTo c Config.nRows) ∧
    ∀ sl, c.run.phase = .slot sl → c.snap.maxIter ≠ 0 ∧ (appliesAt sl = true → AppliesMatch c) ∧
      ∀ e, engineAt sl = some e → InvokedAs c e

/-! ### The measure of a parse -/

/-- How far a place stands from the end of its iteration. -/
def slotRank : Slot → Nat
  | .winSample => 291
  | .tcamKey => 290
  | .tcamMatch i => 289 - i.toNat
  | .tcamSelect => 33
  | .eaShift => 32
  | .eaCtr => 31
  | .eaArm16 => 30
  | .eaArm8_0 => 29
  | .eaArm8_1 => 28
  | .eaNxt => 27
  | .eaBufreq => 26
  | .actDoff => 25
  | .ex32 k => 24 - k.val
  | .ex16 k => 20 - k.val
  | .ex8 k => 16 - k.val
  | .actCsum .e0 => 12
  | .csumStart .e0 => 11
  | .csumAcc .e0 => 10
  | .csumZao .e0 => 9
  | .csumEnd .e0 => 8
  | .actCsum .e1 => 7
  | .csumStart .e1 => 6
  | .csumAcc .e1 => 5
  | .csumZao .e1 => 4
  | .csumEnd .e1 => 3
  | .actPri => 2
  | .eaDone => 1

/-- How far a phase stands from the next loop head. -/
def phaseRank : Phase → Nat
  | .head => 0
  | .slot sl => slotRank sl

/-- A bound on the steps a parse in progress still makes: the iterations its budget leaves, and the rest
of the present one (41_pipeline_ea.md R162). -/
def Ctx.measure (c : Ctx) : Nat :=
  292 * (c.snap.maxIter.toNat - c.pkt.ps.iter.toNat) + phaseRank c.run.phase

/-- The state with another live configuration on instance `j`, as CFG.WR may leave it. -/
def State.withCfg (s : State) (j : Nat) (cfg : InstCfg) : State :=
  { s with insts := s.insts.modify j fun i => { i with cfg := cfg } }

end Sys2Proof.Machine
end

