-- ==== Sys2Proof/Certificates/Slice0/Obligations.lean ====
section
/-! DEFINITION. The statements about the machine, each with the rule of spec/ it rests on. In all of them
`c` with `s.ctx = some c` is the parse in progress of the instance on turn: `c.k` the instance, `c.pid` and
`c.pkt` the packet, `c.snap` the snapshot, `c.run` the values carried within the iteration (`cur0`, `KEY`,
the matches, `DOFF_eff`, `sum_in`). `GoesOn`, `Ends`, `WritesPhv`, `Becomes`, `Creates` and `Configures`
(Safety.lean) say the next state AND that nothing else changes. -/

open Sys2Proof Sys2Proof.Machine

/-! ### Reset, and how a step runs an instruction -/

/-- 10_state.md R62, R63: no packet exists, no row and no control register is written, no parse is in progress; the
configuration fields have the spec's defaults (92_eei_decisions.md). The instances, the zero control registers, the
empty PHVs and `N_QCTR` are the model's choices (logs 5, 6, 7, 9, 16). -/
def Obligations.ResetHasNoPacketAndNoWrittenRow : Prop :=
  State.reset.packets = [] ∧ State.reset.phvs = [] ∧ State.reset.cmds = [] ∧ State.reset.turns = [] ∧
  State.reset.params.tieBreak = .lowest ∧ State.reset.params.stateMerge = .select ∧
  State.reset.params.stateWinSrc = .lookup8_0 ∧ State.reset.params.ctrNoload = .add ∧
  ∀ i ∈ State.reset.insts, i.run = none ∧ i.cfg.tcam = [] ∧ i.cfg.ea = [] ∧ i.cfg.act = [] ∧
    i.cfg.csumRow0 = [] ∧ i.cfg.csumRow1 = [] ∧ i.cfg.startState = 0 ∧ i.cfg.defOff16 = 0 ∧
    i.cfg.defOff8_0 = 0 ∧ i.cfg.defOff8_1 = 0 ∧ i.cfg.maxIter = 0 ∧
    i.cfg.startWritten = false ∧ i.cfg.offWritten = false ∧ i.cfg.iterWritten = false

/-- The invariant holds after reset. -/
def Obligations.ResetMeetsInvariant : Prop := MachineInv State.reset

/-- From every state that meets the invariant, a step gives one that meets it. That a parse in progress has a
snapshot which is written for its version and holds no reserved shift that can be matched is read from 10_state.md
R24 and 30_encoding.md R127 as logs 8 and 10 read them (DEDUCED); that the cursor is within the packet is asked of
parses in progress only, where R30 says at all times (log 27, DEDUCED). -/
def Obligations.StepKeepsInvariant : Prop := ∀ s t, MachineInv s → step s = .next t → MachineInv t

/-- When the words at the place an instance's parse has come to decode to an instruction, the step is that
instruction's execution, after which the parse moves to the next place and the turn is over. -/
def Obligations.StepRunsTheMicroOperationAtThePlace : Prop :=
  ∀ s k c sl ws i, s.agent = .inst k → s.ctxOf k = some c → c.run.phase = .slot sl →
    slotWords c.snap c.pkt.ps.idx c.run.csumAddr sl = some ws → decode (.micro sl) ws = .ok i →
    (∀ t, exec i s = .next t → step s = .next
      { t with
        insts := t.insts.modify k fun j =>
          { j with run := j.run.map fun r => { r with phase := r.phase.next } }
        turns := t.turns.tail }) ∧
    (∀ e, exec i s = .fault e → step s = .fault e) ∧
    (∀ e, exec i s = .refused e → step s = .refused e)

/-- On the host's turn the step is the execution of its oldest message's instruction, after which the
message is taken and the turn is over; words that are no command stop the machine (30_encoding.md R130:
they name no command). -/
def Obligations.StepRunsTheHostCommand : Prop :=
  ∀ s m rest, s.agent = .host → s.cmds = m :: rest →
    (∀ i, decode .port m = .ok i →
      (∀ t, exec i s = .next t → step s = .next { t with cmds := t.cmds.tail, turns := t.turns.tail }) ∧
      (∀ e, exec i s = .fault e → step s = .fault e) ∧
      (∀ e, exec i s = .refused e → step s = .refused e)) ∧
    (∀ e, decode .port m = .error e → step s = .fault (.badCommand e))

/-- A place whose enable bits select no micro-operation (30_encoding.md R121) is passed over, to the place
`Phase.skip` gives, which IterationFollowsTheSevenSteps states, and nothing else changes. That passing over a
place is a step of its own and ends the turn is the model's choice (logs 1 and 4). A fetch of a row the host
never wrote is refused (10_state.md R24); PARSE launches no parse that comes to one (log 8). -/
def Obligations.StepPassesOverOrRefuses : Prop :=
  ∀ s k c sl, s.agent = .inst k → s.ctxOf k = some c → c.run.phase = .slot sl →
    (slotWords c.snap c.pkt.ps.idx c.run.csumAddr sl = none → step s = .refused .rowUnwritten) ∧
    (∀ ws e, slotWords c.snap c.pkt.ps.idx c.run.csumAddr sl = some ws → decode (.micro sl) ws = .error e →
      step s = .next
        { s with
          insts := s.insts.modify k fun j =>
            { j with run := j.run.map fun r => { r with phase := r.phase.skip } }
          turns := s.turns.tail })

/-- 10_state.md R20, 60_exceptions.md R309: only a parsing instance performs micro-operations; one with no
parse in progress has no step. -/
def Obligations.MicroOperationsNeedAParse : Prop :=
  ∀ s i, (encode i).1 ≠ .port → s.ctx = none → exec i s = .fault .noParse

/-- The order of an iteration (41_pipeline_ea.md R163, 42_extract.md R202, R210, 43_checksum.md R231 to R234),
every place of it, and where a place that selects nothing leads: to the next, or past the whole engine. EA.SHIFT,
whose check comes before every write of step (3), comes first in step (3) (DEDUCED, log 2); the places inside an
engine are the model's split of one invocation (log 3). -/
def Obligations.IterationFollowsTheSevenSteps : Prop :=
  Phase.head.next = .slot .winSample ∧ slotNext .winSample = .slot .tcamKey ∧
  slotNext .tcamKey = .slot (.tcamMatch 0) ∧
  (∀ i : BitVec 8, i.toNat < 255 → slotNext (.tcamMatch i) = .slot (.tcamMatch (i + 1))) ∧
  slotNext (.tcamMatch 255) = .slot .tcamSelect ∧ slotNext .tcamSelect = .slot .eaShift ∧
  slotNext .eaShift = .slot .eaCtr ∧ slotNext .eaCtr = .slot .eaArm16 ∧
  slotNext .eaArm16 = .slot .eaArm8_0 ∧ slotNext .eaArm8_0 = .slot .eaArm8_1 ∧
  slotNext .eaArm8_1 = .slot .eaNxt ∧ slotNext .eaNxt = .slot .eaBufreq ∧
  slotNext .eaBufreq = .slot .actDoff ∧ slotNext .actDoff = .slot (.ex32 0) ∧
  slotNext (.ex32 0) = .slot (.ex32 1) ∧ slotNext (.ex32 1) = .slot (.ex32 2) ∧
  slotNext (.ex32 2) = .slot (.ex32 3) ∧ slotNext (.ex32 3) = .slot (.ex16 0) ∧
  slotNext (.ex16 0) = .slot (.ex16 1) ∧ slotNext (.ex16 1) = .slot (.ex16 2) ∧
  slotNext (.ex16 2) = .slot (.ex16 3) ∧ slotNext (.ex16 3) = .slot (.ex8 0) ∧
  slotNext (.ex8 0) = .slot (.ex8 1) ∧ slotNext (.ex8 1) = .slot (.ex8 2) ∧
  slotNext (.ex8 2) = .slot (.ex8 3) ∧ slotNext (.ex8 3) = .slot (.actCsum .e0) ∧
  (∀ e, slotNext (.actCsum e) = .slot (.csumStart e) ∧ slotNext (.csumStart e) = .slot (.csumAcc e) ∧
    slotNext (.csumAcc e) = .slot (.csumZao e) ∧ slotNext (.csumZao e) = .slot (.csumEnd e)) ∧
  slotNext (.csumEnd .e0) = .slot (.actCsum .e1) ∧ slotNext (.csumEnd .e1) = .slot .actPri ∧
  slotSkip (.actCsum .e0) = .slot (.actCsum .e1) ∧ slotSkip (.actCsum .e1) = .slot .actPri ∧
  (∀ sl, (∀ e, sl ≠ .actCsum e) → slotSkip sl = slotNext sl) ∧
  (∀ sl, Phase.next (.slot sl) = slotNext sl ∧ Phase.skip (.slot sl) = slotSkip sl) ∧
  slotNext .actPri = .slot .eaDone ∧ slotNext .eaDone = .head

/-! ### Encodings -/

/-- Decoding what the encoder makes of a well-formed instruction gives it back, every operand at every
value the encoding admits. -/
def Obligations.DecodeOfEncodeIsTheInstruction : Prop :=
  ∀ i : Instr, i.wf = true → decode (encode i).1 (encode i).2 = .ok i

/-- The decoder yields well-formed instructions only. -/
def Obligations.DecodedInstructionsAreWellFormed : Prop :=
  ∀ l ws i, decode l ws = .ok i → i.wf = true

/-- Words written out from the spec's encodings decode to the instruction they stand for: the words of R135
and of programs P1 and P2 of 95_test_vectors.md (five words, two of them at two places). The last clause is a
word of the model's own message layout (log 14). -/
def Obligations.SpecWordsDecode : Prop :=
  decode (.micro .eaShift) [0x0000002000003800] = .ok (.eaShift 14) ∧
  decode (.micro .eaDone) [0x0000002000003800] = .ok (.eaDone 1) ∧
  decode (.micro (.ex16 0)) [0x0000000000000531] = .ok (.actEx16_0 ⟨0, 12, 5, 0, 0⟩) ∧
  decode (.micro .eaNxt) [0x0507D00C00005000] = .ok (.eaNxt 0x40 0x1F) ∧
  decode (.micro .eaBufreq) [0x0507D00C00005000] = .ok (.eaBufreq 20) ∧
  decode (.micro .actPri) [0x000000003D600200] = .ok (.actPriFld 1 5 7) ∧
  decode (.micro (.csumZao .e0)) [0x001C0000000FFFFF, 0] = .ok (.csumZao .e0 0) ∧
  decode .port [0x14, 3] = .ok (.pktRetire 3)

/-- 30_encoding.md R104 and R121 for the EaRow: where each micro-operation's fields stand, and which bit
selects it. That EA.DONE is decoded from every row and carries its `done` bit, where R121 yields it only with
`done`, is the model's choice (log 24). -/
def Obligations.EaRowDecodesByItsTable : Prop :=
  ∀ w : W64,
    decode (.micro .eaShift) [w] = .ok (.eaShift (w.extractLsb' 10 6)) ∧
    decode (.micro .eaCtr) [w] = .ok
      (if w.getLsbD 0 = false then .eaCtrAdd (w.extractLsb' 2 8)
       else if w.getLsbD 1 = false then .eaCtrLdi (w.extractLsb' 2 8)
       else .eaCtrLds (w.extractLsb' 2 8)) ∧
    decode (.micro .eaArm16) [w] =
      (if w.getLsbD 34 then .ok (.eaArm16 (w.extractLsb' 16 6)) else .error .notSelected) ∧
    decode (.micro .eaArm8_0) [w] =
      (if w.getLsbD 35 then .ok (.eaArm8_0 (w.extractLsb' 22 6)) else .error .notSelected) ∧
    decode (.micro .eaArm8_1) [w] =
      (if w.getLsbD 36 then .ok (.eaArm8_1 (w.extractLsb' 28 6)) else .error .notSelected) ∧
    decode (.micro .eaDone) [w] = .ok (.eaDone (w.extractLsb' 37 1)) ∧
    decode (.micro .eaNxt) [w] = .ok (.eaNxt (w.extractLsb' 38 8) (w.extractLsb' 46 8)) ∧
    decode (.micro .eaBufreq) [w] = .ok (.eaBufreq (w.extractLsb' 54 6))

/-- 30_encoding.md R105, R106, R107, R109, R110 and R121 for the ActionRow and the ChecksumCtrlRow: where each
micro-operation's fields stand, and which bits select it; and 20_memory.md R77, 41_pipeline_ea.md R163,
42_extract.md R210: which word of the snapshot each place of an iteration reads. -/
def Obligations.ActAndCsumRowsDecodeByTheirTables : Prop :=
  (∀ (c : InstCfg) (idx : BitVec 8) (a : BitVec 5) (k : Fin 4),
    let word := fun n => (c.act.get (8 * idx.toNat + n)).map fun w => [w]
    slotWords c idx a (.ex32 k) = word (if k < 2 then 0 else 1) ∧
    slotWords c idx a (.ex16 k) = word (if k < 2 then 2 else 3) ∧
    slotWords c idx a (.ex8 k) = word (if k < 2 then 4 else 5) ∧
    slotWords c idx a .actDoff = word 6 ∧ slotWords c idx a .actPri = word 6 ∧
    (∀ e, slotWords c idx a (.actCsum e) = word 6) ∧
    (∀ sl ∈ [Slot.eaShift, .eaCtr, .eaArm16, .eaArm8_0, .eaArm8_1, .eaNxt, .eaBufreq, .eaDone],
      slotWords c idx a sl = (c.ea.get idx.toNat).map fun w => [w]) ∧
    (∀ sl ∈ [Slot.csumStart .e0, .csumAcc .e0, .csumZao .e0, .csumEnd .e0],
      slotWords c idx a sl = (c.csumRow0.get a.toNat).map fun w => [w.1, w.2]) ∧
    (∀ sl ∈ [Slot.csumStart .e1, .csumAcc .e1, .csumZao .e1, .csumEnd .e1],
      slotWords c idx a sl = (c.csumRow1.get a.toNat).map fun w => [w.1, w.2]) ∧
    (∀ i : BitVec 8, slotWords c idx a (.tcamMatch i) = (c.tcam.get i.toNat).map fun w => [w.1, w.2]) ∧
    (∀ sl ∈ [Slot.winSample, .tcamKey, .tcamSelect], slotWords c idx a sl = some [])) ∧
  (∀ (w : W64) (k : Fin 4),
    let lo := if k.val % 2 = 0 then 0 else 32
    let l : Lane := ⟨w.extractLsb' (lo + 1) 1, w.extractLsb' (lo + 2) 6, w.extractLsb' (lo + 8) 8,
      w.extractLsb' (lo + 16) 1, w.extractLsb' (lo + 17) 2⟩
    decode (.micro (.ex32 k)) [w] =
      (if w.getLsbD lo then .ok ([.actEx32_0 l, .actEx32_1 l, .actEx32_2 l, .actEx32_3 l].get k)
       else .error .notSelected) ∧
    decode (.micro (.ex16 k)) [w] =
      (if w.getLsbD lo then .ok ([.actEx16_0 l, .actEx16_1 l, .actEx16_2 l, .actEx16_3 l].get k)
       else .error .notSelected) ∧
    decode (.micro (.ex8 k)) [w] =
      (if w.getLsbD lo then .ok ([.actEx8_0 l, .actEx8_1 l, .actEx8_2 l, .actEx8_3 l].get k)
       else .error .notSelected)) ∧
  (∀ w : W64,
    decode (.micro .actDoff) [w] = .ok (.actDoff (w.extractLsb' 0 1) (w.extractLsb' 1 8)) ∧
    decode (.micro (.actCsum .e0)) [w] =
      (if w.getLsbD 9 then .ok (.actCsum0 (w.extractLsb' 10 5)) else .error .notSelected) ∧
    decode (.micro (.actCsum .e1)) [w] =
      (if w.getLsbD 15 then .ok (.actCsum1 (w.extractLsb' 16 5)) else .error .notSelected) ∧
    decode (.micro .actPri) [w] =
      (if w.getLsbD 21 then
         .ok (.actPriFld (w.extractLsb' 22 2) (w.extractLsb' 24 3) (w.extractLsb' 27 3))
       else if w.getLsbD 24 then .ok (.actPriImm (w.extractLsb' 27 3)) else .error .notSelected)) ∧
  (∀ (w0 w1 : W64) (e : Eng),
    decode (.micro (.csumAcc e)) [w0, w1] = .ok
      (.csumAcc e ⟨w0.extractLsb' 0 32, w0.extractLsb' 32 17, w0.extractLsb' 49 1, w1.extractLsb' 0 16⟩) ∧
    decode (.micro (.csumStart e)) [w0, w1] =
      (if w0.getLsbD 50 then .ok (.csumStart e) else .error .notSelected) ∧
    decode (.micro (.csumEnd e)) [w0, w1] =
      (if w0.getLsbD 51 then .ok (.csumEnd e (w0.extractLsb' 53 5)) else .error .notSelected) ∧
    decode (.micro (.csumZao e)) [w0, w1] =
      (if w0.getLsbD 51 && w0.getLsbD 52 then .ok (.csumZao e (w0.extractLsb' 53 5))
       else .error .notSelected))

/-! ### The match engine -/

/-- 20_memory.md R71 and R75: inside the byte window the bytes are the packet's, from `cur0` on, and
multi-byte reads are big-endian; each width up to its own last place in the window. -/
def Obligations.WindowReadsAreThePacketsBytesBigEndian : Prop :=
  ∀ c : Ctx,
    c.avail = min 32 (c.pkt.bytes.length - c.run.cur0.toNat) ∧
    ∀ o : Nat,
      let b := fun k => c.pkt.bytes[c.run.cur0.toNat + o + k]?
      (o + 1 ≤ c.avail → b 0 = some (c.byteAt o)) ∧
      (o + 2 ≤ c.avail → ∃ b0 b1, b 0 = some b0 ∧ b 1 = some b1 ∧ c.read16 o = b0 ++ b1) ∧
      (o + 4 ≤ c.avail → ∃ b0 b1 b2 b3, b 0 = some b0 ∧ b 1 = some b1 ∧ b 2 = some b2 ∧ b 3 = some b3 ∧
        c.read32 o = b0 ++ b1 ++ b2 ++ b3)

/-- 40_match.md R141. -/
def Obligations.WinSampleReadsTheArmedOffsetsOrFaults : Prop :=
  ∀ s c, s.ctx = some c →
    let g := c.pkt.ps
    let avail := min 32 (c.pkt.bytes.length - c.run.cur0.toNat)
    if g.off16.toNat + 2 ≤ avail ∧ g.off8_0.toNat + 1 ≤ avail ∧ g.off8_1.toNat + 1 ≤ avail then
      GoesOn s c (exec .winSample s) c.run { c.pkt with ps := { g with
        win := { lookup16 := c.byteAt g.off16.toNat ++ c.byteAt (g.off16.toNat + 1)
                 lookup8_0 := c.byteAt g.off8_0.toNat
                 lookup8_1 := c.byteAt g.off8_1.toNat } } }
    else Ends s c (exec .winSample s) .outOfBoundsRead c.pkt

/-- 40_match.md R142: the key's 44 bits, and that no packet field changes. -/
def Obligations.TcamKeyIsFormedFromWindowStateCounterVersion : Prop :=
  ∀ s c, s.ctx = some c →
    ∃ key : BitVec 44,
      GoesOn s c (exec .tcamKey s) { c.run with key := key, hits := [] } c.pkt ∧
      key.extractLsb' 0 16 = c.pkt.ps.win.lookup16 ∧ key.extractLsb' 16 8 = c.pkt.ps.win.lookup8_0 ∧
      key.extractLsb' 24 8 = c.pkt.ps.win.lookup8_1 ∧ key.extractLsb' 32 8 = c.pkt.ps.state ∧
      key.getLsbD 40 = decide (c.pkt.ps.ctr = 0) ∧ key.getLsbD 41 = c.pkt.ps.ctr.getLsbD 7 ∧
      key.getLsbD 42 = decide (c.pkt.ps.ver = 0) ∧ key.getLsbD 43 = decide (c.pkt.ps.ver = 1)

/-- 40_match.md R143, with the row's words as the decoder reads them: bits 63:44 play no part. -/
def Obligations.TcamMatchTestsAllFortyFourBits : Prop :=
  ∀ s c (i : BitVec 8) (v m : W64), s.ctx = some c →
    GoesOn s c (exec (.tcamMatch i (decTcam v) (decTcam m)) s)
      { c.run with hits :=
          if ∀ b < 44, m.getLsbD b = false ∨ v.getLsbD b = c.run.key.getLsbD b then c.run.hits ++ [i]
          else c.run.hits }
      c.pkt

/-- 40_match.md R144 (a), (b), (c), and (d): two rows that agree on `V[43:0]` and `M[43:0]` match alike. -/
def Obligations.TernaryMatchLaws : Prop :=
  ∀ key key' v v' m m' : BitVec 44,
    (v' &&& m = v &&& m → ternary key v' m = ternary key v m) ∧
    (key' &&& m = key &&& m → ternary key' v m = ternary key v m) ∧
    (m' &&& ~~~m = 0 → ternary key v m = true → ternary key v m' = true) ∧
    ∀ w w' x x' : W64,
      (∀ b < 44, w.getLsbD b = w'.getLsbD b) → (∀ b < 44, x.getLsbD b = x'.getLsbD b) →
      ternary key (decTcam w).bits (decTcam x).bits = ternary key (decTcam w').bits (decTcam x').bits

/-- 40_match.md R145. Under `TIE_BREAK` = lowest the lowest match wins; under any other convention some
match does (log 12). -/
def Obligations.TcamSelectTakesTheLowestMatchOrFaults : Prop :=
  ∀ s c, s.ctx = some c →
    (c.run.hits = [] →
      Ends s c (exec .tcamSelect s) .noMatch { c.pkt with ps := { c.pkt.ps with hit := 0 } }) ∧
    (c.run.hits ≠ [] → ∃ row ∈ c.run.hits,
      (s.params.tieBreak = .lowest → ∀ x ∈ c.run.hits, row.toNat ≤ x.toNat) ∧
      GoesOn s c (exec .tcamSelect s) c.run
        { c.pkt with ps := { c.pkt.ps with hit := 1, idx := row } })

/-- 40_match.md R145, R146: at every point of a search the rows found are exactly the rows passed that
match, by the snapshot's words; every step keeps it, so TCAM.SELECT chooses from the set
S = { i in 0..255 | match(i) }. Past the search the entry applied is one that matches (41_pipeline_ea.md R163),
and a checksum row in use is one that it names (42_extract.md R210). -/
def Obligations.StepKeepsSearchExact : Prop :=
  ∀ s t, MachineInv s → SearchExact s → step s = .next t → SearchExact t

/-! ### PARSE and its loop -/

/-- 10_state.md R60, 41_pipeline_ea.md R161: what parse start writes, ownership included (R160), for every
launch that ParseStopsWhereTheSpecGivesNoStep does not stop. -/
def Obligations.ParseStartTakesSnapshotAndClearsRegisters : Prop :=
  ∀ s p k i q h, s.insts[k]? = some i → i.run = none → s.packets.get p = some q → q.owner = .host →
    (q.view i.dir).phv = some h →
    (∀ (j : Nat) (i' : Instance) (r' : Run) (q' : Packet), s.insts[j]? = some i' →
      i'.run = some r' → s.packets.get r'.pkt = some q' → (q'.view i'.dir).phv ≠ some h) →
    WrittenFor i.cfg (q.view i.dir).version → ShiftsDefined i.cfg →
    ∃ t, exec (.parse p k) s = .next t ∧ SameButPacket { s with insts := t.insts } t p ∧
      t.nextPkt = s.nextPkt ∧ (∀ j, j ≠ k → t.insts[j]? = s.insts[j]?) ∧
      t.insts[k]? = some { i with
        snap := i.cfg,
        run := some ⟨p, .head, 0, 0, [], 0, 0, 0⟩ } ∧
      t.packets.get p = some { q with
        owner := .inst k, outcome := .none, cause := .noError,
        ps :=
          { state := i.cfg.startState, nxt := 0, idx := 0, hit := 0, ctr := 0, cur := 0,
            off16 := i.cfg.defOff16, off8_0 := i.cfg.defOff8_0, off8_1 := i.cfg.defOff8_1,
            win := ⟨0, 0, 0⟩, doff := 0, iter := 0, bufreq := 0, ver := (q.view i.dir).version,
            csum0 := ⟨0, 0, 0, 0⟩, csum1 := ⟨0, 0, 0, 0⟩ } }

/-- Where PARSE has no step (10_state.md R20, R21; 93_implementation_defined.md U14; on an absent instance by
log 17) and where it is refused: a null or shared PHV (41_pipeline_ea.md R160, 20_memory.md R84), a
configuration not written (10_state.md R24, 70_reset_and_hazards.md R342, by log 8's reading of "can read"), a
reserved shift that can be matched (30_encoding.md R127, log 10). -/
def Obligations.ParseStopsWhereTheSpecGivesNoStep : Prop :=
  ∀ s p k,
    (s.insts[k]? = none → exec (.parse p k) s = .fault .noSuchInstance) ∧
    ∀ i, s.insts[k]? = some i →
      (i.run ≠ none → exec (.parse p k) s = .fault .instanceBusy) ∧
      (i.run = none → s.packets.get p = none → exec (.parse p k) s = .fault .notOwned) ∧
      ∀ q, i.run = none → s.packets.get p = some q →
        (q.owner ≠ .host → exec (.parse p k) s = .fault .notOwned) ∧
        (q.owner = .host → (q.view i.dir).phv = none → exec (.parse p k) s = .refused .nullPhv) ∧
        (∀ (h j : Nat) (i' : Instance) (r' : Run) (q' : Packet), q.owner = .host →
          (q.view i.dir).phv = some h → s.insts[j]? = some i' → i'.run = some r' →
          s.packets.get r'.pkt = some q' → (q'.view i'.dir).phv = some h →
          exec (.parse p k) s = .refused .sharedPhv) ∧
        (∀ h, q.owner = .host → (q.view i.dir).phv = some h →
          (∀ (j : Nat) (i' : Instance) (r' : Run) (q' : Packet), s.insts[j]? = some i' →
            i'.run = some r' → s.packets.get r'.pkt = some q' → (q'.view i'.dir).phv ≠ some h) →
          (¬ WrittenFor i.cfg (q.view i.dir).version → exec (.parse p k) s = .refused .configUnwritten) ∧
          (WrittenFor i.cfg (q.view i.dir).version → ¬ ShiftsDefined i.cfg →
            exec (.parse p k) s = .refused .reservedShiftAmt))

/-- 41_pipeline_ea.md R162: the loop head of PARSE, as the machine's own step. -/
def Obligations.LoopHeadChecksTheBudget : Prop :=
  ∀ s c, s.ctx = some c → c.run.phase = .head →
    (c.pkt.ps.iter.toNat < c.snap.maxIter.toNat →
      GoesOn s c (loopHead s) { c.run with cur0 := c.pkt.ps.cur }
        { c.pkt with ps := { c.pkt.ps with iter := c.pkt.ps.iter + 1 } }) ∧
    (c.snap.maxIter.toNat ≤ c.pkt.ps.iter.toNat → Ends s c (loopHead s) .loopBudgetExceeded c.pkt) ∧
    step s = andThen (loopHead s) (afterInst c.k)

/-- 60_exceptions.md R301, R305: taking an exception, or finishing, writes the cause and the outcome, ends the
parse where it stands, hands the packet back to the host and changes nothing else. The codes are R300's and
R301's. -/
def Obligations.TakingAnExceptionWritesCauseAndOutcome : Prop :=
  (Cause.noError.code = 0 ∧ Cause.noMatch.code = 1 ∧ Cause.loopBudgetExceeded.code = 2 ∧
    Cause.outOfBoundsRead.code = 3 ∧ ParseOutcome.none.code = 0 ∧ ParseOutcome.success.code = 1 ∧
    ParseOutcome.failed.code = 2 ∧ ParseOutcome.aborted.code = 3) ∧
  ∀ s c (why : Cause), s.ctx = some c →
    ∃ t, (raise c why).apply s = .next t ∧ SameButParse s t c.k c.pid ∧ t.phvs = s.phvs ∧
      (t.insts[c.k]?).map Instance.run = some none ∧
      t.packets.get c.pid = some { c.pkt with
        owner := .host, cause := why,
        outcome := match why with
          | .noError => .success
          | .loopBudgetExceeded => .aborted
          | .noMatch | .outOfBoundsRead => .failed }

/-- 41_pipeline_ea.md R162, R174: with nothing scheduled (log 4), a parse in progress ends within the steps its
budget leaves; it is never stuck, and it is refused on the way only in states that the invariants rule out, so
never if PARSE launched it (logs 8, 10). 70_reset_and_hazards.md R354: at the spec's grain an iteration is one
step, which takes one turn and leads to the next loop head with `ITER` one higher, or ends the parse. -/
def Obligations.ParseTerminatesWithinItsBudget : Prop :=
  ∀ s c, s.ctx = some c →
    (s.turns = [] →
      ∃ n ≤ c.measure + 1, match Sys2Proof.core.run n s with
        | .next t => t.ctxOf c.k = none
        | .fault _ => False
        | .refused _ => ¬ (MachineInv s ∧ SearchExact s)) ∧
    (c.run.phase = .head →
      (∀ t, iterStep s = .next t → t.turns = s.turns.tail ∧
        (t.ctxOf c.k = none ∨
          ∃ d, t.ctxOf c.k = some d ∧ d.run.phase = .head ∧ d.pkt.ps.iter = c.pkt.ps.iter + 1)) ∧
      (∀ e, iterStep s ≠ .fault e) ∧
      (MachineInv s → SearchExact s → ∃ t, iterStep s = .next t))

/-! ### EaRow micro-operations -/

/-- 41_pipeline_ea.md R167: the advance, and the fault when it would leave the byte window. -/
def Obligations.EaShiftAdvancesTheCursorOrFaults : Prop :=
  ∀ s c (amt : BitVec 6), s.ctx = some c → amt.toNat ≤ 32 →
    let avail := min 32 (c.pkt.bytes.length - c.run.cur0.toNat)
    if amt.toNat ≤ avail then
      GoesOn s c (exec (.eaShift amt) s) c.run
        { c.pkt with ps := { c.pkt.ps with cur := c.run.cur0 + amt.zeroExtend 16 } }
    else Ends s c (exec (.eaShift amt) s) .outOfBoundsRead c.pkt

/-- 30_encoding.md R127: 33 to 63 are refused. PARSE refuses the configuration that can come to one
(ParseStopsWhereTheSpecGivesNoStep); that the operation itself is refused too is DEDUCED (log 10). -/
def Obligations.ReservedShiftIsRefused : Prop :=
  ∀ s c (amt : BitVec 6), s.ctx = some c → 32 < amt.toNat →
    exec (.eaShift amt) s = .refused .reservedShiftAmt

/-- 41_pipeline_ea.md R164, under both values of `CTR_NOLOAD_MODE`; R165. -/
def Obligations.CounterStepsOrReloads : Prop :=
  ∀ s c (amt : BitVec 8), s.ctx = some c →
    (s.params.ctrNoload = .add → GoesOn s c (exec (.eaCtrAdd amt) s) c.run
      { c.pkt with ps := { c.pkt.ps with ctr := c.pkt.ps.ctr + amt } }) ∧
    (s.params.ctrNoload = .hold → GoesOn s c (exec (.eaCtrAdd amt) s) c.run c.pkt) ∧
    GoesOn s c (exec (.eaCtrLdi amt) s) c.run { c.pkt with ps := { c.pkt.ps with ctr := amt } }

/-- 41_pipeline_ea.md R166: the reload value is the open function `CtrSrc1` of the index and the 32-bit
window, a free value (log 11); the statement holds whatever the function is. -/
def Obligations.CounterReloadsFromTheOpenSource : Prop :=
  ∀ s c (idx : BitVec 8), s.ctx = some c →
    GoesOn s c (exec (.eaCtrLds idx) s) c.run
      { c.pkt with ps := { c.pkt.ps with ctr := Config.ctrSrc1 idx (c.pkt.ps.win.lookup8_1 ++
          c.pkt.ps.win.lookup8_0 ++ c.pkt.ps.win.lookup16) } }

/-- 41_pipeline_ea.md R168, under both values of `STATE_MERGE`, bit by bit; `w` is the byte that
`STATE_WIN_SRC` names, `lookup8[0]` by default (the other values are log 13). -/
def Obligations.NextStateMergesWindowBits : Prop :=
  ∀ s c (st mask : BitVec 8), s.ctx = some c →
    let w : BitVec 8 := match s.params.stateWinSrc with
      | .lookup8_0 => c.pkt.ps.win.lookup8_0
      | .lookup8_1 => c.pkt.ps.win.lookup8_1
      | .lookup16hi => c.pkt.ps.win.lookup16.extractLsb' 8 8
      | .lookup16lo => c.pkt.ps.win.lookup16.extractLsb' 0 8
    ∃ nxt : BitVec 8,
      GoesOn s c (exec (.eaNxt st mask) s) c.run { c.pkt with ps := { c.pkt.ps with nxt := nxt } } ∧
      (∀ b < 8,
        (s.params.stateMerge = .select → nxt.getLsbD b =
          if mask.getLsbD b then w.getLsbD b else st.getLsbD b) ∧
        (s.params.stateMerge = .or → nxt.getLsbD b = (st.getLsbD b || (w.getLsbD b && mask.getLsbD b)))) ∧
      (mask = 0 → nxt = st)

/-- 41_pipeline_ea.md R169: an armed offset is loaded and the other two are kept. -/
def Obligations.ArmLoadsOneOffset : Prop :=
  ∀ s c (off : BitVec 6), s.ctx = some c →
    GoesOn s c (exec (.eaArm16 off) s) c.run { c.pkt with ps := { c.pkt.ps with off16 := off } } ∧
    GoesOn s c (exec (.eaArm8_0 off) s) c.run { c.pkt with ps := { c.pkt.ps with off8_0 := off } } ∧
    GoesOn s c (exec (.eaArm8_1 off) s) c.run { c.pkt with ps := { c.pkt.ps with off8_1 := off } }

/-- 41_pipeline_ea.md R171. -/
def Obligations.BufreqRecordsTheRequest : Prop :=
  ∀ s c (n : BitVec 6), s.ctx = some c →
    GoesOn s c (exec (.eaBufreq n) s) c.run { c.pkt with ps := { c.pkt.ps with bufreq := n } }

/-- 41_pipeline_ea.md R172: with `done` the parse ends Success and `STATE`, `NXT` stay; else the next state
is taken. -/
def Obligations.DoneFinishesOrTakesTheNextState : Prop :=
  ∀ s c, s.ctx = some c →
    Ends s c (exec (.eaDone 1) s) .noError c.pkt ∧ outcomeOf .noError = .success ∧
    GoesOn s c (exec (.eaDone 0) s) c.run
      { c.pkt with ps := { c.pkt.ps with state := c.pkt.ps.nxt } }

/-! ### The extractor -/

/-- 42_extract.md R201. -/
def Obligations.DoffResetsUsesThenIncrements : Prop :=
  ∀ s c (rst : BitVec 1) (inc : BitVec 8), s.ctx = some c →
    let eff := if rst = 1 then 0 else c.pkt.ps.doff
    GoesOn s c (exec (.actDoff rst inc) s) { c.run with doffEff := eff }
      { c.pkt with ps := { c.pkt.ps with doff := eff + inc } }

/-- 42_extract.md R205 with R203, R204: a 32-bit lane writes its container, or faults and writes nothing. -/
def Obligations.ThirtyTwoBitLanesExtractOrFault : Prop :=
  ∀ s c (l : Lane) (h : Nat), s.ctx = some c → (c.pkt.view c.dir).phv = some h →
    ∀ i ∈ [Instr.actEx32_0 l, .actEx32_1 l, .actEx32_2 l, .actEx32_3 l],
      let o := l.src.toNat + if l.srcType = 1 then c.run.doffEff.toNat else 0
      let dst := l.dst + if l.offsetAddDst = 1 then c.run.doffEff else l.offsetRotImm.zeroExtend 8
      if o + 4 ≤ c.avail then
        WritesPhv s c (exec i s) h dst
          (.w32 (c.byteAt o ++ c.byteAt (o + 1) ++ c.byteAt (o + 2) ++ c.byteAt (o + 3)))
      else Ends s c (exec i s) .outOfBoundsRead c.pkt

/-- 42_extract.md R206 with R203, R204. -/
def Obligations.SixteenBitLanesExtractOrFault : Prop :=
  ∀ s c (l : Lane) (h : Nat), s.ctx = some c → (c.pkt.view c.dir).phv = some h →
    ∀ i ∈ [Instr.actEx16_0 l, .actEx16_1 l, .actEx16_2 l, .actEx16_3 l],
      let o := l.src.toNat + if l.srcType = 1 then c.run.doffEff.toNat else 0
      let dst := l.dst + if l.offsetAddDst = 1 then c.run.doffEff else l.offsetRotImm.zeroExtend 8
      if o + 2 ≤ c.avail then
        WritesPhv s c (exec i s) h dst (.w16 (c.byteAt o ++ c.byteAt (o + 1)))
      else Ends s c (exec i s) .outOfBoundsRead c.pkt

/-- 42_extract.md R207 with R203, R204. -/
def Obligations.EightBitLanesExtractOrFault : Prop :=
  ∀ s c (l : Lane) (h : Nat), s.ctx = some c → (c.pkt.view c.dir).phv = some h →
    ∀ i ∈ [Instr.actEx8_0 l, .actEx8_1 l, .actEx8_2 l, .actEx8_3 l],
      let o := l.src.toNat + if l.srcType = 1 then c.run.doffEff.toNat else 0
      let dst := l.dst + if l.offsetAddDst = 1 then c.run.doffEff else l.offsetRotImm.zeroExtend 8
      if o + 1 ≤ c.avail then
        WritesPhv s c (exec i s) h dst (.w8 (c.byteAt o))
      else Ends s c (exec i s) .outOfBoundsRead c.pkt

/-- 20_memory.md R76, U13: an extraction through a null handle that its source check lets pass is refused.
PARSE refuses such a launch, so no parse that PARSE began meets this. -/
def Obligations.LanesThroughANullHandleAreRefused : Prop :=
  ∀ s c (l : Lane), s.ctx = some c → (c.pkt.view c.dir).phv = none →
    let o := l.src.toNat + if l.srcType = 1 then c.run.doffEff.toNat else 0
    (o + 4 ≤ c.avail → ∀ i ∈ [Instr.actEx32_0 l, .actEx32_1 l, .actEx32_2 l, .actEx32_3 l],
      exec i s = .refused .nullPhv) ∧
    (o + 2 ≤ c.avail → ∀ i ∈ [Instr.actEx16_0 l, .actEx16_1 l, .actEx16_2 l, .actEx16_3 l],
      exec i s = .refused .nullPhv) ∧
    (o + 1 ≤ c.avail → ∀ i ∈ [Instr.actEx8_0 l, .actEx8_1 l, .actEx8_2 l, .actEx8_3 l],
      exec i s = .refused .nullPhv)

/-! ### The checksum engines -/

/-- 42_extract.md R210: engine `e` is invoked with its own running sum and the named row. -/
def Obligations.CsumDispatchPassesTheRunningSum : Prop :=
  ∀ s c (addr : BitVec 5), s.ctx = some c →
    GoesOn s c (exec (.actCsum0 addr) s)
      { c.run with csumAddr := addr, sumIn := c.pkt.ps.csum0.sum } c.pkt ∧
    GoesOn s c (exec (.actCsum1 addr) s)
      { c.run with csumAddr := addr, sumIn := c.pkt.ps.csum1.sum } c.pkt

/-- 43_checksum.md R232: the accumulation begins from zero; no register changes yet. -/
def Obligations.CsumStartBeginsFromZero : Prop :=
  ∀ s c (e : Eng), s.ctx = some c →
    GoesOn s c (exec (.csumStart e) s) { c.run with sumIn := 0 } c.pkt

/-- 43_checksum.md R231: the sum, byte by byte, or the fault with the running sum kept. -/
def Obligations.CsumAccFoldsTheSelectedBytesOrFaults : Prop :=
  ∀ s c (e : Eng) (r : CsumLanes), s.ctx = some c →
    ((∀ k < 32, r.mask.getLsbD k = true → k < c.avail) →
      GoesOn s c (exec (.csumAcc e r) s) c.run
        { c.pkt with ps := c.pkt.ps.setCsum e { (c.pkt.ps.csum e) with
            sum := (List.range 32).foldl
              (fun s k =>
                if r.mask.getLsbD k then
                  onesAdd s
                    (if ((k + r.shr.toNat) % 2 == 0) != r.swap.getLsbD ((k + r.shr.toNat) / 2)
                     then c.byteAt k ++ 0#8 else 0#8 ++ c.byteAt k)
                else s)
              (onesAdd c.run.sumIn r.add) } }) ∧
    ((∃ k < 32, r.mask.getLsbD k = true ∧ c.avail ≤ k) →
      Ends s c (exec (.csumAcc e r) s) .outOfBoundsRead c.pkt)

/-- 43_checksum.md R234 (the substitution; the position carried beside it) and R233 (the latch). -/
def Obligations.CsumEndLatchesTheSum : Prop :=
  ∀ s c (e : Eng) (pos : BitVec 5), s.ctx = some c →
    let g := c.pkt.ps.csum e
    GoesOn s c (exec (.csumEnd e pos) s) c.run
      { c.pkt with ps := c.pkt.ps.setCsum e { g with final := g.sum, valid := 1, pos := pos } } ∧
    GoesOn s c (exec (.csumZao e pos) s) c.run
      { c.pkt with
        ps := c.pkt.ps.setCsum e { g with sum := if g.sum = 0 then 0xFFFF else g.sum, pos := pos } }

/-- 43_checksum.md R234, the source's property: after CSUM.ZAO and CSUM.END the latched sum is never zero. -/
def Obligations.ZerosAsOnesNeverLatchesZero : Prop :=
  ∀ s c (e : Eng) (pos pos' : BitVec 5), s.ctx = some c →
    ∃ t u p, exec (.csumZao e pos) s = .next t ∧ exec (.csumEnd e pos') t = .next u ∧
      u.packets.get c.pid = some p ∧ (p.ps.csum e).final ≠ 0 ∧ (p.ps.csum e).valid = 1 ∧
      (p.ps.csum e).pos = pos'

/-- 00_scope.md R11 and 43_checksum.md R235: end-around carry, the laws that follow from it, and that a sum
is zero only when it began from zero and `add` and every selected byte were zero. -/
def Obligations.OnesComplementAdditionLaws : Prop :=
  ∀ a b c : BitVec 16,
    (onesAdd a b).toNat = (a.toNat + b.toNat) % 65536 + (a.toNat + b.toNat) / 65536 ∧
    onesAdd a b = onesAdd b a ∧ onesAdd (onesAdd a b) c = onesAdd a (onesAdd b c) ∧
    onesAdd a 0 = a ∧ (a ≠ 0 → onesAdd a 0xFFFF = a) ∧ onesAdd 0 0xFFFF = 0xFFFF ∧
    (onesAdd a b = 0 ↔ a = 0 ∧ b = 0) ∧
    ∀ (r : CsumLanes) (byte : Nat → Byte),
      accumulate r byte a = 0 ↔
        a = 0 ∧ r.add = 0 ∧ ∀ k < 32, r.mask.getLsbD k = true → byte k = 0

/-- 43_checksum.md R231, R235: two invocations over disjoint lanes add up to one over both. -/
def Obligations.AccumulationSplitsAcrossInvocations : Prop :=
  ∀ (m m' : BitVec 32) (swap : BitVec 17) (shr : BitVec 1) (add s : BitVec 16) (byte : Nat → Byte),
    m &&& m' = 0 →
    accumulate ⟨m', swap, shr, 0⟩ byte (accumulate ⟨m, swap, shr, add⟩ byte s) =
      accumulate ⟨m ||| m', swap, shr, add⟩ byte s

/-! ### Priority -/

/-- 44_priority.md R251 and R252. -/
def Obligations.PriorityFromImmediateOrWindow : Prop :=
  ∀ s c (v : BitVec 3) (src : BitVec 2) (shr mask : BitVec 3), s.ctx = some c →
    GoesOn s c (exec (.actPriImm v) s) c.run { c.pkt with priority := v } ∧
    GoesOn s c (exec (.actPriFld src shr mask) s) c.run
      { c.pkt with priority :=
          (BitVec.ofNat 3
            ((if src = 0 then c.pkt.ps.win.lookup16.toNat / 256
              else if src = 1 then c.pkt.ps.win.lookup16.toNat % 256
              else if src = 2 then c.pkt.ps.win.lookup8_0.toNat
              else c.pkt.ps.win.lookup8_1.toNat) / 2 ^ shr.toNat)) &&& mask }

/-! ### Host commands -/

/-- 45_packet.md R260. -/
def Obligations.CreateMakesAFreshNormalPacket : Prop :=
  ∀ s (bytes : List Byte) (id32 : BitVec 32),
    Creates s (exec (.pktCreate bytes id32) s)
      { owner := .host, bytes := bytes, pktId := 0#32 ++ id32, recircCnt := 0, signature := [],
        ing := ⟨none, none, none, 0, 0, 0, 0⟩, egr := ⟨none, none, none, 0, 0, 0, 0⟩,
        activeView := .ing, teop := none, priority := 0, outcome := .none, cause := .noError,
        q := ⟨0, 0, 0, List.replicate s.params.nQctr 0⟩, ps := .cleared }

/-- 45_packet.md R261: the clone's id by its kind, and every other field carried along or fresh; the source
does not change. -/
def Obligations.CloneMakesAFreshIdentity : Prop :=
  ∀ s src p (kind : CloneKind) (pipe : BitVec 4) (copy : BitVec 16),
    s.packets.get src = some p → p.owner = .host →
    let id := match kind with
      | .mc => mcCpy (p.pktId.extractLsb' 0 32) pipe copy
      | .mirror => mirrCpy (p.pktId.extractLsb' 0 32) pipe copy
      | .mcC2c => mcC2c (p.pktId.extractLsb' 0 32) pipe copy
    Creates s (exec (.pktClone src kind pipe copy 1) s) { p with pktId := id } ∧
    Creates s (exec (.pktClone src kind pipe copy 0) s)
      { owner := .host, bytes := p.bytes, pktId := id, recircCnt := 0, signature := [],
        ing := .cleared, egr := .cleared, activeView := .ing, teop := none, priority := 0,
        outcome := .none, cause := .noError, q := .cleared s.params.nQctr, ps := .cleared }

/-- 45_packet.md R267: what PKT.RESET keeps and clears, and that a second one changes nothing. -/
def Obligations.ResetClearsAllButIdentity : Prop :=
  ∀ s p q, s.packets.get p = some q → q.owner = .host →
    let q' : Packet :=
      { owner := .host, bytes := q.bytes, pktId := q.pktId, recircCnt := q.recircCnt,
        signature := q.signature, ing := ⟨none, none, none, 0, 0, 0, 0⟩,
        egr := ⟨none, none, none, 0, 0, 0, 0⟩, activeView := .ing, teop := none, priority := 0,
        outcome := .none, cause := .noError, q := ⟨0, 0, 0, List.replicate s.params.nQctr 0⟩,
        ps := ⟨0, 0, 0, 0, 0, 0, 0, 0, 0, ⟨0, 0, 0⟩, 0, 0, 0, 0, ⟨0, 0, 0, 0⟩, ⟨0, 0, 0, 0⟩⟩ }
    Becomes s (exec (.pktReset p) s) p q' ∧
    ∀ t, exec (.pktReset p) s = .next t → exec (.pktReset p) t = .next t

/-- 45_packet.md R268. -/
def Obligations.SetEgressCopiesTheIngressView : Prop :=
  ∀ s p q, s.packets.get p = some q → q.owner = .host →
    Becomes s (exec (.pktSetEgress p) s) p { q with egr := q.ing, activeView := .egr }

/-- 45_packet.md R269: the packet is gone, nothing else changes, and a command naming a packet that is gone has
no step, then or later. -/
def Obligations.RetireEndsThePacket : Prop :=
  ∀ s p q, s.packets.get p = some q → q.owner = .host →
    (∃ t, exec (.pktRetire p) s = .next t ∧ SameButPacket s t p ∧ t.nextPkt = s.nextPkt ∧
      t.packets.get p = none) ∧
    ∀ u, u.packets.get p = none →
      ∀ (kind : CloneKind) (id32 : BitVec 32) (t4 pipe : BitVec 4) (copy : BitVec 16) (carry : BitVec 1)
        (w : FieldWrite) (k : Nat),
        ∀ i ∈ [Instr.parse p k, .pktClone p kind pipe copy carry, .pktReset p, .pktSetEgress p, .pktRetire p,
          .pktWr p w, .pktId p id32, .pktType p t4, .pktIdMcCpy p id32 pipe copy,
          .pktIdMirrCpy p id32 pipe copy, .pktIdMcC2c p id32 pipe copy], ∃ e, exec i u = .fault e

/-- 45_packet.md R270: each writable field, truncated to its width; of the counters, those that exist (10_state.md
R55; beyond `N_QCTR` there is no field, log 23). -/
def Obligations.WrStoresOneField : Prop :=
  ∀ s p q (d : Dir) (v : W64) (h : Handle) (b : List Byte) (k : Nat),
    s.packets.get p = some q → q.owner = .host →
    let wr := fun w => exec (.pktWr p w) s
    let view := match d with | .ing => q.ing | .egr => q.egr
    let put := fun (x : View) => match d with | .ing => { q with ing := x } | .egr => { q with egr := x }
    Becomes s (wr (.num (.version d) v)) p (put { view with version := v.extractLsb' 0 1 }) ∧
    Becomes s (wr (.num (.metadataAdded d) v)) p (put { view with metadataAdded := v.extractLsb' 0 1 }) ∧
    Becomes s (wr (.num (.origHdrLen d) v)) p (put { view with origHdrLen := v.extractLsb' 0 16 }) ∧
    Becomes s (wr (.num (.parsableHdrLen d) v)) p (put { view with parsableHdrLen := v.extractLsb' 0 16 }) ∧
    Becomes s (wr (.num .l1Cnt v)) p { q with q := { q.q with l1Cnt := v.extractLsb' 0 16 } } ∧
    Becomes s (wr (.num .l2Cnt v)) p { q with q := { q.q with l2Cnt := v.extractLsb' 0 16 } } ∧
    Becomes s (wr (.num .mcGrpId v)) p { q with q := { q.q with mcGrpId := v.extractLsb' 0 16 } } ∧
    (k < s.params.nQctr → Becomes s (wr (.num (.copyCtr k) v)) p
      { q with q := { q.q with copyCtr := q.q.copyCtr.set k (v.extractLsb' 0 16) } }) ∧
    Becomes s (wr (.num .recircCnt v)) p { q with recircCnt := v.extractLsb' 0 8 } ∧
    Becomes s (wr (.num .priority v)) p { q with priority := v.extractLsb' 0 3 } ∧
    Becomes s (wr (.handle (.phv d) h)) p (put { view with phv := h }) ∧
    Becomes s (wr (.handle (.port d) h)) p (put { view with port := h }) ∧
    Becomes s (wr (.handle (.clot d) h)) p (put { view with clot := h }) ∧
    Becomes s (wr (.handle .teop h)) p { q with teop := h } ∧
    Becomes s (wr (.bytes .signature b)) p { q with signature := b } ∧
    Becomes s (wr (.bytes .bytes b)) p { q with bytes := b }

/-- 45_packet.md R262 to R266: each encoder's id, by the fields of 30_encoding.md R113. -/
def Obligations.IdentityEncodersWriteTheId : Prop :=
  ∀ s p q (id32 : BitVec 32) (t4 pipe : BitVec 4) (copy : BitVec 16),
    s.packets.get p = some q → q.owner = .host →
    Becomes s (exec (.pktId p id32) s) p { q with pktId := q.pktId.extractLsb' 32 32 ++ id32 } ∧
    Becomes s (exec (.pktType p t4) s) p { q with pktId := t4 ++ q.pktId.extractLsb' 0 60 } ∧
    Becomes s (exec (.pktIdMcCpy p id32 pipe copy) s) p
      { q with pktId := 3#4 ++ 0#8 ++ pipe ++ copy ++ id32 } ∧
    Becomes s (exec (.pktIdMirrCpy p id32 pipe copy) s) p
      { q with pktId := 1#4 ++ 0#8 ++ pipe ++ copy ++ id32 } ∧
    Becomes s (exec (.pktIdMcC2c p id32 pipe copy) s) p
      { q with pktId := 3#4 ++ 1#1 ++ 0#7 ++ pipe ++ copy ++ id32 }

/-- 45_packet.md R271: a clone has its source's base id, a copy encoder's result the given one, and PKT.TYPE
keeps it, so it is constant along any chain of clones and type changes; the setters commute and are idempotent;
the decoders read the sub-fields back. -/
def Obligations.LineageIsKept : Prop :=
  ∀ (x : BitVec 64) (id32 id' : BitVec 32) (t4 t' pipe : BitVec 4) (copy : BitVec 16),
    (∀ s src p (kind : CloneKind) (carry : BitVec 1), s.packets.get src = some p → p.owner = .host →
      ∃ t q, exec (.pktClone src kind pipe copy carry) s = .next t ∧ t.packets.get s.nextPkt = some q ∧
        q.pktId = cloneId kind (idBase p.pktId) pipe copy ∧ idBase q.pktId = idBase p.pktId) ∧
    (∀ chain : List (BitVec 4 ⊕ (CloneKind × BitVec 4 × BitVec 16)),
      idBase (chain.foldl (fun x o => match o with
        | .inl t => setType x t
        | .inr (kind, pipe, copy) => cloneId kind (idBase x) pipe copy) x) = idBase x) ∧
    idBase (mcCpy id32 pipe copy) = id32 ∧ idBase (mirrCpy id32 pipe copy) = id32 ∧
    idBase (mcC2c id32 pipe copy) = id32 ∧ idBase (setType x t4) = idBase x ∧
    idType (mcCpy id32 pipe copy) = 3 ∧ idType (mirrCpy id32 pipe copy) = 1 ∧
    idType (mcC2c id32 pipe copy) = 3 ∧ idC2c (mcC2c id32 pipe copy) = 1 ∧
    idC2c (mcCpy id32 pipe copy) = 0 ∧ idC2c (mirrCpy id32 pipe copy) = 0 ∧
    (∀ y ∈ [mcCpy id32 pipe copy, mirrCpy id32 pipe copy, mcC2c id32 pipe copy],
      idPipe y = pipe ∧ idCopy y = copy) ∧
    setBase (setType x t4) id32 = setType (setBase x id32) t4 ∧
    setBase (setBase x id') id32 = setBase x id32 ∧ setType (setType x t') t4 = setType x t4

/-- 10_state.md R21, 45_packet.md R269, 93_implementation_defined.md U14: a command on a packet that does
not exist or that the host does not own has no step; nor has PKT.WR of a counter beyond `N_QCTR` (log 23)
or, by the model's choice, CFG.WR of an absent instance (log 17). An ACT sub-index above 3 is refused (DEDUCED
from R78, log 28). -/
def Obligations.CommandsOutsideTheirDomainHaveNoStep : Prop :=
  ∀ s p (kind : CloneKind) (id32 : BitVec 32) (t4 pipe : BitVec 4) (copy : BitVec 16) (carry : BitVec 1)
    (w : FieldWrite) (k : Nat) (v w1 : W64) (i j : Nat),
    (s.params.nQctr ≤ k → exec (.pktWr p (.num (.copyCtr k) v)) s = .fault .noSuchField) ∧
    (s.insts[k]? = none → ∀ m, exec (.cfgWr k m i v w1) s = .fault .noSuchInstance) ∧
    (s.insts[k]? ≠ none → 4 ≤ j → exec (.cfgWr k (.act j) i v w1) s = .refused .badConfigIndex) ∧
    ((∀ q, s.packets.get p = some q → q.owner ≠ .host) →
      (∀ i ∈ [Instr.pktClone p kind pipe copy carry, .pktReset p, .pktSetEgress p, .pktRetire p,
          .pktId p id32, .pktType p t4, .pktIdMcCpy p id32 pipe copy, .pktIdMirrCpy p id32 pipe copy,
          .pktIdMcC2c p id32 pipe copy], exec i s = .fault .notOwned) ∧
      (fieldExists s.params.nQctr w = true → exec (.pktWr p w) s = .fault .notOwned))

/-- 20_memory.md R78, 30_encoding.md R111: what one CFG.WR writes; every other row and register of the
instance, its snapshot and its parse stay. Word 7 of an ActionRow does not exist. The `…Written` flags are how
the model holds what the host has written (10_state.md R24, log 8). -/
def Obligations.CfgWrWritesOneRowOrRegister : Prop :=
  ∀ s k inst (i j : Nat) (w0 w1 : W64), s.insts[k]? = some inst →
    let a := inst.cfg
    let wr := fun m i => exec (.cfgWr k m i w0 w1) s
    (i < 256 → Configures s (wr .tcam i) k inst fun b =>
      b = { a with tcam := b.tcam } ∧ Updated a.tcam b.tcam i (w0, w1)) ∧
    (i < 256 → Configures s (wr .ea i) k inst fun b =>
      b = { a with ea := b.ea } ∧ Updated a.ea b.ea i w0) ∧
    (i < 256 → j < 3 → Configures s (wr (.act j) i) k inst fun b =>
      b = { a with act := b.act } ∧ ∀ n, b.act.get n =
        if n = 8 * i + 2 * j then some w0 else if n = 8 * i + 2 * j + 1 then some w1 else a.act.get n) ∧
    (i < 256 → Configures s (wr (.act 3) i) k inst fun b =>
      b = { a with act := b.act } ∧ Updated a.act b.act (8 * i + 6) w0) ∧
    (i < 32 → Configures s (wr (.csum .e0) i) k inst fun b =>
      b = { a with csumRow0 := b.csumRow0 } ∧ Updated a.csumRow0 b.csumRow0 i (w0, w1)) ∧
    (i < 32 → Configures s (wr (.csum .e1) i) k inst fun b =>
      b = { a with csumRow1 := b.csumRow1 } ∧ Updated a.csumRow1 b.csumRow1 i (w0, w1)) ∧
    Configures s (wr .ctl 0) k inst
      (fun b => b = { a with startState := w0.extractLsb' 0 8, startWritten := true }) ∧
    Configures s (wr .ctl 1) k inst (fun b => b = { a with
      defOff16 := w0.extractLsb' 0 6, defOff8_0 := w0.extractLsb' 6 6, defOff8_1 := w0.extractLsb' 12 6,
      offWritten := true }) ∧
    Configures s (wr .ctl 2) k inst
      (fun b => b = { a with maxIter := w0.extractLsb' 0 16, iterWritten := true })

/-- 30_encoding.md R130: a command code outside R115 names no command, whatever follows it (a first word
with a bit above the code is none either, log 14); CFG.WR to CTL index 3 or above, or to a row index outside
its memory, is refused. -/
def Obligations.ReservedCodesAndIndicesAreRefused : Prop :=
  (∀ (w : W64) (ws : List W64),
    w.toNat ∉ [0x00, 0x10, 0x11, 0x12, 0x13, 0x14, 0x15, 0x20, 0x21, 0x22, 0x23, 0x24, 0x30] →
    decode .port (w :: ws) = .error (if w.toNat < 256 then .reservedOpcode else .reservedBits)) ∧
  ∀ s k inst (i j : Nat) (w0 w1 : W64), s.insts[k]? = some inst →
    (256 ≤ i → ∀ m ∈ [CfgMem.tcam, .ea, .act j],
      exec (.cfgWr k m i w0 w1) s = .refused .badConfigIndex) ∧
    (32 ≤ i → ∀ e, exec (.cfgWr k (.csum e) i w0 w1) s = .refused .badConfigIndex) ∧
    (3 ≤ i → exec (.cfgWr k .ctl i w0 w1) s = .refused .badConfigIndex)

/-! ### Rules of the whole machine -/

/-- 10_state.md R42, 20_memory.md R85: the live configuration of any instance has no influence on a step of
a parsing instance, and that step does not change it. -/
def Obligations.ParseReadsOnlyItsSnapshot : Prop :=
  ∀ s (j k : Nat) (cfg : InstCfg), s.agent = .inst k →
    step (s.withCfg j cfg) = andThen (step s) fun t => t.withCfg j cfg

/-- 20_memory.md R84, 60_exceptions.md R306, R312: a step of an instance leaves alone every other instance,
every other packet, every configuration and snapshot, every container of another PHV, and of its own packet
the bytes, the identity, the views and the queueing scratch. -/
def Obligations.InstanceStepTouchesOnlyItsParse : Prop :=
  ∀ s t k c, s.agent = .inst k → s.ctxOf k = some c → step s = .next t →
    t.params = s.params ∧ t.cmds = s.cmds ∧ t.nextPkt = s.nextPkt ∧ t.turns = s.turns.tail ∧
    (∀ j, j ≠ k → t.insts[j]? = s.insts[j]?) ∧
    (t.insts[k]?).map (fun i => (i.dir, i.cfg, i.snap)) =
      (s.insts[k]?).map (fun i => (i.dir, i.cfg, i.snap)) ∧
    (∀ q, q ≠ c.pid → t.packets.get q = s.packets.get q) ∧
    (∀ g d, (c.pkt.view c.dir).phv ≠ some g → phvRead t.phvs g d = phvRead s.phvs g d) ∧
    ∃ q, t.packets.get c.pid = some q ∧ q.bytes = c.pkt.bytes ∧ q.pktId = c.pkt.pktId ∧
      q.recircCnt = c.pkt.recircCnt ∧ q.signature = c.pkt.signature ∧ q.ing = c.pkt.ing ∧
      q.egr = c.pkt.egr ∧ q.activeView = c.pkt.activeView ∧ q.teop = c.pkt.teop ∧ q.q = c.pkt.q

/-- 10_state.md R21, R41, R57: a step of the host leaves alone every packet that an instance owns, every
PHV, and the snapshot and the parse of every parsing instance. -/
def Obligations.HostStepLeavesOwnedPacketsAlone : Prop :=
  ∀ s t, s.agent = .host → step s = .next t → (∀ p q, s.packets.get p = some q → p < s.nextPkt) →
    t.params = s.params ∧ t.phvs = s.phvs ∧
    (∀ p q, s.packets.get p = some q → q.owner ≠ .host → t.packets.get p = some q) ∧
    (∀ (k : Nat) i, s.insts[k]? = some i → i.run ≠ none →
      ∃ cfg, t.insts[k]? = some { i with cfg := cfg })
end

