-- ==== Sys2Proof/Laws/Memory.lean ====
section
/-! SUPPORT. The laws of sparse memories: read after write, and that every operation keeps the form. -/

namespace Sys2Proof.Machine.Memory

variable {α : Type}

@[simp] theorem get_nil (k : Nat) : Memory.get ([] : Memory α) k = none := rfl

/-- Read after write: the written key holds the value, every other key what it held. -/
theorem get_set (m : Memory α) (k k' : Nat) (v : α) :
    (m.set k v).get k' = if k' = k then some v else m.get k' := by
  induction m with
  | nil => simp [Memory.set, Memory.get, eq_comm]
  | cons e r ih =>
    obtain ⟨a, x⟩ := e
    simp only [Memory.set]
    split
    · simp [Memory.get, eq_comm]
    · split
      · subst_vars; by_cases h : a = k' <;> simp [Memory.get, h, Ne.symm]
      · by_cases h : a = k'
        · subst h; simp [Memory.get]; omega
        · simp [Memory.get, h, ih]

@[simp] theorem get_set_same (m : Memory α) (k : Nat) (v : α) : (m.set k v).get k = some v := by
  simp [get_set]

@[simp] theorem get_set_other (m : Memory α) {k k' : Nat} (v : α) (h : k' ≠ k) :
    (m.set k v).get k' = m.get k' := by
  simp [get_set, h]

/-- The later of two writes to one key stands. -/
@[simp] theorem set_set (m : Memory α) (k : Nat) (v w : α) : (m.set k v).set k w = m.set k w := by
  induction m with
  | nil => simp [Memory.set]
  | cons e r ih =>
    obtain ⟨a, x⟩ := e
    by_cases h1 : k < a
    · simp [h1, Memory.set]
    · by_cases h2 : k = a <;> simp [h1, h2, Memory.set, ih]

/-- A removed key holds nothing, every other key what it held. -/
theorem get_erase (m : Memory α) (k k' : Nat) :
    (m.erase k).get k' = if k' = k then none else m.get k' := by
  induction m with
  | nil => simp [Memory.erase]
  | cons e r ih =>
    obtain ⟨a, x⟩ := e
    simp only [Memory.erase, List.filter_cons] at ih ⊢
    by_cases h : a = k
    · subst h
      by_cases h' : k' = a
      · simpa [h'] using ih
      · simp only [ne_eq, not_true_eq_false, decide_false, Bool.false_eq_true, if_false]
        rw [ih]; simp [h', Memory.get, Ne.symm h']
    · simp only [ne_eq, h, not_false_eq_true, decide_true, if_true, Memory.get, ih]
      by_cases h' : a = k' <;> simp_all

/-- Every entry after a write is the written one or was there. -/
theorem mem_set {m : Memory α} {k : Nat} {v : α} {e : Nat × α} (h : e ∈ m.set k v) :
    e = (k, v) ∨ e ∈ m := by
  induction m with
  | nil => simpa [Memory.set] using h
  | cons d r ih =>
    obtain ⟨a, x⟩ := d
    simp only [Memory.set] at h
    split at h
    · simpa using h
    · split at h
      · simp at h ⊢; tauto
      · simp only [List.mem_cons] at h ⊢
        rcases h with h | h
        · exact .inr (.inl h)
        · exact (ih h).imp_right .inr

/-- A write keeps the canonical form. -/
theorem wf_set {m : Memory α} (h : m.wf) (k : Nat) (v : α) : (m.set k v).wf := by
  induction m with
  | nil => simp [Memory.set]
  | cons d r ih =>
    obtain ⟨a, x⟩ := d
    obtain ⟨h1, h2⟩ := List.pairwise_cons.1 h
    simp only [Memory.set]
    split
    · rename_i hk
      refine List.pairwise_cons.2 ⟨fun e he => ?_, h⟩
      rcases List.mem_cons.1 he with rfl | he
      · exact hk
      · exact Nat.lt_trans hk (h1 e he)
    · split
      · rename_i hk; subst hk; exact List.pairwise_cons.2 ⟨h1, h2⟩
      · refine List.pairwise_cons.2 ⟨fun e he => ?_, ih h2⟩
        rcases mem_set he with rfl | he
        · simp; omega
        · exact h1 e he

/-- A removal keeps the canonical form. -/
theorem wf_erase {m : Memory α} (h : m.wf) (k : Nat) : (m.erase k).wf := List.Pairwise.filter _ h

/-- An entry of a canonical memory is what its key holds. -/
theorem get_of_mem {m : Memory α} (h : m.wf) {e : Nat × α} (he : e ∈ m) : m.get e.1 = some e.2 := by
  induction m with
  | nil => simp at he
  | cons d r ih =>
    obtain ⟨h1, h2⟩ := List.pairwise_cons.1 h
    rcases List.mem_cons.1 he with rfl | he
    · simp [Memory.get]
    · have := h1 e he
      simp [Memory.get, ih h2 he, Nat.ne_of_lt this]

/-- What a key holds is listed. -/
theorem mem_of_get {m : Memory α} {k : Nat} {v : α} (h : m.get k = some v) : (k, v) ∈ m := by
  induction m with
  | nil => cases h
  | cons d r ih =>
    obtain ⟨a, x⟩ := d
    unfold Memory.get at h
    split at h
    · rename_i e
      cases h
      exact e ▸ List.mem_cons_self
    · exact List.mem_cons_of_mem _ (ih h)

end Sys2Proof.Machine.Memory

namespace Sys2Proof.Machine

/-- Two containers have one key only if they are one container. -/
theorem phvKey_inj {h g : Nat} {i j : BitVec 8} (e : phvKey h i = phvKey g j) : h = g ∧ i = j := by
  have hi := i.isLt; have hj := j.isLt
  simp only [phvKey] at e
  exact ⟨by omega, BitVec.eq_of_toNat_eq (by omega)⟩

/-- A PHV write is seen at its container and nowhere else. -/
theorem phvRead_phvWrite (m : Memory PhvVal) (h g : Nat) (i j : BitVec 8) (v : PhvVal) :
    phvRead (phvWrite m h i v) g j = if (g, j) = (h, i) then some v else phvRead m g j := by
  simp only [phvRead, phvWrite, Memory.get_set, Prod.mk.injEq]
  by_cases e : g = h ∧ j = i
  · simp [e]
  · rw [if_neg (fun c => e (phvKey_inj c)), if_neg e]

end Sys2Proof.Machine
end

