-- ==== Sys2Proof/Laws/Rows.lean ====
section
/-! SUPPORT. The laws of the row encodings: a field cut out of an appended word, each row read back from
the word its encoder makes, and the bit that enables a micro-operation. -/

namespace Sys2Proof

/-- A field above the lower part of an appended word. -/
theorem extract_append_high {w v n : Nat} (x : BitVec w) (y : BitVec v) (s : Nat) (h : v ≤ s) :
    (x ++ y).extractLsb' s n = x.extractLsb' (s - v) n := by
  apply BitVec.eq_of_getLsbD_eq
  intro i hi
  simp only [BitVec.getLsbD_extractLsb', BitVec.getLsbD_append, hi, decide_true, Bool.true_and]
  rw [if_neg (by omega), Nat.sub_add_comm h]

/-- A field inside the lower part of an appended word. -/
theorem extract_append_low {w v n : Nat} (x : BitVec w) (y : BitVec v) (s : Nat) (h : s + n ≤ v) :
    (x ++ y).extractLsb' s n = y.extractLsb' s n := by
  apply BitVec.eq_of_getLsbD_eq
  intro i hi
  simp only [BitVec.getLsbD_extractLsb', BitVec.getLsbD_append, hi, decide_true, Bool.true_and]
  rw [if_pos (by omega)]

/-- The whole of a word. -/
theorem extract_all {n : Nat} (x : BitVec n) : x.extractLsb' 0 n = x := by
  apply BitVec.eq_of_getLsbD_eq
  intro i hi
  simp [hi]

/-- Two neighbouring fields of a word are one field. -/
theorem extract_join {w : Nat} (x : BitVec w) (s a b c : Nat) (h : c = b + a) :
    x.extractLsb' (s + a) b ++ x.extractLsb' s a = (x.extractLsb' s c).cast h := by
  subst h
  apply BitVec.eq_of_getLsbD_eq
  intro i hi
  simp only [BitVec.getLsbD_append, BitVec.getLsbD_extractLsb', BitVec.getLsbD_cast, hi, decide_true,
    Bool.true_and]
  split
  · simp [*]
  · rw [decide_eq_true (by omega), Bool.true_and]; congr 1; omega

/-- A one-bit field is 1 exactly when its bit is set. -/
theorem extract_one_eq_one {w : Nat} (x : BitVec w) (k : Nat) : x.extractLsb' k 1 = 1#1 ↔ x.getLsbD k = true := by
  constructor
  · intro h; simpa using congrArg (fun y => y.getLsbD 0) h
  · intro h
    apply BitVec.eq_of_getLsbD_eq
    intro i hi
    obtain rfl : i = 0 := by omega
    simpa using h

/-- A one-bit field is 0 exactly when its bit is clear. -/
theorem extract_one_eq_zero {w : Nat} (x : BitVec w) (k : Nat) :
    x.extractLsb' k 1 = 0#1 ↔ x.getLsbD k = false := by
  constructor
  · intro h; simpa using congrArg (fun y => y.getLsbD 0) h
  · intro h
    apply BitVec.eq_of_getLsbD_eq
    intro i hi
    obtain rfl : i = 0 := by omega
    simpa using h

/-- A TcamRow word read back. -/
theorem decTcam_encTcam (r : TcamRow) : decTcam (encTcam r) = r := by
  cases r
  simp only [decTcam, TcamRow.mk.injEq]
  unfold encTcam TcamRow.bits
  refine ⟨?_, ?_, ?_, ?_, ?_, ?_, ?_, ?_⟩ <;>
  repeat' first
    | exact extract_all _
    | (refine (extract_append_low _ _ _ ?_).trans ?_; decide)
    | (refine (extract_append_high _ _ _ ?_).trans ?_; decide)

/-- The 44 bits of a TcamRow word: bits 63:44 play no part. -/
theorem decTcam_bits (w : W64) : (decTcam w).bits = w.extractLsb' 0 44 := by
  unfold TcamRow.bits decTcam
  apply BitVec.eq_of_getLsbD_eq
  intro i hi
  rw [BitVec.getLsbD_append, BitVec.getLsbD_append, BitVec.getLsbD_append, BitVec.getLsbD_append,
    BitVec.getLsbD_append, BitVec.getLsbD_append, BitVec.getLsbD_append]
  simp only [BitVec.getLsbD_extractLsb']
  split_ifs <;>
    rw [decide_eq_true (by omega), decide_eq_true (by omega)] <;> congr 2 <;> omega

/-- An EaRow read back. -/
theorem decEa_encEa (r : EaRow) : decEa (encEa r) = r := by
  cases r
  simp only [decEa, EaRow.mk.injEq]
  unfold encEa
  refine ⟨?_, ?_, ?_, ?_, ?_, ?_, ?_, ?_, ?_, ?_, ?_, ?_, ?_, ?_⟩ <;>
  repeat' first
    | exact extract_all _
    | (refine (extract_append_low _ _ _ ?_).trans ?_; decide)
    | (refine (extract_append_high _ _ _ ?_).trans ?_; decide)

/-- A control word `W6` read back. -/
theorem decActCtl_encActCtl (r : ActCtl) : decActCtl (encActCtl r) = r := by
  cases r
  simp only [decActCtl, ActCtl.mk.injEq]
  unfold encActCtl
  refine ⟨?_, ?_, ?_, ?_, ?_, ?_, ?_, ?_, ?_, ?_⟩ <;>
  repeat' first
    | exact extract_all _
    | (refine (extract_append_low _ _ _ ?_).trans ?_; decide)
    | (refine (extract_append_high _ _ _ ?_).trans ?_; decide)

/-- A ChecksumCtrlRow read back. -/
theorem decCsum_encCsum (r : CsumRow) : decCsum (encCsum0 r) (encCsum1 r) = r := by
  obtain ⟨⟨_, _, _, _⟩, _, _, _, _⟩ := r
  simp only [decCsum, CsumRow.mk.injEq, CsumLanes.mk.injEq]
  unfold encCsum0 encCsum1
  refine ⟨⟨?_, ?_, ?_, ?_⟩, ?_, ?_, ?_, ?_⟩ <;>
  repeat' first
    | exact extract_all _
    | (refine (extract_append_low _ _ _ ?_).trans ?_; decide)
    | (refine (extract_append_high _ _ _ ?_).trans ?_; decide)

/-- An enabled lane slot read back from the word that holds it. -/
theorem decLane_encLane (k : Fin 4) (l : Lane) : decLane (encLane k l) (laneLo k) = .ok l := by
  obtain ⟨a, b, c, d, e⟩ := l
  unfold decLane encLane laneLo
  split
  · rw [if_pos]
    · simp only [Except.ok.injEq, Lane.mk.injEq]
      unfold encLaneSlot
      refine ⟨?_, ?_, ?_, ?_, ?_⟩ <;>
      repeat' first
        | exact extract_all _
        | (refine (extract_append_low _ _ _ ?_).trans ?_; decide)
        | (refine (extract_append_high _ _ _ ?_).trans ?_; decide)
    · unfold encLaneSlot
      repeat' first
        | exact extract_all _
        | (refine (extract_append_low _ _ _ ?_).trans ?_; decide)
  · rw [if_pos]
    · simp only [Except.ok.injEq, Lane.mk.injEq]
      unfold encLaneSlot
      refine ⟨?_, ?_, ?_, ?_, ?_⟩ <;>
      repeat' first
        | exact extract_all _
        | (refine (extract_append_low _ _ _ ?_).trans ?_; decide)
        | (refine (extract_append_high _ _ _ ?_).trans ?_; decide)
    · unfold encLaneSlot
      repeat' first
        | exact extract_all _
        | (refine (extract_append_low _ _ _ ?_).trans ?_; decide)
        | (refine (extract_append_high _ _ _ ?_).trans ?_; decide)

end Sys2Proof
end

