-- ==== Sys2Proof/Laws/Launch.lean ====
section
/-! SUPPORT. The launch checks of PARSE say what `CanMatch`, `WrittenFor` and `ShiftsDefined` say. -/

namespace Sys2Proof.Machine

/-- Two appended values are equal exactly if their parts are. -/
theorem append_eq_append {n m : Nat} (a b : BitVec n) (c d : BitVec m) : a ++ c = b ++ d ↔ a = b ∧ c = d := by
  refine ⟨fun h => ?_, fun ⟨h1, h2⟩ => by rw [h1, h2]⟩
  have hi := congrArg (BitVec.extractLsb' m n) h
  have lo := congrArg (BitVec.extractLsb' 0 m) h
  simp only [BitVec.extractLsb'_append_eq_left, BitVec.extractLsb'_append_eq_right] at hi lo
  exact ⟨hi, lo⟩

/-- Masked equality of appended values is masked equality of their parts. -/
theorem masked_append {n m : Nat} {a b x : BitVec n} {c d y : BitVec m} {P : Prop}
    (h : a &&& x = b &&& x ↔ P) :
    (a ++ c) &&& (x ++ y) = (b ++ d) &&& (x ++ y) ↔ P ∧ c &&& y = d &&& y := by
  rw [BitVec.and_append, BitVec.and_append, append_eq_append, h]

/-- The ternary test of a row is that of each of its fields. -/
theorem ternary_bits (k v m : TcamRow) :
    ternary k.bits v.bits m.bits = true ↔
      ((((((k.ver1 &&& m.ver1 = v.ver1 &&& m.ver1 ∧ k.ver0 &&& m.ver0 = v.ver0 &&& m.ver0) ∧
        k.ctrNeg &&& m.ctrNeg = v.ctrNeg &&& m.ctrNeg) ∧ k.ctrZero &&& m.ctrZero = v.ctrZero &&& m.ctrZero) ∧
        k.currState &&& m.currState = v.currState &&& m.currState) ∧
        k.lookup8_1 &&& m.lookup8_1 = v.lookup8_1 &&& m.lookup8_1) ∧
        k.lookup8_0 &&& m.lookup8_0 = v.lookup8_0 &&& m.lookup8_0) ∧
        k.lookup16 &&& m.lookup16 = v.lookup16 &&& m.lookup16 :=
  beq_iff_eq.trans (masked_append (masked_append (masked_append (masked_append (masked_append
    (masked_append (masked_append Iff.rfl)))))))

/-- The counter flags take three values, which the counters 0, 1 and -128 show. -/
theorem ctr_flags (ctr : BitVec 8) :
    ∃ x ∈ [0x00#8, 0x01#8, 0x80#8], ctrZero x = ctrZero ctr ∧ ctrNeg x = ctrNeg ctr := by
  revert ctr; decide

/-- `rowCanMatch` is that some search key of the version matches the row. -/
theorem rowCanMatch_iff (v m : W64) (ver : BitVec 1) :
    rowCanMatch v m ver = true ↔
      ∃ win st ctr, ternary (searchKey win st ctr ver).bits (decTcam v).bits (decTcam m).bits = true := by
  simp only [rowCanMatch, List.any_eq_true]
  constructor
  · rintro ⟨ctr, -, h⟩
    exact ⟨_, _, ctr, h⟩
  · rintro ⟨win, st, ctr, h⟩
    obtain ⟨x, hx, hz, hn⟩ := ctr_flags ctr
    refine ⟨x, hx, ?_⟩
    rw [ternary_bits] at h ⊢
    obtain ⟨⟨⟨⟨h, -⟩, -⟩, -⟩, -⟩ := h
    refine ⟨⟨⟨⟨?_, rfl⟩, rfl⟩, rfl⟩, rfl⟩
    simpa only [searchKey, hz, hn] using h

/-- `canMatch` is `CanMatch`. -/
theorem canMatch_iff (c : InstCfg) (ver : BitVec 1) (i : Nat) : c.canMatch ver i = true ↔ CanMatch c ver i := by
  unfold InstCfg.canMatch CanMatch
  cases h : c.tcam.get i with
  | none => simp
  | some e =>
    refine (rowCanMatch_iff e.1 e.2 ver).trans ⟨fun ⟨w, st, ctr, h⟩ => ⟨_, _, w, st, ctr, rfl, h⟩, ?_⟩
    rintro ⟨v, m, w, st, ctr, h, h'⟩
    cases h
    exact ⟨w, st, ctr, h'⟩

/-- An entry that a key of the version matches can match (40_match.md R143). -/
theorem canMatch_of_rowMatches {c : InstCfg} {ver : BitVec 1} {win : Window} {st ctr : BitVec 8} {i : Nat}
    (h : rowMatches c (searchKey win st ctr ver).bits i = true) : CanMatch c ver i := by
  unfold rowMatches at h
  split at h
  · cases h
  · rename_i v m e
    exact ⟨v, m, win, st, ctr, e, by rw [decTcam_bits, decTcam_bits]; exact h⟩

/-- A one-bit field set, as a bit of its word. -/
theorem extract_ne_one (w : W64) (k : Nat) : (w.extractLsb' k 1 != 1#1) = !w.getLsbD k := by
  have : (w.extractLsb' k 1 = 1#1) ↔ w.getLsbD k = true := extract_one_eq_one w k
  cases h : w.getLsbD k <;> simp_all

/-- `csumWritten`, row by row. -/
theorem csumWritten_iff (c : InstCfg) (w : W64) :
    c.csumWritten w = true ↔
      (w.getLsbD 9 = true → c.csumRow0.get (w.extractLsb' 10 5).toNat ≠ none) ∧
      (w.getLsbD 15 = true → c.csumRow1.get (w.extractLsb' 16 5).toNat ≠ none) := by
  simp only [InstCfg.csumWritten, decActCtl, extract_ne_one, Bool.and_eq_true, Bool.or_eq_true,
    Bool.not_eq_true', Option.isSome_iff_ne_none]
  cases w.getLsbD 9 <;> cases w.getLsbD 15 <;> simp

/-- `entryWritten`, word by word. -/
theorem entryWritten_iff (c : InstCfg) (i : Nat) :
    c.entryWritten i = true ↔ c.ea.get i ≠ none ∧ (∀ n < 7, c.act.get (8 * i + n) ≠ none) ∧
      ∀ w, c.act.get (8 * i + 6) = some w → c.csumWritten w = true := by
  simp only [InstCfg.entryWritten, Bool.and_eq_true, List.all_eq_true, List.mem_range,
    Option.isSome_iff_ne_none, and_assoc]
  refine and_congr_right fun _ => and_congr_right fun h => ?_
  cases e : c.act.get (8 * i + 6) with
  | none => exact absurd e (h 6 (by decide))
  | some w => simp

/-- `written` is `WrittenFor`. -/
theorem written_iff (c : InstCfg) (ver : BitVec 1) : c.written ver = true ↔ WrittenFor c ver := by
  have rows : c.rowsWritten ver = true ↔ ∀ j < 256, c.tcam.get j ≠ none ∧
      (CanMatch c ver j → c.entryWritten j = true) := by
    simp only [InstCfg.rowsWritten, Config.nRows, List.all_eq_true, List.mem_range, Bool.and_eq_true,
      Option.isSome_iff_ne_none, Bool.or_eq_true, Bool.not_eq_true', ← canMatch_iff]
    refine forall₂_congr fun j _ => and_congr_right fun _ => ?_
    cases c.canMatch ver j <;> simp
  simp only [InstCfg.written, Bool.and_eq_true, Bool.or_eq_true, beq_iff_eq, rows, entryWritten_iff,
    csumWritten_iff]
  constructor
  · rintro ⟨⟨⟨h1, h2⟩, h3⟩, h⟩
    have g := fun m => h.resolve_left m
    exact ⟨⟨h1, h2, h3⟩, fun m j hj => (g m j hj).1, fun m j hj hc => ((g m j hj).2 hc).1,
      fun m j hj hc => ((g m j hj).2 hc).2.1, fun m j hj hc => ((g m j hj).2 hc).2.2⟩
  · rintro ⟨⟨h1, h2, h3⟩, ht, he, ha, hs⟩
    refine ⟨⟨⟨h1, h2⟩, h3⟩, or_iff_not_imp_left.2 fun m j hj => ⟨ht m j hj, fun hc => ?_⟩⟩
    exact ⟨he m j hj hc, ha m j hj hc, hs m j hj hc⟩

/-- A version is 0 or 1. -/
theorem version_cases (ver : BitVec 1) : ver = 0 ∨ ver = 1 := by revert ver; decide

/-- `shiftsDefined` is `ShiftsDefined`. -/
theorem shiftsDefined_iff (c : InstCfg) : c.shiftsDefined = true ↔ ShiftsDefined c := by
  simp only [InstCfg.shiftsDefined, List.all_eq_true, Bool.or_eq_true, Bool.not_eq_true',
    Config.wBytes, decEa]
  constructor
  · intro h j w ver hm hc
    refine of_decide_eq_true ((h (j, w) hm).resolve_left fun hf => ?_)
    rw [Bool.or_eq_false_iff] at hf
    rcases version_cases ver with rfl | rfl
    · exact Bool.false_ne_true (hf.1.symm.trans ((canMatch_iff c 0 j).2 hc))
    · exact Bool.false_ne_true (hf.2.symm.trans ((canMatch_iff c 1 j).2 hc))
  · rintro h ⟨j, w⟩ hm
    refine or_iff_not_imp_left.2 fun hf => ?_
    rw [Bool.not_eq_false, Bool.or_eq_true, canMatch_iff, canMatch_iff] at hf
    rcases hf with hc | hc
    · exact decide_eq_true (h j w 0 hm hc)
    · exact decide_eq_true (h j w 1 hm hc)

/-- What a launch that PARSE accepts has: nothing it can read is unwritten, no shift it can come to is
reserved. -/
theorem WrittenFor.slotWords_ne_none {c : InstCfg} {ver : BitVec 1} (h : WrittenFor c ver)
    (hm : c.maxIter ≠ 0) {idx : BitVec 8} (hc : CanMatch c ver idx.toNat) (addr : BitVec 5) {sl : Slot}
    (ha : appliesAt sl = true) (he : engineAt sl = none) : slotWords c idx addr sl ≠ none := by
  have hi : idx.toNat < 256 := idx.isLt
  have hea := h.ea hm _ hi hc
  have act : ∀ n < 7, c.act.get (8 * idx.toNat + n) ≠ none := h.act hm _ hi hc
  have lane : ∀ (n : Nat) (k : Fin 4), n ≤ 4 → n + k.val / 2 < 7 := by intro n k hn; omega
  cases sl <;> simp only [appliesAt, engineAt, reduceCtorEq, Bool.false_eq_true] at ha he <;>
    simp only [slotWords, asList, InstCfg.laneWord, InstCfg.actWord, ne_eq, Option.map_eq_none_iff] <;>
    first
      | exact hea
      | exact act _ (by decide)
      | exact act _ (lane _ _ (by decide))

end Sys2Proof.Machine
end

