-- ==== Sys2Proof/Laws/State.lean ====
section
/-! SUPPORT. One lemma per field per update of the state, true by definition. -/

namespace Sys2Proof.Machine

variable (s : State) (c : Ctx) (k : Nat) (r : Option Run) (f : Phase → Phase) (p : Packet)

@[simp] theorem endTurn_params : s.endTurn.params = s.params := rfl
@[simp] theorem endTurn_insts : s.endTurn.insts = s.insts := rfl
@[simp] theorem endTurn_packets : s.endTurn.packets = s.packets := rfl
@[simp] theorem endTurn_nextPkt : s.endTurn.nextPkt = s.nextPkt := rfl
@[simp] theorem endTurn_phvs : s.endTurn.phvs = s.phvs := rfl
@[simp] theorem endTurn_cmds : s.endTurn.cmds = s.cmds := rfl
@[simp] theorem endTurn_turns : s.endTurn.turns = s.turns.tail := rfl

@[simp] theorem popCmd_params : s.popCmd.params = s.params := rfl
@[simp] theorem popCmd_insts : s.popCmd.insts = s.insts := rfl
@[simp] theorem popCmd_packets : s.popCmd.packets = s.packets := rfl
@[simp] theorem popCmd_nextPkt : s.popCmd.nextPkt = s.nextPkt := rfl
@[simp] theorem popCmd_phvs : s.popCmd.phvs = s.phvs := rfl
@[simp] theorem popCmd_cmds : s.popCmd.cmds = s.cmds.tail := rfl
@[simp] theorem popCmd_turns : s.popCmd.turns = s.turns := rfl

@[simp] theorem setRun_params : (s.setRun k r).params = s.params := rfl
@[simp] theorem setRun_packets : (s.setRun k r).packets = s.packets := rfl
@[simp] theorem setRun_nextPkt : (s.setRun k r).nextPkt = s.nextPkt := rfl
@[simp] theorem setRun_phvs : (s.setRun k r).phvs = s.phvs := rfl
@[simp] theorem setRun_cmds : (s.setRun k r).cmds = s.cmds := rfl
@[simp] theorem setRun_turns : (s.setRun k r).turns = s.turns := rfl

@[simp] theorem commit_params : (s.commit c).params = s.params := rfl
@[simp] theorem commit_insts : (s.commit c).insts = (s.setRun c.k (some c.run)).insts := rfl
@[simp] theorem commit_packets : (s.commit c).packets = s.packets.set c.pid c.pkt := rfl
@[simp] theorem commit_nextPkt : (s.commit c).nextPkt = s.nextPkt := rfl
@[simp] theorem commit_phvs : (s.commit c).phvs = c.phvs := rfl
@[simp] theorem commit_cmds : (s.commit c).cmds = s.cmds := rfl
@[simp] theorem commit_turns : (s.commit c).turns = s.turns := rfl

@[simp] theorem release_params : (s.release c).params = s.params := rfl
@[simp] theorem release_insts : (s.release c).insts = (s.setRun c.k none).insts := rfl
@[simp] theorem release_packets :
    (s.release c).packets = s.packets.set c.pid { c.pkt with owner := .host } := rfl
@[simp] theorem release_nextPkt : (s.release c).nextPkt = s.nextPkt := rfl
@[simp] theorem release_phvs : (s.release c).phvs = c.phvs := rfl
@[simp] theorem release_cmds : (s.release c).cmds = s.cmds := rfl
@[simp] theorem release_turns : (s.release c).turns = s.turns := rfl

@[simp] theorem movePhase_params : (s.movePhase k f).params = s.params := rfl
@[simp] theorem movePhase_packets : (s.movePhase k f).packets = s.packets := rfl
@[simp] theorem movePhase_nextPkt : (s.movePhase k f).nextPkt = s.nextPkt := rfl
@[simp] theorem movePhase_phvs : (s.movePhase k f).phvs = s.phvs := rfl
@[simp] theorem movePhase_cmds : (s.movePhase k f).cmds = s.cmds := rfl
@[simp] theorem movePhase_turns : (s.movePhase k f).turns = s.turns := rfl

@[simp] theorem addPacket_params : (s.addPacket p).params = s.params := rfl
@[simp] theorem addPacket_insts : (s.addPacket p).insts = s.insts := rfl
@[simp] theorem addPacket_packets : (s.addPacket p).packets = s.packets.set s.nextPkt p := rfl
@[simp] theorem addPacket_nextPkt : (s.addPacket p).nextPkt = s.nextPkt + 1 := rfl
@[simp] theorem addPacket_phvs : (s.addPacket p).phvs = s.phvs := rfl
@[simp] theorem addPacket_cmds : (s.addPacket p).cmds = s.cmds := rfl
@[simp] theorem addPacket_turns : (s.addPacket p).turns = s.turns := rfl

@[simp] theorem setPs_k (g : ParseRegs) : (c.setPs g).k = c.k := rfl
@[simp] theorem setPs_pid (g : ParseRegs) : (c.setPs g).pid = c.pid := rfl
@[simp] theorem setPs_params (g : ParseRegs) : (c.setPs g).params = c.params := rfl
@[simp] theorem setPs_dir (g : ParseRegs) : (c.setPs g).dir = c.dir := rfl
@[simp] theorem setPs_snap (g : ParseRegs) : (c.setPs g).snap = c.snap := rfl
@[simp] theorem setPs_run (g : ParseRegs) : (c.setPs g).run = c.run := rfl
@[simp] theorem setPs_pkt (g : ParseRegs) : (c.setPs g).pkt = { c.pkt with ps := g } := rfl
@[simp] theorem setPs_phvs (g : ParseRegs) : (c.setPs g).phvs = c.phvs := rfl

@[simp] theorem setView_owner (d : Dir) (v : View) : (p.setView d v).owner = p.owner := by cases d <;> rfl
@[simp] theorem setView_bytes (d : Dir) (v : View) : (p.setView d v).bytes = p.bytes := by cases d <;> rfl
@[simp] theorem setView_q (d : Dir) (v : View) : (p.setView d v).q = p.q := by cases d <;> rfl

end Sys2Proof.Machine
end

