-- ==== Sys2Proof/Laws/Ops.lean ====
section
/-! SUPPORT. What the shared operations do, said once: what a parse in progress is, what a
micro-operation's effect makes of the state, what a host operation on a packet does. -/

namespace Sys2Proof.Machine

/-- A parse in progress of instance `k` is its record's run on a packet that exists. -/
theorem ctxOf_eq_some {s : State} {k : Nat} {c : Ctx} :
    s.ctxOf k = some c ↔ ∃ i r p, s.insts[k]? = some i ∧ i.run = some r ∧ s.packets.get r.pkt = some p ∧
      c = { k := k, pid := r.pkt, params := s.params, dir := i.dir, snap := i.snap, run := r, pkt := p,
            phvs := s.phvs } := by
  unfold State.ctxOf
  constructor
  · intro h
    split at h
    · cases h
    · rename_i i hi
      split at h
      · cases h
      · rename_i r hr
        split at h
        · cases h
        · rename_i p hp
          cases h
          exact ⟨i, r, p, hi, hr, hp, rfl⟩
  · rintro ⟨i, r, p, hi, hr, hp, rfl⟩
    simp [hi, hr, hp]

/-- The parse of the agent on turn is that of an instance on turn. -/
theorem ctx_eq_some {s : State} {c : Ctx} :
    s.ctx = some c ↔ s.agent = .inst c.k ∧ s.ctxOf c.k = some c := by
  unfold State.ctx
  constructor
  · intro h
    split at h
    · cases h
    · rename_i k hk
      obtain ⟨i, r, p, hi, hr, hp, rfl⟩ := ctxOf_eq_some.1 h
      exact ⟨hk, h⟩
  · rintro ⟨h1, h2⟩
    simp [h1, h2]

theorem ctx_phvs {s : State} {c : Ctx} (h : s.ctx = some c) : c.phvs = s.phvs := by
  obtain ⟨i, r, p, -, -, -, e⟩ := ctxOf_eq_some.1 (ctx_eq_some.1 h).2
  rw [e]

theorem ctx_params {s : State} {c : Ctx} (h : s.ctx = some c) : c.params = s.params := by
  obtain ⟨i, r, p, -, -, -, e⟩ := ctxOf_eq_some.1 (ctx_eq_some.1 h).2
  rw [e]

theorem ctx_inst {s : State} {c : Ctx} (h : s.ctx = some c) :
    ∃ i, s.insts[c.k]? = some i ∧ i.run = some c.run ∧ i.dir = c.dir ∧ i.snap = c.snap := by
  obtain ⟨i, r, p, hi, hr, -, e⟩ := ctxOf_eq_some.1 (ctx_eq_some.1 h).2
  exact ⟨i, hi, by rw [e]; exact hr, by rw [e], by rw [e]⟩

theorem ctx_packet {s : State} {c : Ctx} (h : s.ctx = some c) :
    s.packets.get c.pid = some c.pkt ∧ c.run.pkt = c.pid := by
  obtain ⟨i, r, p, -, -, hp, e⟩ := ctxOf_eq_some.1 (ctx_eq_some.1 h).2
  rw [e]; exact ⟨hp, rfl⟩

/-- A micro-operation on the parse in progress does what its effect says. -/
theorem onParse_eq {s : State} {c : Ctx} (h : s.ctx = some c) (f : Ctx → Effect) :
    onParse s f = (f c).apply s := by
  simp [onParse, h]

/-- With no parse in progress a micro-operation has no step. -/
theorem onParse_none {s : State} (h : s.ctx = none) (f : Ctx → Effect) : onParse s f = .fault .noParse := by
  simp [onParse, h]

/-- Instances after instance `k` is set running, idle or elsewhere. -/
theorem setRun_get (s : State) (k j : Nat) (r : Option Run) :
    (s.setRun k r).insts[j]? = (s.insts[j]?).map fun i => if k = j then { i with run := r } else i := by
  simp only [State.setRun, List.getElem?_modify]
  split <;> simp_all

theorem sameButParse_commit {s : State} {c c' : Ctx} (hk : c'.k = c.k) (hp : c'.pid = c.pid) :
    SameButParse s (s.commit c') c.k c.pid where
  params := rfl
  nextPkt := rfl
  cmds := rfl
  turns := rfl
  insts j h := by
    simp only [commit_insts, setRun_get, hk, Ne.symm h, if_false]
    cases s.insts[j]? <;> rfl
  packets q h := by simp [hp, h]
  static := by
    simp only [commit_insts, setRun_get, hk, if_true]
    cases s.insts[c.k]? <;> rfl

theorem sameButParse_release {s : State} {c c' : Ctx} (hk : c'.k = c.k) (hp : c'.pid = c.pid) :
    SameButParse s (s.release c') c.k c.pid where
  params := rfl
  nextPkt := rfl
  cmds := rfl
  turns := rfl
  insts j h := by
    simp only [release_insts, setRun_get, hk, Ne.symm h, if_false]
    cases s.insts[j]? <;> rfl
  packets q h := by simp [hp, h]
  static := by
    simp only [release_insts, setRun_get, hk, if_true]
    cases s.insts[c.k]? <;> rfl

/-- An outcome that stores the parse's changes, no PHV write among them. -/
theorem goesOn_of_commit {s : State} {c c' : Ctx} {o : Host.Outcome State Fault Refusal} {r : Run} {p : Packet}
    (h : s.ctx = some c) (e : o = .next (s.commit c')) (hk : c'.k = c.k) (hp : c'.pid = c.pid)
    (hv : c'.phvs = c.phvs) (hr : c'.run = r) (hq : c'.pkt = p) : GoesOn s c o r p := by
  obtain ⟨i, hi, -⟩ := ctx_inst h
  subst hr hq
  refine ⟨s.commit c', e, sameButParse_commit hk hp, ?_, ?_, ?_⟩
  · rw [commit_phvs, hv, ctx_phvs h]
  · rw [commit_insts, setRun_get, hk, hi]; simp
  · rw [commit_packets, hp]; simp

/-- A micro-operation whose effect lets the parse go on without a PHV write. -/
theorem goesOn_of_go {s : State} {c c' : Ctx} {f : Ctx → Effect} {r : Run} {p : Packet} (h : s.ctx = some c)
    (e : f c = .go c') (hk : c'.k = c.k) (hp : c'.pid = c.pid) (hv : c'.phvs = c.phvs) (hr : c'.run = r)
    (hq : c'.pkt = p) : GoesOn s c (onParse s f) r p :=
  goesOn_of_commit h (by rw [onParse_eq h, e]; rfl) hk hp hv hr hq

/-- A micro-operation whose effect is always to let the parse go on, without a PHV write. -/
theorem goesOn_of_go_all {s : State} {c : Ctx} (g : Ctx → Ctx) {r : Run} {p : Packet} (h : s.ctx = some c)
    (hk : (g c).k = c.k) (hp : (g c).pid = c.pid) (hv : (g c).phvs = c.phvs) (hr : (g c).run = r)
    (hq : (g c).pkt = p) : GoesOn s c (onParse s fun c => .go (g c)) r p :=
  goesOn_of_go h rfl hk hp hv hr hq

/-- A micro-operation whose effect raises a cause (or finishes) without a PHV write. -/
theorem ends_of_raise {s : State} {c c' : Ctx} {f : Ctx → Effect} {why : Cause} {p : Packet}
    (h : s.ctx = some c) (e : f c = raise c' why) (hk : c'.k = c.k) (hp : c'.pid = c.pid)
    (hv : c'.phvs = c.phvs) (hq : c'.pkt = p) : Ends s c (onParse s f) why p := by
  obtain ⟨i, hi, -⟩ := ctx_inst h
  subst hq
  refine ⟨s.release { c' with pkt := { c'.pkt with cause := why, outcome := outcomeOf why } },
    by rw [onParse_eq h, e]; rfl, sameButParse_release hk hp, ?_, ?_, ?_⟩
  · simp [hv, ctx_phvs h]
  · simp only [release_insts, setRun_get, hk, hi]; simp
  · simp [hp]

/-- A micro-operation whose effect writes one container. -/
theorem writesPhv_of_go {s : State} {c : Ctx} {f : Ctx → Effect} {g : Nat} {d : BitVec 8} {v : PhvVal}
    (h : s.ctx = some c) (e : f c = .go { c with phvs := phvWrite c.phvs g d v }) :
    WritesPhv s c (onParse s f) g d v := by
  obtain ⟨i, hi, -⟩ := ctx_inst h
  refine ⟨s.commit { c with phvs := phvWrite c.phvs g d v }, by rw [onParse_eq h, e]; rfl,
    sameButParse_commit rfl rfl, ?_, ?_, ?_, ?_⟩
  · simp [phvRead_phvWrite]
  · intro g' d' ne
    rw [commit_phvs, phvRead_phvWrite, if_neg ne, ctx_phvs h]
  · simp only [commit_insts, setRun_get, hi]; simp
  · simp

theorem hostPacket_eq_some {s : State} {p : Nat} {q : Packet} :
    s.hostPacket p = some q ↔ s.packets.get p = some q ∧ q.owner = .host := by
  unfold State.hostPacket
  cases s.packets.get p with
  | none => simp
  | some q' =>
    simp only [Option.some.injEq]
    split
    · simp only [Option.some.injEq]
      exact ⟨by rintro rfl; simp_all, fun h => h.1⟩
    · simp only [reduceCtorEq, false_iff, not_and]
      rintro rfl; assumption

/-- A host command on a packet the host owns. -/
theorem becomes_onPacket {s : State} {p : Nat} {q : Packet} (h : s.hostPacket p = some q)
    (f : Packet → Packet) : Becomes s (onPacket s p f) p (f q) := by
  refine ⟨{ s with packets := s.packets.set p (f q) }, by simp [onPacket, h], ⟨rfl, rfl, rfl, rfl, rfl, ?_⟩,
    rfl, by simp⟩
  intro q' ne; simp [ne]

/-- A host command that creates a packet. -/
theorem creates_addPacket (s : State) (q : Packet) : Creates s (.next (s.addPacket q)) q := by
  refine ⟨_, rfl, ⟨rfl, rfl, rfl, rfl, rfl, ?_⟩, rfl, by simp⟩
  intro q' ne; simp [ne]

/-- Going on from an outcome reaches a next state only from a next state. -/
theorem andThen_eq_next {o : Host.Outcome State Fault Refusal} {f : State → State} {t : State} :
    andThen o f = .next t ↔ ∃ u, o = .next u ∧ t = f u := by
  cases o <;> simp [andThen, eq_comm]

end Sys2Proof.Machine
end

