-- ==== Sys2Proof/Laws/Micro.lean ====
section
/-! SUPPORT. What a micro-operation can do to the parse in progress, said once for all of them. -/

namespace Sys2Proof.Machine

/-- What every micro-operation leaves alone of the parse `c` in progress, when it makes `c'` of it. The
phase belongs to the step; `ITER` and `cur0` belong to the loop head. -/
structure Ctx.Keeps (c c' : Ctx) : Prop where
  k          : c'.k = c.k
  pid        : c'.pid = c.pid
  params     : c'.params = c.params
  dir        : c'.dir = c.dir
  snap       : c'.snap = c.snap
  runPkt     : c'.run.pkt = c.run.pkt
  phase      : c'.run.phase = c.run.phase
  cur0       : c'.run.cur0 = c.run.cur0
  owner      : c'.pkt.owner = c.pkt.owner
  bytes      : c'.pkt.bytes = c.pkt.bytes
  pktId      : c'.pkt.pktId = c.pkt.pktId
  recircCnt  : c'.pkt.recircCnt = c.pkt.recircCnt
  signature  : c'.pkt.signature = c.pkt.signature
  ing        : c'.pkt.ing = c.pkt.ing
  egr        : c'.pkt.egr = c.pkt.egr
  activeView : c'.pkt.activeView = c.pkt.activeView
  teop       : c'.pkt.teop = c.pkt.teop
  q          : c'.pkt.q = c.pkt.q
  iter       : c'.pkt.ps.iter = c.pkt.ps.iter
  ver        : c'.pkt.ps.ver = c.pkt.ps.ver
  cursor     : c'.pkt.ps.cur = c.pkt.ps.cur ∨
    (c.run.cur0.toNat ≤ c.pkt.bytes.length → c'.pkt.ps.cur.toNat ≤ c.pkt.bytes.length)
  phvs       : ∀ g d, (c.pkt.view c.dir).phv ≠ some g → phvRead c'.phvs g d = phvRead c.phvs g d
  phvsWf     : Memory.wf c.phvs → Memory.wf c'.phvs

/-- What an effect of a micro-operation can be: the parse goes on with its outcome untouched, or it has
ended, with no PHV write in that last operation, or it is refused. -/
def Effect.Within (c : Ctx) : Effect → Prop
  | .go c' => c.Keeps c' ∧ c'.pkt.outcome = c.pkt.outcome ∧ c'.pkt.cause = c.pkt.cause
  | .stop c' => c.Keeps c' ∧ c'.phvs = c.phvs ∧ c'.pkt.outcome = outcomeOf c'.pkt.cause
  | .refuse _ => True

/-- Writing the parse registers, but not `ITER`, `VER` or `CUR`, keeps the rest. -/
theorem keeps_setPs (c : Ctx) (g : ParseRegs) (hi : g.iter = c.pkt.ps.iter) (hv : g.ver = c.pkt.ps.ver)
    (hc : g.cur = c.pkt.ps.cur) : c.Keeps (c.setPs g) :=
  ⟨rfl, rfl, rfl, rfl, rfl, rfl, rfl, rfl, rfl, rfl, rfl, rfl, rfl, rfl, rfl, rfl, rfl, rfl, hi, hv, .inl hc,
    fun _ _ _ => rfl, id⟩

/-- An operation that writes the parse registers, but not `ITER`, `VER` or `CUR`. -/
theorem within_setPs (c : Ctx) (g : ParseRegs) (hi : g.iter = c.pkt.ps.iter) (hv : g.ver = c.pkt.ps.ver)
    (hc : g.cur = c.pkt.ps.cur) : (Effect.go (c.setPs g)).Within c :=
  ⟨keeps_setPs c g hi hv hc, rfl, rfl⟩

/-- An operation that writes only values carried within the iteration. -/
theorem within_setRun (c : Ctx) (r : Run) (h1 : r.pkt = c.run.pkt) (h2 : r.phase = c.run.phase)
    (h3 : r.cur0 = c.run.cur0) : (Effect.go { c with run := r }).Within c :=
  ⟨⟨rfl, rfl, rfl, rfl, rfl, h1, h2, h3, rfl, rfl, rfl, rfl, rfl, rfl, rfl, rfl, rfl, rfl, rfl, rfl, .inl rfl,
    fun _ _ _ => rfl, id⟩, rfl, rfl⟩

/-- An operation that changes nothing. -/
theorem within_self (c : Ctx) : (Effect.go c).Within c := within_setRun c c.run rfl rfl rfl

/-- Taking an exception, or finishing. -/
theorem within_raise {c c' : Ctx} (why : Cause) (h : c.Keeps c') (hv : c'.phvs = c.phvs) :
    (raise c' why).Within c :=
  ⟨⟨h.k, h.pid, h.params, h.dir, h.snap, h.runPkt, h.phase, h.cur0, h.owner, h.bytes, h.pktId, h.recircCnt,
    h.signature, h.ing, h.egr, h.activeView, h.teop, h.q, h.iter, h.ver, h.cursor, h.phvs, h.phvsWf⟩, hv, rfl⟩

/-- Taking an exception with nothing written. -/
theorem within_raise_self (c : Ctx) (why : Cause) : (raise c why).Within c :=
  within_raise why (keeps_setPs c c.pkt.ps rfl rfl rfl) rfl

/-- A lane writes the PHV of its own view only. -/
theorem within_extract (n : Nat) (val : Ctx → Nat → PhvVal) (l : Lane) (c : Ctx) :
    (extract n val l c).Within c := by
  simp only [extract]
  split
  · exact within_raise_self c _
  · split
    · trivial
    · rename_i h hv
      refine ⟨⟨rfl, rfl, rfl, rfl, rfl, rfl, rfl, rfl, rfl, rfl, rfl, rfl, rfl, rfl, rfl, rfl, rfl, rfl, rfl, rfl,
        .inl rfl, fun g d hg => ?_, fun w => Memory.wf_set w _ _⟩, rfl, rfl⟩
      rw [hv] at hg
      rw [phvRead_phvWrite, if_neg]
      rintro ⟨⟩
      exact hg rfl

/-- Writing an engine's registers leaves `ITER`, `VER` and `CUR`. -/
theorem setCsum_iter (r : ParseRegs) (e : Eng) (g : Csum) : (r.setCsum e g).iter = r.iter := by cases e <;> rfl
theorem setCsum_ver (r : ParseRegs) (e : Eng) (g : Csum) : (r.setCsum e g).ver = r.ver := by cases e <;> rfl
theorem setCsum_cur (r : ParseRegs) (e : Eng) (g : Csum) : (r.setCsum e g).cur = r.cur := by cases e <;> rfl

/-- The micro-operations: every instruction but the host commands. -/
def Micro : Instr → Prop
  | .winSample | .tcamKey | .tcamMatch _ _ _ | .tcamSelect => True
  | .eaCtrAdd _ | .eaCtrLdi _ | .eaCtrLds _ | .eaShift _ | .eaNxt _ _ => True
  | .eaArm16 _ | .eaArm8_0 _ | .eaArm8_1 _ | .eaBufreq _ | .eaDone _ | .actDoff _ _ => True
  | .actEx32_0 _ | .actEx32_1 _ | .actEx32_2 _ | .actEx32_3 _ => True
  | .actEx16_0 _ | .actEx16_1 _ | .actEx16_2 _ | .actEx16_3 _ => True
  | .actEx8_0 _ | .actEx8_1 _ | .actEx8_2 _ | .actEx8_3 _ => True
  | .actCsum0 _ | .actCsum1 _ | .csumAcc _ _ | .csumStart _ | .csumEnd _ _ | .csumZao _ _ => True
  | .actPriImm _ | .actPriFld _ _ _ => True
  | .parse _ _ | .pktCreate _ _ | .pktClone _ _ _ _ _ | .pktReset _ | .pktSetEgress _ | .pktRetire _ => False
  | .pktWr _ _ | .pktId _ _ | .pktType _ _ | .pktIdMcCpy _ _ _ _ | .pktIdMirrCpy _ _ _ _ => False
  | .pktIdMcC2c _ _ _ _ | .cfgWr _ _ _ _ _ => False

/-- A micro-operation is an effect on the parse in progress, and the effect keeps what `Keeps` says. -/
theorem exec_micro {i : Instr} (h : Micro i) :
    ∃ f : Ctx → Effect, (∀ s, exec i s = onParse s f) ∧ ∀ c, (f c).Within c := by
  cases i <;> first | exact h.elim | skip
  case winSample =>
    refine ⟨_, fun s => rfl, fun c => ?_⟩
    dsimp only
    split
    · exact within_raise_self c _
    split
    · exact within_raise_self c _
    split
    · exact within_raise_self c _
    · exact within_setPs c _ rfl rfl rfl
  case tcamKey => exact ⟨_, fun s => rfl, fun c => within_setRun c _ rfl rfl rfl⟩
  case tcamMatch i v m =>
    refine ⟨_, fun s => rfl, fun c => ?_⟩
    dsimp only
    split
    · exact within_setRun c _ rfl rfl rfl
    · exact within_self c
  case tcamSelect =>
    refine ⟨_, fun s => rfl, fun c => ?_⟩
    dsimp only
    split
    · exact within_raise _ (keeps_setPs c _ rfl rfl rfl) rfl
    · exact within_setPs c _ rfl rfl rfl
  case eaCtrAdd =>
    refine ⟨_, fun s => rfl, fun c => ?_⟩
    dsimp only
    split
    · exact within_setPs c _ rfl rfl rfl
    · exact within_self c
  case eaShift amt =>
    refine ⟨_, fun s => rfl, fun c => ?_⟩
    dsimp only
    split
    · trivial
    split
    · exact within_raise_self c _
    · rename_i h1 h2
      refine ⟨⟨rfl, rfl, rfl, rfl, rfl, rfl, rfl, rfl, rfl, rfl, rfl, rfl, rfl, rfl, rfl, rfl, rfl, rfl, rfl, rfl,
        .inr fun hl => ?_, fun _ _ _ => rfl, id⟩, rfl, rfl⟩
      simp only [Ctx.avail, Config.wBytes] at h1 h2
      simp only [setPs_pkt, BitVec.toNat_add, BitVec.toNat_setWidth]
      have := amt.isLt
      rw [Nat.mod_eq_of_lt (a := amt.toNat) (by omega)]
      exact Nat.le_trans (Nat.mod_le _ _) (by omega)
  case eaDone =>
    refine ⟨_, fun s => rfl, fun c => ?_⟩
    dsimp only
    split
    · exact within_raise_self c _
    · exact within_setPs c _ rfl rfl rfl
  case actDoff rst inc =>
    exact ⟨_, fun s => rfl, fun c => ⟨⟨rfl, rfl, rfl, rfl, rfl, rfl, rfl, rfl, rfl, rfl, rfl, rfl, rfl, rfl, rfl,
      rfl, rfl, rfl, rfl, rfl, .inl rfl, fun _ _ _ => rfl, id⟩, rfl, rfl⟩⟩
  case csumAcc e r =>
    refine ⟨_, fun s => rfl, fun c => ?_⟩
    split
    · exact within_setPs c _ (setCsum_iter _ _ _) (setCsum_ver _ _ _) (setCsum_cur _ _ _)
    · exact within_raise_self c _
  case csumZao e pos =>
    exact ⟨_, fun s => rfl, fun c =>
      within_setPs c _ (setCsum_iter _ _ _) (setCsum_ver _ _ _) (setCsum_cur _ _ _)⟩
  case csumEnd e pos =>
    exact ⟨_, fun s => rfl, fun c =>
      within_setPs c _ (setCsum_iter _ _ _) (setCsum_ver _ _ _) (setCsum_cur _ _ _)⟩
  case actPriImm v =>
    exact ⟨_, fun s => rfl, fun c => ⟨⟨rfl, rfl, rfl, rfl, rfl, rfl, rfl, rfl, rfl, rfl, rfl, rfl, rfl, rfl, rfl,
      rfl, rfl, rfl, rfl, rfl, .inl rfl, fun _ _ _ => rfl, id⟩, rfl, rfl⟩⟩
  case actPriFld =>
    exact ⟨_, fun s => rfl, fun c => ⟨⟨rfl, rfl, rfl, rfl, rfl, rfl, rfl, rfl, rfl, rfl, rfl, rfl, rfl, rfl, rfl,
      rfl, rfl, rfl, rfl, rfl, .inl rfl, fun _ _ _ => rfl, id⟩, rfl, rfl⟩⟩
  all_goals first
    | exact ⟨_, fun s => rfl, fun c => within_setPs c _ rfl rfl rfl⟩
    | exact ⟨_, fun s => rfl, fun c => within_extract _ _ _ c⟩
    | exact ⟨_, fun s => rfl, fun c => within_setRun c _ rfl rfl rfl⟩

/-- A place of the iteration yields micro-operations only. -/
theorem micro_of_decodeSlot {sl : Slot} {ws : List W64} {i : Instr} (h : decodeSlot sl ws = .ok i) :
    Micro i := by
  have lane : ∀ (mk : Fin 4 → Lane → Instr), (∀ k l, Micro (mk k l)) → ∀ k w,
      decLaneOp mk k w = .ok i → Micro i := by
    intro mk hm k w e
    simp only [decLaneOp] at e
    split at e
    · cases e; exact hm _ _
    · cases e
  have m32 : ∀ k l, Micro (mkEx32 k l) := by intro k l; fin_cases k <;> trivial
  have m16 : ∀ k l, Micro (mkEx16 k l) := by intro k l; fin_cases k <;> trivial
  have m8 : ∀ k l, Micro (mkEx8 k l) := by intro k l; fin_cases k <;> trivial
  cases sl <;> simp only [decodeSlot] at h
  case ex32 k => cases ws with | nil => cases h | cons w r => cases r with
    | nil => exact lane _ m32 _ _ h
    | cons _ _ => cases h
  case ex16 k => cases ws with | nil => cases h | cons w r => cases r with
    | nil => exact lane _ m16 _ _ h
    | cons _ _ => cases h
  case ex8 k => cases ws with | nil => cases h | cons w r => cases r with
    | nil => exact lane _ m8 _ _ h
    | cons _ _ => cases h
  case actCsum e => cases e <;> simp only [oneWord, decActCsum, whenOn] at h <;> split at h <;>
    first | cases h | (split at h <;> cases h; trivial)
  all_goals
    simp only [bare, oneWord, twoWords, whenOn, decCtr, decPri] at h
    repeat' first
      | (cases h; trivial)
      | contradiction
      | split at h

/-- A micro-operation on a parse that has a PHV is never refused, but for a reserved shift. -/
theorem micro_answers {i : Instr} (h : Micro i) {s : State} {c : Ctx} (hc : s.ctx = some c)
    (hv : (c.pkt.view c.dir).phv ≠ none) (hs : ∀ amt, i = .eaShift amt → amt.toNat ≤ 32) :
    ∃ t, exec i s = .next t := by
  have go : ∀ f : Ctx → Effect, (∀ r, f c ≠ .refuse r) → ∃ t, onParse s f = .next t := by
    intro f hf
    rw [onParse_eq hc]
    cases e : f c with
    | go c' => exact ⟨_, rfl⟩
    | stop c' => exact ⟨_, rfl⟩
    | refuse r => exact absurd e (hf r)
  have lane : ∀ n val l r, extract n val l c ≠ .refuse r := by
    intro n val l r e
    simp only [extract, raise] at e
    split at e
    · cases e
    · split at e
      · exact hv ‹_›
      · cases e
  cases i <;> first | exact h.elim | skip
  case eaShift amt =>
    refine go _ fun r e => ?_
    have := hs amt rfl
    dsimp only at e
    rw [if_neg (show ¬ amt.toNat > Config.wBytes from Nat.not_lt.2 this)] at e
    split at e <;> cases e
  all_goals first
    | exact go _ fun r => lane _ _ _ r
    | (refine go _ fun r e => ?_
       dsimp only at e
       repeat' split at e
       all_goals cases e)
    | (refine go _ fun r e => ?_
       repeat' split at e
       all_goals cases e)

/-- EA.SHIFT stands at its own place only. -/
theorem decodeSlot_eaShift {sl : Slot} {ws : List W64} {amt : BitVec 6}
    (h : decodeSlot sl ws = .ok (.eaShift amt)) : sl = .eaShift := by
  have lane : ∀ (mk : Fin 4 → Lane → Instr), (∀ k l, mk k l ≠ .eaShift amt) → ∀ k w,
      decLaneOp mk k w ≠ .ok (.eaShift amt) := by
    intro mk hm k w e
    simp only [decLaneOp] at e
    split at e
    · exact hm _ _ (Except.ok.inj e)
    · cases e
  have m32 : ∀ k l, mkEx32 k l ≠ .eaShift amt := by intro k l; fin_cases k <;> nofun
  have m16 : ∀ k l, mkEx16 k l ≠ .eaShift amt := by intro k l; fin_cases k <;> nofun
  have m8 : ∀ k l, mkEx8 k l ≠ .eaShift amt := by intro k l; fin_cases k <;> nofun
  cases sl <;> first | rfl | skip
  case ex32 k => rcases ws with _ | ⟨w, _ | _⟩ <;> first | cases h | exact absurd h (lane _ m32 _ _)
  case ex16 k => rcases ws with _ | ⟨w, _ | _⟩ <;> first | cases h | exact absurd h (lane _ m16 _ _)
  case ex8 k => rcases ws with _ | ⟨w, _ | _⟩ <;> first | cases h | exact absurd h (lane _ m8 _ _)
  case actCsum e =>
    cases e <;> simp only [decodeSlot, oneWord, decActCsum, whenOn] at h <;> split at h <;>
      first | cases h | (split at h <;> cases h)
  all_goals
    simp only [decodeSlot, bare, oneWord, twoWords, whenOn, decCtr, decPri] at h
    repeat' first
      | cases h
      | contradiction
      | split at h

end Sys2Proof.Machine
end

