-- ==== Sys2Proof/Laws/PerInstr.lean ====
section
/-! SUPPORT. One lemma per instruction: the encoder leaves every reserved bit of the instruction's words zero
(30_encoding.md R126). -/

namespace Sys2Proof.Laws

/-- Whether bit `b` of word `n` at a place is reserved (30_encoding.md R102, R104, R105, R107, R109, R110). -/
def reservedBit (sl : Slot) (n b : Nat) : Bool :=
  match sl with
  | .winSample | .tcamKey | .tcamSelect => true
  | .tcamMatch _ => decide (44 ≤ b)
  | .eaShift | .eaCtr | .eaArm16 | .eaArm8_0 | .eaArm8_1 | .eaNxt | .eaBufreq | .eaDone => decide (60 ≤ b)
  | .actDoff | .actCsum _ | .actPri => decide (30 ≤ b)
  | .ex32 _ | .ex16 _ | .ex8 _ => decide (51 ≤ b) || (decide (19 ≤ b) && decide (b < 32))
  | .csumStart _ | .csumAcc _ | .csumZao _ | .csumEnd _ =>
    if n = 0 then decide (58 ≤ b) else decide (16 ≤ b)

/-- The reserved bits of words at a place, or the bits above a command's code, are zero. -/
def reservedZero : Loc → List W64 → Prop
  | .micro sl, ws => ∀ n w, ws[n]? = some w → ∀ b, reservedBit sl n b = true → w.getLsbD b = false
  | .port, ws => ∀ b, 8 ≤ b → (ws.getD 0 0).getLsbD b = false

/-- Appending below zero bits leaves the high bits zero. -/
theorem getLsbD_zero_append {n m b : Nat} (x : BitVec m) (h : m ≤ b) :
    (0#n ++ x).getLsbD b = false := by
  simp [BitVec.getLsbD_append, Nat.not_lt.mpr h]

theorem encTcam_reserved (r : TcamRow) {b : Nat} (h : 44 ≤ b) : (encTcam r).getLsbD b = false :=
  getLsbD_zero_append r.bits h

theorem encEa_reserved (r : EaRow) {b : Nat} (h : 60 ≤ b) : (encEa r).getLsbD b = false := by
  simp only [encEa, BitVec.getLsbD_append, BitVec.getLsbD_zero]
  repeat rw [if_neg (by omega)]

theorem encActCtl_reserved (r : ActCtl) {b : Nat} (h : 30 ≤ b) : (encActCtl r).getLsbD b = false := by
  simp only [encActCtl, BitVec.getLsbD_append, BitVec.getLsbD_zero]
  repeat rw [if_neg (by omega)]

theorem encCsum0_reserved (r : CsumRow) {b : Nat} (h : 58 ≤ b) : (encCsum0 r).getLsbD b = false := by
  simp only [encCsum0, BitVec.getLsbD_append, BitVec.getLsbD_zero]
  repeat rw [if_neg (by omega)]

theorem encCsum1_reserved (r : CsumRow) {b : Nat} (h : 16 ≤ b) : (encCsum1 r).getLsbD b = false :=
  getLsbD_zero_append r.lanes.add h

theorem encLaneSlot_reserved (l : Lane) {b : Nat} (h : 19 ≤ b) : (encLaneSlot l).getLsbD b = false := by
  simp only [encLaneSlot, BitVec.getLsbD_append, BitVec.getLsbD_zero]
  repeat rw [if_neg (by omega)]

theorem encLane_reserved (k : Fin 4) (l : Lane) {b : Nat} (h : 51 ≤ b ∨ 19 ≤ b ∧ b < 32) :
    (encLane k l).getLsbD b = false := by
  unfold encLane
  split <;> simp only [BitVec.getLsbD_append, BitVec.getLsbD_zero] <;> split
  · exact encLaneSlot_reserved l (by omega)
  · rfl
  · rfl
  · exact encLaneSlot_reserved l (by omega)

/-- One word at a place. -/
theorem reservedZero_one {sl : Slot} {w : W64}
    (h : ∀ b, reservedBit sl 0 b = true → w.getLsbD b = false) : reservedZero (.micro sl) [w] := by
  intro n x hx
  match n with
  | 0 => cases hx; exact h
  | _ + 1 => cases hx

/-- Two words at a place. -/
theorem reservedZero_two {sl : Slot} {w w' : W64}
    (h : ∀ b, reservedBit sl 0 b = true → w.getLsbD b = false)
    (h' : ∀ b, reservedBit sl 1 b = true → w'.getLsbD b = false) : reservedZero (.micro sl) [w, w'] := by
  intro n x hx
  match n with
  | 0 => cases hx; exact h
  | 1 => cases hx; exact h'
  | _ + 2 => cases hx

/-- A place that reads no word. -/
theorem reservedZero_none {sl : Slot} : reservedZero (.micro sl) [] := fun _ _ h => nomatch h

/-- An EaRow at a place. -/
theorem reservedZero_ea {sl : Slot} (r : EaRow) (h : ∀ b, reservedBit sl 0 b = true → 60 ≤ b) :
    reservedZero (.micro sl) [encEa r] :=
  reservedZero_one fun b hb => encEa_reserved r (h b hb)

/-- A control word at a place. -/
theorem reservedZero_act {sl : Slot} (r : ActCtl) (h : ∀ b, reservedBit sl 0 b = true → 30 ≤ b) :
    reservedZero (.micro sl) [encActCtl r] :=
  reservedZero_one fun b hb => encActCtl_reserved r (h b hb)

/-- A lane at a place. -/
theorem reservedZero_lane {sl : Slot} (k : Fin 4) (l : Lane)
    (h : ∀ b, reservedBit sl 0 b = true → 51 ≤ b ∨ 19 ≤ b ∧ b < 32) :
    reservedZero (.micro sl) [encLane k l] :=
  reservedZero_one fun b hb => encLane_reserved k l (h b hb)

/-- A ChecksumCtrlRow at a place. -/
theorem reservedZero_csum {sl : Slot} (r : CsumRow) (h : ∀ b, reservedBit sl 0 b = true → 58 ≤ b)
    (h' : ∀ b, reservedBit sl 1 b = true → 16 ≤ b) : reservedZero (.micro sl) (encCsum r) :=
  reservedZero_two (fun b hb => encCsum0_reserved r (h b hb)) (fun b hb => encCsum1_reserved r (h' b hb))

/-- A command whose code fits eight bits. -/
theorem reservedZero_cmd {w : W64} {ws : List W64} (h : w.toNat < 256) :
    reservedZero .port (w :: ws) := by
  intro b hb
  show w.getLsbD b = false
  rw [BitVec.getLsbD, Nat.testBit_lt_two_pow]
  exact Nat.lt_of_lt_of_le h (Nat.pow_le_pow_right (n := 2) (by decide) hb)

end Sys2Proof.Laws

namespace Sys2Proof.Laws.ReservedZero

/-- Every reserved bit of the words that encode the instruction is zero. -/
def Statement (i : Instr) : Prop := reservedZero (encode i).1 (encode i).2

theorem winSample : Statement (.winSample) :=
  reservedZero_none

theorem tcamKey : Statement (.tcamKey) :=
  reservedZero_none

theorem tcamMatch (i : BitVec 8) (v m : TcamRow) : Statement (.tcamMatch i v m) :=
  reservedZero_two (fun _ hb => encTcam_reserved v (of_decide_eq_true hb))
    fun _ hb => encTcam_reserved m (of_decide_eq_true hb)

theorem tcamSelect : Statement (.tcamSelect) :=
  reservedZero_none

theorem parse (p k : Nat) : Statement (.parse p k) :=
  reservedZero_cmd (by decide)

theorem eaCtrAdd (amt : BitVec 8) : Statement (.eaCtrAdd amt) :=
  reservedZero_ea _ fun _ hb => of_decide_eq_true hb

theorem eaCtrLdi (amt : BitVec 8) : Statement (.eaCtrLdi amt) :=
  reservedZero_ea _ fun _ hb => of_decide_eq_true hb

theorem eaCtrLds (idx : BitVec 8) : Statement (.eaCtrLds idx) :=
  reservedZero_ea _ fun _ hb => of_decide_eq_true hb

theorem eaShift (amt : BitVec 6) : Statement (.eaShift amt) :=
  reservedZero_ea _ fun _ hb => of_decide_eq_true hb

theorem eaNxt (st mask : BitVec 8) : Statement (.eaNxt st mask) :=
  reservedZero_ea _ fun _ hb => of_decide_eq_true hb

theorem eaArm16 (off : BitVec 6) : Statement (.eaArm16 off) :=
  reservedZero_ea _ fun _ hb => of_decide_eq_true hb

theorem eaArm8_0 (off : BitVec 6) : Statement (.eaArm8_0 off) :=
  reservedZero_ea _ fun _ hb => of_decide_eq_true hb

theorem eaArm8_1 (off : BitVec 6) : Statement (.eaArm8_1 off) :=
  reservedZero_ea _ fun _ hb => of_decide_eq_true hb

theorem eaBufreq (n : BitVec 6) : Statement (.eaBufreq n) :=
  reservedZero_ea _ fun _ hb => of_decide_eq_true hb

theorem eaDone (done : BitVec 1) : Statement (.eaDone done) :=
  reservedZero_ea _ fun _ hb => of_decide_eq_true hb

theorem actDoff (rst : BitVec 1) (inc : BitVec 8) : Statement (.actDoff rst inc) :=
  reservedZero_act _ fun _ hb => of_decide_eq_true hb

theorem actEx32_0 (l : Lane) : Statement (.actEx32_0 l) :=
  reservedZero_lane 0 l fun _ hb => by simpa [reservedBit] using hb

theorem actEx32_1 (l : Lane) : Statement (.actEx32_1 l) :=
  reservedZero_lane 1 l fun _ hb => by simpa [reservedBit] using hb

theorem actEx32_2 (l : Lane) : Statement (.actEx32_2 l) :=
  reservedZero_lane 2 l fun _ hb => by simpa [reservedBit] using hb

theorem actEx32_3 (l : Lane) : Statement (.actEx32_3 l) :=
  reservedZero_lane 3 l fun _ hb => by simpa [reservedBit] using hb

theorem actEx16_0 (l : Lane) : Statement (.actEx16_0 l) :=
  reservedZero_lane 0 l fun _ hb => by simpa [reservedBit] using hb

theorem actEx16_1 (l : Lane) : Statement (.actEx16_1 l) :=
  reservedZero_lane 1 l fun _ hb => by simpa [reservedBit] using hb

theorem actEx16_2 (l : Lane) : Statement (.actEx16_2 l) :=
  reservedZero_lane 2 l fun _ hb => by simpa [reservedBit] using hb

theorem actEx16_3 (l : Lane) : Statement (.actEx16_3 l) :=
  reservedZero_lane 3 l fun _ hb => by simpa [reservedBit] using hb

theorem actEx8_0 (l : Lane) : Statement (.actEx8_0 l) :=
  reservedZero_lane 0 l fun _ hb => by simpa [reservedBit] using hb

theorem actEx8_1 (l : Lane) : Statement (.actEx8_1 l) :=
  reservedZero_lane 1 l fun _ hb => by simpa [reservedBit] using hb

theorem actEx8_2 (l : Lane) : Statement (.actEx8_2 l) :=
  reservedZero_lane 2 l fun _ hb => by simpa [reservedBit] using hb

theorem actEx8_3 (l : Lane) : Statement (.actEx8_3 l) :=
  reservedZero_lane 3 l fun _ hb => by simpa [reservedBit] using hb

theorem actCsum0 (addr : BitVec 5) : Statement (.actCsum0 addr) :=
  reservedZero_act _ fun _ hb => of_decide_eq_true hb

theorem actCsum1 (addr : BitVec 5) : Statement (.actCsum1 addr) :=
  reservedZero_act _ fun _ hb => of_decide_eq_true hb

theorem csumAcc (e : Eng) (r : CsumLanes) : Statement (.csumAcc e r) :=
  reservedZero_csum _ (fun _ hb => of_decide_eq_true hb) fun _ hb => of_decide_eq_true hb

theorem csumStart (e : Eng) : Statement (.csumStart e) :=
  reservedZero_csum _ (fun _ hb => of_decide_eq_true hb) fun _ hb => of_decide_eq_true hb

theorem csumEnd (e : Eng) (pos : BitVec 5) : Statement (.csumEnd e pos) :=
  reservedZero_csum _ (fun _ hb => of_decide_eq_true hb) fun _ hb => of_decide_eq_true hb

theorem csumZao (e : Eng) (pos : BitVec 5) : Statement (.csumZao e pos) :=
  reservedZero_csum _ (fun _ hb => of_decide_eq_true hb) fun _ hb => of_decide_eq_true hb

theorem actPriImm (v : BitVec 3) : Statement (.actPriImm v) :=
  reservedZero_act _ fun _ hb => of_decide_eq_true hb

theorem actPriFld (src : BitVec 2) (shr mask : BitVec 3) : Statement (.actPriFld src shr mask) :=
  reservedZero_act _ fun _ hb => of_decide_eq_true hb

theorem pktCreate (bytes : List Byte) (id32 : BitVec 32) : Statement (.pktCreate bytes id32) :=
  reservedZero_cmd (by decide)

theorem pktClone (src : Nat) (kind : CloneKind) (pipe : BitVec 4) (copy : BitVec 16) (carry : BitVec 1) :
    Statement (.pktClone src kind pipe copy carry) :=
  reservedZero_cmd (by decide)

theorem pktReset (p : Nat) : Statement (.pktReset p) :=
  reservedZero_cmd (by decide)

theorem pktSetEgress (p : Nat) : Statement (.pktSetEgress p) :=
  reservedZero_cmd (by decide)

theorem pktRetire (p : Nat) : Statement (.pktRetire p) :=
  reservedZero_cmd (by decide)

theorem pktWr (p : Nat) (w : FieldWrite) : Statement (.pktWr p w) :=
  reservedZero_cmd (by decide)

theorem pktId (p : Nat) (id32 : BitVec 32) : Statement (.pktId p id32) :=
  reservedZero_cmd (by decide)

theorem pktType (p : Nat) (t4 : BitVec 4) : Statement (.pktType p t4) :=
  reservedZero_cmd (by decide)

theorem pktIdMcCpy (p : Nat) (id32 : BitVec 32) (pipe : BitVec 4) (copy : BitVec 16) :
    Statement (.pktIdMcCpy p id32 pipe copy) :=
  reservedZero_cmd (by decide)

theorem pktIdMirrCpy (p : Nat) (id32 : BitVec 32) (pipe : BitVec 4) (copy : BitVec 16) :
    Statement (.pktIdMirrCpy p id32 pipe copy) :=
  reservedZero_cmd (by decide)

theorem pktIdMcC2c (p : Nat) (id32 : BitVec 32) (pipe : BitVec 4) (copy : BitVec 16) :
    Statement (.pktIdMcC2c p id32 pipe copy) :=
  reservedZero_cmd (by decide)

theorem cfgWr (k : Nat) (mem : CfgMem) (i : Nat) (w0 w1 : W64) : Statement (.cfgWr k mem i w0 w1) :=
  reservedZero_cmd (by decide)

end Sys2Proof.Laws.ReservedZero
end

