-- ==== Sys2Proof/Laws/Step.lean ====
section
/-! SUPPORT. What a step can do, said once: of an instance, and of the host. -/

namespace Sys2Proof.Machine

/-- What a step that ends in a next state can do for instance `k`: nothing, when it is idle; begin an
iteration or exhaust the budget, at the loop head; pass over a place; or let a micro-operation go on or
end the parse. -/
theorem inst_step_cases {s t : State} {k : Nat} (ha : s.agent = .inst k) (h : step s = .next t) :
    (s.ctxOf k = none ∧ t = s.endTurn) ∨
    ∃ c, s.ctxOf k = some c ∧ s.ctx = some c ∧
      ((c.run.phase = .head ∧ c.pkt.ps.iter.toNat < c.snap.maxIter.toNat ∧
          t = afterInst k (s.commit
            { (c.setPs { c.pkt.ps with iter := c.pkt.ps.iter + 1 }) with
              run := { c.run with cur0 := c.pkt.ps.cur } })) ∨
       (c.run.phase = .head ∧ c.snap.maxIter.toNat ≤ c.pkt.ps.iter.toNat ∧
          t = afterInst k (s.release
            { c with pkt := { c.pkt with cause := .loopBudgetExceeded, outcome := .aborted } })) ∨
       (∃ sl ws e, c.run.phase = .slot sl ∧ slotWords c.snap c.pkt.ps.idx c.run.csumAddr sl = some ws ∧
          decode (.micro sl) ws = .error e ∧ t = (s.movePhase k Phase.skip).endTurn) ∨
       ∃ sl ws i f, c.run.phase = .slot sl ∧ slotWords c.snap c.pkt.ps.idx c.run.csumAddr sl = some ws ∧
          decode (.micro sl) ws = .ok i ∧ (∀ s, exec i s = onParse s f) ∧ (f c).Within c ∧
          ((∃ c', f c = .go c' ∧ t = afterInst k (s.commit c')) ∨
           ∃ c', f c = .stop c' ∧ t = afterInst k (s.release c'))) := by
  simp only [step, ha, instStep] at h
  split at h
  · exact .inl ⟨‹_›, by simpa using h.symm⟩
  · rename_i c hc
    have hx : s.ctx = some c := by simp [State.ctx, ha, hc]
    refine .inr ⟨c, hc, hx, ?_⟩
    split at h
    · rename_i hp
      rw [loopHead, onParse_eq hx] at h
      by_cases hb : c.pkt.ps.iter.toNat ≥ c.snap.maxIter.toNat
      · rw [if_pos hb] at h
        exact .inr (.inl ⟨hp, hb, by simpa [andThen, raise, Effect.apply, outcomeOf] using h.symm⟩)
      · rw [if_neg hb] at h
        refine .inl ⟨hp, Nat.lt_of_not_le hb, ?_⟩
        obtain ⟨u, hu, rfl⟩ := andThen_eq_next.1 h
        cases hu
        rfl
    · rename_i sl hp
      simp only [slotStep] at h
      split at h
      · cases h
      · rename_i ws hw
        split at h
        · rename_i e hd
          exact .inr (.inr (.inl ⟨sl, ws, e, hp, hw, hd, by simpa using h.symm⟩))
        · rename_i i hd
          obtain ⟨f, hf, hfw⟩ := exec_micro (micro_of_decodeSlot hd)
          refine .inr (.inr (.inr ⟨sl, ws, i, f, hp, hw, hd, hf, hfw c, ?_⟩))
          rw [hf, onParse_eq hx] at h
          obtain ⟨u, hu, rfl⟩ := andThen_eq_next.1 h
          cases hfc : f c with
          | go c' => rw [hfc] at hu; cases hu; exact .inl ⟨c', rfl, rfl⟩
          | stop c' => rw [hfc] at hu; cases hu; exact .inr ⟨c', rfl, rfl⟩
          | refuse r => rw [hfc] at hu; cases hu

/-- What a host command that ends in a next state can do: change, retire or add a packet of the host, start
a parse, or write a configuration. -/
theorem host_exec_cases {s t : State} {i : Instr} (hm : ¬ Micro i) (h : exec i s = .next t) :
    (∃ p q q', s.packets.get p = some q ∧ q.owner = .host ∧ q'.owner = .host ∧
      (q'.bytes = q.bytes ∨ ∃ b, i = .pktWr p (.bytes .bytes b) ∧ q'.bytes = b) ∧
      (q'.q.copyCtr.length = q.q.copyCtr.length ∨ q'.q.copyCtr.length = s.params.nQctr) ∧
      t = { s with packets := s.packets.set p q' }) ∨
    (∃ p q, s.packets.get p = some q ∧ q.owner = .host ∧ t = { s with packets := s.packets.erase p }) ∨
    (∃ q, q.owner = .host ∧
      ((∃ b id, i = .pktCreate b id ∧ q.bytes = b ∧ q.q.copyCtr.length = s.params.nQctr) ∨
       ∃ p q', s.packets.get p = some q' ∧ q.bytes = q'.bytes ∧
         (q.q = q'.q ∨ q.q.copyCtr.length = s.params.nQctr)) ∧ t = s.addPacket q) ∨
    (∃ k inst p q g, i = .parse p k ∧ s.insts[k]? = some inst ∧ inst.run = none ∧
      s.packets.get p = some q ∧ q.owner = .host ∧ (q.view inst.dir).phv = some g ∧ s.phvInUse g = false ∧
      WrittenFor inst.cfg (q.view inst.dir).version ∧ ShiftsDefined inst.cfg ∧ t = s.launch k inst p q) ∨
    (∃ k inst mem j w0 w1 cfg, i = .cfgWr k mem j w0 w1 ∧ s.insts[k]? = some inst ∧
      cfgWrite inst.cfg mem j w0 w1 = some cfg ∧
      t = { s with insts := s.insts.set k { inst with cfg := cfg } }) := by
  have inPlace : ∀ p (f : Packet → Packet), onPacket s p f = .next t → (∀ q, (f q).owner = q.owner) →
      (∀ q, (f q).bytes = q.bytes) →
      (∀ q, (f q).q.copyCtr.length = q.q.copyCtr.length ∨ (f q).q.copyCtr.length = s.params.nQctr) →
      ∃ p q q', s.packets.get p = some q ∧ q.owner = .host ∧ q'.owner = .host ∧
      (q'.bytes = q.bytes ∨ ∃ b, i = .pktWr p (.bytes .bytes b) ∧ q'.bytes = b) ∧
      (q'.q.copyCtr.length = q.q.copyCtr.length ∨ q'.q.copyCtr.length = s.params.nQctr) ∧
      t = { s with packets := s.packets.set p q' } := by
    intro p f e ho hb hq
    simp only [onPacket] at e
    split at e
    · cases e
    · rename_i q hh
      obtain ⟨hg, hw⟩ := hostPacket_eq_some.1 hh
      cases e
      exact ⟨p, q, f q, hg, hw, (ho q).trans hw, .inl (hb q), hq q, rfl⟩
  cases i <;> first | exact (hm trivial).elim | skip
  case parse p k =>
    refine .inr (.inr (.inr (.inl ?_)))
    simp only [exec, execParse] at h
    split at h
    · cases h
    · rename_i inst hi
      split at h
      · cases h
      · rename_i hr
        split at h
        · cases h
        · rename_i q hq
          obtain ⟨hg, hw⟩ := hostPacket_eq_some.1 hq
          split at h
          · cases h
          · rename_i g hv
            split at h
            · cases h
            · rename_i hu
              split at h
              · cases h
              · rename_i hwr
                split at h
                · cases h
                · rename_i hsh
                  cases h
                  exact ⟨k, inst, p, q, g, rfl, hi, hr, hg, hw, hv, by simpa using hu,
                    (written_iff _ _).1 (by simpa using hwr), (shiftsDefined_iff _).1 (by simpa using hsh), rfl⟩
  case pktCreate b id =>
    cases h
    exact .inr (.inr (.inl ⟨_, rfl,
      .inl ⟨b, id, rfl, rfl, by simp [Packet.fresh, QueueScratch.cleared]⟩, rfl⟩))
  case pktClone src kind pipe copy carry =>
    refine .inr (.inr (.inl ?_))
    simp only [exec, execPktClone] at h
    split at h
    · cases h
    · rename_i p hp
      obtain ⟨hg, hw⟩ := hostPacket_eq_some.1 hp
      cases h
      by_cases hy : carry = 1#1
      · rw [if_pos hy]
        exact ⟨{ p with pktId := cloneId kind (idBase p.pktId) pipe copy }, hw,
          .inr ⟨src, p, hg, rfl, .inl rfl⟩, rfl⟩
      · rw [if_neg hy]
        exact ⟨Packet.fresh p.bytes (cloneId kind (idBase p.pktId) pipe copy) s.params.nQctr, rfl,
          .inr ⟨src, p, hg, rfl, .inr (by simp [Packet.fresh, QueueScratch.cleared])⟩, rfl⟩
  case pktRetire p =>
    refine .inr (.inl ?_)
    simp only [exec, execPktRetire] at h
    split at h
    · cases h
    · rename_i q hq
      obtain ⟨hg, hw⟩ := hostPacket_eq_some.1 hq
      cases h
      exact ⟨p, q, hg, hw, rfl⟩
  case cfgWr k mem j w0 w1 =>
    refine .inr (.inr (.inr (.inr ?_)))
    simp only [exec, execCfgWr] at h
    split at h
    · cases h
    · rename_i inst hi
      split at h
      · cases h
      · rename_i cfg hc
        cases h
        exact ⟨k, inst, mem, j, w0, w1, cfg, rfl, hi, hc, rfl⟩
  case pktReset p =>
    exact .inl (inPlace p _ h (fun _ => rfl) (fun _ => rfl)
      fun _ => .inr (by simp [Packet.resetFields, QueueScratch.cleared]))
  case pktWr p w =>
    refine .inl ?_
    simp only [exec, execPktWr] at h
    split at h
    · cases w with
      | num f v =>
        refine inPlace p _ h (fun q => ?_) (fun q => ?_) (fun q => .inl ?_) <;>
          cases f <;> simp [Packet.write, Packet.setNum]
      | handle f v =>
        refine inPlace p _ h (fun q => ?_) (fun q => ?_) (fun q => .inl ?_) <;>
          cases f <;> simp [Packet.write, Packet.setHandle]
      | bytes f v =>
        cases f with
        | signature => exact inPlace p _ h (fun _ => rfl) (fun _ => rfl) fun _ => .inl rfl
        | bytes =>
          simp only [onPacket] at h
          split at h
          · cases h
          · rename_i q hq
            obtain ⟨hg, hw⟩ := hostPacket_eq_some.1 hq
            cases h
            exact ⟨p, q, q.write (.bytes .bytes v), hg, hw, hw, .inr ⟨v, rfl, rfl⟩, .inl rfl, rfl⟩
    · cases h
  all_goals exact .inl (inPlace _ _ h (fun _ => rfl) (fun _ => rfl) fun _ => .inl rfl)

/-- What a step of the host can do: nothing, when it has no message; else its oldest message's command. -/
theorem host_step_cases {s t : State} (ha : s.agent = .host) (h : step s = .next t) :
    (s.cmds = [] ∧ t = s.endTurn) ∨
    ∃ m rest i u, s.cmds = m :: rest ∧ decode .port m = .ok i ∧ exec i s = .next u ∧ t = afterCmd u := by
  simp only [step, ha, hostStep] at h
  split at h
  · exact .inl ⟨‹_›, by simpa using h.symm⟩
  · rename_i m rest hc
    split at h
    · cases h
    · rename_i i hd
      obtain ⟨u, hu, rfl⟩ := andThen_eq_next.1 h
      exact .inr ⟨m, rest, i, u, hc, hd, hu, rfl⟩

/-- The parse of instance `k` after a micro-operation that goes on with `c'`: it has moved on. -/
theorem ctxOf_afterInst_commit {s : State} {k : Nat} {c c' : Ctx} (hc : s.ctxOf k = some c) (hk : c'.k = c.k)
    (hp : c'.pid = c.pid) (hr : c'.run.pkt = c.run.pkt) (hs : c'.snap = c.snap) (hd : c'.dir = c.dir)
    (hpar : c'.params = c.params) :
    (afterInst k (s.commit c')).ctxOf k =
      some { c' with run := { c'.run with phase := c'.run.phase.next } } := by
  obtain ⟨i, r, p, hi, -, -, rfl⟩ := ctxOf_eq_some.1 hc
  dsimp only at hk hp hr hs hd hpar
  refine ctxOf_eq_some.2 ⟨{ i with run := some { c'.run with phase := c'.run.phase.next } },
    { c'.run with phase := c'.run.phase.next }, c'.pkt, ?_, rfl, ?_, ?_⟩
  · show (List.modify _ _ _)[k]? = _
    rw [commit_insts, List.getElem?_modify_eq, setRun_get, hk, hi]
    simp
  · show (s.commit c').packets.get _ = _
    simp [hr, hp]
  · cases c'
    simp_all
    exact ⟨rfl, rfl⟩

/-- No parse is left of instance `k` after a micro-operation that ends it. -/
theorem ctxOf_afterInst_release {s : State} {k : Nat} {c' : Ctx} (hk : c'.k = k) :
    (afterInst k (s.release c')).ctxOf k = none := by
  refine Option.eq_none_iff_forall_ne_some.2 fun d h => ?_
  obtain ⟨i, r, p, hi, hr, -, -⟩ := ctxOf_eq_some.1 h
  change (List.modify _ _ _)[k]? = _ at hi
  rw [release_insts, List.getElem?_modify_eq, setRun_get, hk] at hi
  cases e : s.insts[k]? with
  | none => rw [e] at hi; cases hi
  | some j =>
    rw [e] at hi
    simp only [if_true, Option.map_some] at hi
    cases hi
    cases hr

/-- The parse of instance `k` after a place is passed over: as it was, elsewhere. -/
theorem ctxOf_movePhase {s : State} {k : Nat} {c : Ctx} (hc : s.ctxOf k = some c) (f : Phase → Phase) :
    (s.movePhase k f).endTurn.ctxOf k = some { c with run := { c.run with phase := f c.run.phase } } := by
  obtain ⟨i, r, p, hi, hr, hp, rfl⟩ := ctxOf_eq_some.1 hc
  refine ctxOf_eq_some.2 ⟨{ i with run := some { r with phase := f r.phase } }, _, p, ?_, rfl, hp, rfl⟩
  show (List.modify _ _ _)[k]? = _
  rw [List.getElem?_modify_eq, hi]
  simp [hr]

/-- Every move brings a place nearer to the end of its iteration. -/
theorem phaseRank_lt (sl : Slot) :
    phaseRank (slotNext sl) < slotRank sl ∧ phaseRank (slotSkip sl) < slotRank sl := by
  cases sl with
  | tcamMatch i =>
    have h : phaseRank (slotNext (.tcamMatch i)) < slotRank (.tcamMatch i) := by
      have := i.isLt
      simp only [slotNext]
      split
      · subst_vars; decide
      · rename_i ne
        have : i.toNat ≠ 255 := fun e => ne (BitVec.eq_of_toNat_eq e)
        have h1 : (i + 1).toNat = i.toNat + 1 := by bv_omega
        simp only [phaseRank, slotRank, h1]
        omega
    exact ⟨h, h⟩
  | ex32 k => revert k; decide
  | ex16 k => revert k; decide
  | ex8 k => revert k; decide
  | actCsum e => cases e <;> decide
  | csumStart e => cases e <;> decide
  | csumAcc e => cases e <;> decide
  | csumZao e => cases e <;> decide
  | csumEnd e => cases e <;> decide
  | _ => decide

/-- What is known of a parse in progress under the invariant. -/
theorem MachineInv.runWf {s : State} (h : MachineInv s) {k : Nat} {c : Ctx} (hc : s.ctxOf k = some c) :
    (c.pkt.view c.dir).phv ≠ none ∧ WrittenFor c.snap c.pkt.ps.ver ∧ ShiftsDefined c.snap := by
  obtain ⟨i, r, p, hi, hr, hp, rfl⟩ := ctxOf_eq_some.1 hc
  obtain ⟨q, hq, -, hv, -, -, -, -, -, hw, hs⟩ := h.runs k i r hi hr
  rw [hp] at hq
  cases hq
  exact ⟨hv, hw, hs⟩

/-- Under the invariants the words at the place of a parse are written. -/
theorem slotWords_written {s : State} (h : MachineInv s) (hx : SearchExact s) {k : Nat} {c : Ctx}
    (hc : s.ctxOf k = some c) {sl : Slot} (hp : c.run.phase = .slot sl) :
    slotWords c.snap c.pkt.ps.idx c.run.csumAddr sl ≠ none := by
  obtain ⟨-, hw, -⟩ := h.runWf hc
  obtain ⟨-, -, hsl⟩ := hx k c hc
  obtain ⟨hm, ha, he⟩ := hsl sl hp
  have can : appliesAt sl = true → CanMatch c.snap c.pkt.ps.ver c.pkt.ps.idx.toNat := by
    intro e
    obtain ⟨hr, ctr, hk⟩ := ha e
    rw [hk] at hr
    exact canMatch_of_rowMatches hr
  have hi : c.pkt.ps.idx.toNat < 256 := c.pkt.ps.idx.isLt
  have csum : ∀ e, engineAt sl = some e → appliesAt sl = true →
      (c.snap.csumRow e).get c.run.csumAddr.toNat ≠ none := by
    intro e h1 h2
    obtain ⟨w, hw', hx'⟩ := he e h1
    have := hw.csum hm _ hi (can h2) w hw'
    cases e
    · rw [hx'.2]; exact this.1 hx'.1
    · rw [hx'.2]; exact this.2 hx'.1
  cases hsl : engineAt sl with
  | some e =>
    have := csum e hsl (by cases sl <;> first | rfl | cases hsl)
    cases sl <;> cases hsl <;> simpa [slotWords, asPair] using this
  | none =>
    by_cases hap : appliesAt sl = true
    · exact hw.slotWords_ne_none hm (can hap) _ hap hsl
    · cases sl <;> simp [appliesAt] at hap <;> simp [slotWords, asPair]
      exact hw.tcam hm _ (BitVec.isLt _)

/-- Under the invariants a step of a parsing instance answers a next state. -/
theorem inst_step_answers {s : State} (h : MachineInv s) (hx : SearchExact s) {c : Ctx} (hc : s.ctx = some c) :
    ∃ t, step s = .next t := by
  obtain ⟨ha, hk⟩ := ctx_eq_some.1 hc
  obtain ⟨hv, hw, hsh⟩ := h.runWf hk
  simp only [step, ha, instStep, hk]
  cases hp : c.run.phase with
  | head =>
    have : ∃ u, loopHead s = .next u := by
      rw [loopHead, onParse_eq hc]
      dsimp only
      split <;> exact ⟨_, rfl⟩
    obtain ⟨u, hu⟩ := this
    exact ⟨_, andThen_eq_next.2 ⟨u, hu, rfl⟩⟩
  | slot sl =>
    simp only [slotStep]
    cases hws : slotWords c.snap c.pkt.ps.idx c.run.csumAddr sl with
    | none => exact absurd hws (slotWords_written h hx hk hp)
    | some ws =>
      cases hd : decode (.micro sl) ws with
      | error e => exact ⟨(s.movePhase c.k Phase.skip).endTurn, by simp only [hd]⟩
      | ok i =>
        obtain ⟨u, hu⟩ := micro_answers (micro_of_decodeSlot hd) hc hv (by
          rintro amt rfl
          obtain ⟨-, -, hsl⟩ := hx _ c hk
          obtain ⟨hm, hap, -⟩ := hsl sl hp
          have key : sl = .eaShift := decodeSlot_eaShift hd
          subst key
          obtain ⟨w, hw1, rfl⟩ := Option.map_eq_some_iff.1 hws
          obtain ⟨hr, ctr, hkey⟩ := hap rfl
          rw [hkey] at hr
          have := hsh _ w _ (Memory.mem_of_get hw1) (canMatch_of_rowMatches hr)
          cases hd
          exact this)
        exact ⟨afterInst c.k u, by simp only [hd, hu, andThen]⟩

end Sys2Proof.Machine
end

