-- ==== Sys2Proof/Tests/Slice0.lean ====
section
/-! SUPPORT. The model's own tests: the smoke test of WellFormed; one written-out word for each constructor's
decoding; single steps whose expected values are 95_test_vectors.md's (named by their ids there) or worked by
hand from the rule; and a witness for the hypotheses of each statement that has any. -/

namespace Sys2Proof.Tests

open Sys2Proof Sys2Proof.Machine

/-! ### Well-formedness: an ill-formed term for each check -/

theorem test_wf_packet_name_too_wide : (Instr.pktReset (2 ^ 64)).wf = false := by decide
theorem test_wf_instance_name_too_wide : (Instr.parse 0 (2 ^ 64)).wf = false := by decide
theorem test_wf_too_long :
    (Instr.pktCreate (List.replicate (Config.lenMax + 1) 0) 0).wf = false := by
  simp [Instr.wf]
theorem test_wf_handle_zero : (Instr.pktWr 0 (.handle .teop (some 0))).wf = false := by decide
theorem test_wf_handle_too_wide : (Instr.pktWr 0 (.handle .teop (some (2 ^ 64)))).wf = false := by decide
theorem test_wf_counter_too_wide : (Instr.pktWr 0 (.num (.copyCtr (2 ^ 64)) 0)).wf = false := by decide
theorem test_wf_signature_too_long :
    (Instr.pktWr 0 (.bytes .signature (List.replicate (Config.lenMax + 1) 0))).wf = false := by
  simp [Instr.wf, FieldWrite.wf, fitsWord]
theorem test_wf_sub_index_too_wide : (Instr.cfgWr 0 (.act (2 ^ 64)) 0 0 0).wf = false := by decide
theorem test_wf_row_index_too_wide : (Instr.cfgWr 0 .ea (2 ^ 64) 0 0).wf = false := by decide

/-! ### Decoding: words from the spec -/

/-- P1 row 0: value and mask words. -/
theorem test_decode_tcam :
    decode (.micro (.tcamMatch 7)) [0x0000000000000800, 0x000000FF0000FFFF] =
      .ok (.tcamMatch 7 ⟨0x0800, 0, 0, 0, 0, 0, 0, 0⟩ ⟨0xFFFF, 0, 0, 0xFF, 0, 0, 0, 0⟩) := by decide
/-- P3 row 3, P5 row 1: counter, version and 8-bit fields. -/
theorem test_decode_tcam_flags :
    decode (.micro (.tcamMatch 3)) [0x0000080100010000, 0x00000AFF00010000] =
      .ok (.tcamMatch 3 ⟨0, 1, 0, 1, 0, 0, 0, 1⟩ ⟨0, 1, 0, 0xFF, 0, 1, 0, 1⟩) := by decide
theorem test_decode_bare :
    decode (.micro .winSample) [] = .ok .winSample ∧ decode (.micro .tcamKey) [] = .ok .tcamKey ∧
    decode (.micro .tcamSelect) [] = .ok .tcamSelect := by decide
/-- P2 rows 0 and 1. -/
theorem test_decode_ea :
    decode (.micro .eaShift) [0x0500004C02403800] = .ok (.eaShift 14) ∧
    decode (.micro .eaArm16) [0x0500004C02403800] = .ok (.eaArm16 0) ∧
    decode (.micro .eaArm8_0) [0x0500004C02403800] = .ok (.eaArm8_0 9) ∧
    decode (.micro .eaArm8_1) [0x0500004C02403800] = .error .notSelected ∧
    decode (.micro .eaNxt) [0x0507D00C00005000] = .ok (.eaNxt 0x40 0x1F) ∧
    decode (.micro .eaBufreq) [0x0507D00C00005000] = .ok (.eaBufreq 20) ∧
    decode (.micro .eaDone) [0x0507D00C00005000] = .ok (.eaDone 0) := by decide
/-- P3 rows 0 and 2, E3, and by R104 a reload from source 1 with index 5. -/
theorem test_decode_ctr :
    decode (.micro .eaCtr) [0x0000004800800009] = .ok (.eaCtrLdi 2) ∧
    decode (.micro .eaCtr) [0x201] = .ok (.eaCtrLdi 0x80) ∧
    decode (.micro .eaCtr) [0x00000040000013FC] = .ok (.eaCtrAdd 0xFF) ∧
    decode (.micro .eaCtr) [0x17] = .ok (.eaCtrLds 5) := by decide
/-- By R104: bit 36, offset 9 in bits 33:28. -/
theorem test_decode_arm8_1 : decode (.micro .eaArm8_1) [0x1090000000] = .ok (.eaArm8_1 9) := by decide
/-- X1, X2, X3 slots in each lane's half; P2 row 1's `W0`. -/
theorem test_decode_ex32 :
    decode (.micro (.ex32 0)) [0x0000024100000131] = .ok (.actEx32_0 ⟨0, 12, 1, 0, 0⟩) ∧
    decode (.micro (.ex32 1)) [0x0000024100000131] = .ok (.actEx32_1 ⟨0, 16, 2, 0, 0⟩) ∧
    decode (.micro (.ex32 2)) [0x0000000000000971] = .ok (.actEx32_2 ⟨0, 28, 9, 0, 0⟩) ∧
    decode (.micro (.ex32 3)) [0x0000097100000000] = .ok (.actEx32_3 ⟨0, 28, 9, 0, 0⟩) := by decide
theorem test_decode_ex16 :
    decode (.micro (.ex16 0)) [0x000000000001FE0B] = .ok (.actEx16_0 ⟨1, 2, 0xFE, 1, 0⟩) ∧
    decode (.micro (.ex16 1)) [0x00000A0100000000] = .ok (.actEx16_1 ⟨0, 0, 10, 0, 0⟩) ∧
    decode (.micro (.ex16 2)) [0x0000000000000B09] = .ok (.actEx16_2 ⟨0, 2, 11, 0, 0⟩) ∧
    decode (.micro (.ex16 3)) [0x0001FE0B00000000] = .ok (.actEx16_3 ⟨1, 2, 0xFE, 1, 0⟩) := by decide
theorem test_decode_ex8 :
    decode (.micro (.ex8 0)) [0x0000152100001425] = .ok (.actEx8_0 ⟨0, 9, 20, 0, 0⟩) ∧
    decode (.micro (.ex8 1)) [0x0000152100001425] = .ok (.actEx8_1 ⟨0, 8, 21, 0, 0⟩) ∧
    decode (.micro (.ex8 2)) [0x0000000000060801] = .ok (.actEx8_2 ⟨0, 0, 8, 0, 3⟩) ∧
    decode (.micro (.ex8 3)) [0x0006080100000000] = .ok (.actEx8_3 ⟨0, 0, 8, 0, 3⟩) := by decide
/-- X7, X10, P2 row 1, Q1, Q2, Q2b, Q3; engine 1 by R107: bit 15, row 4 in bits 20:16. -/
theorem test_decode_w6 :
    decode (.micro .actDoff) [0x9] = .ok (.actDoff 1 4) ∧
    decode (.micro (.actCsum .e0)) [0xE00] = .ok (.actCsum0 3) ∧
    decode (.micro (.actCsum .e1)) [0xE00] = .error .notSelected ∧
    decode (.micro (.actCsum .e1)) [0x48000] = .ok (.actCsum1 4) ∧
    decode (.micro .actPri) [0x29000000] = .ok (.actPriImm 5) ∧
    decode (.micro .actPri) [0x28000000] = .error .notSelected ∧
    decode (.micro .actPri) [0x2E000000] = .error .notSelected ∧
    decode (.micro .actPri) [0x3D200000] = .ok (.actPriFld 0 5 7) := by decide
/-- C6a, C9, and P2's row with `add` in word 1. -/
theorem test_decode_csum :
    decode (.micro (.csumStart .e0)) [0x001C0000000FFFFF, 0] = .ok (.csumStart .e0) ∧
    decode (.micro (.csumAcc .e1)) [0x0007000080000000, 0xEDCB] =
      .ok (.csumAcc .e1 ⟨0x80000000, 0x10000, 1, 0xEDCB⟩) ∧
    decode (.micro (.csumZao .e0)) [0x00FC000000000003, 0] = .ok (.csumZao .e0 7) ∧
    decode (.micro (.csumZao .e0)) [0x0004000000000003, 0] = .error .notSelected ∧
    decode (.micro (.csumEnd .e1)) [0x00FC000000000003, 0] = .ok (.csumEnd .e1 7) := by decide
/-- The operation codes of R115; the operand words are the model's layout (log 14). -/
theorem test_decode_packet_commands :
    decode .port [0x00, 3, 1] = .ok (.parse 3 1) ∧
    decode .port [0x10, 0x2A, 2, 0xAB, 0xCD] = .ok (.pktCreate [0xAB, 0xCD] 0x2A) ∧
    decode .port [0x11, 4, 2, 15, 5, 1] = .ok (.pktClone 4 .mcC2c 15 5 1) ∧
    decode .port [0x12, 3] = .ok (.pktReset 3) ∧ decode .port [0x13, 3] = .ok (.pktSetEgress 3) ∧
    decode .port [0x14, 3] = .ok (.pktRetire 3) ∧
    decode .port [0x15, 3, 16, 1, 9] = .ok (.pktWr 3 (.handle (.phv .egr) (some 9))) := by decide
theorem test_decode_id_and_config_commands :
    decode .port [0x20, 3, 0x2A] = .ok (.pktId 3 0x2A) ∧ decode .port [0x21, 3, 2] = .ok (.pktType 3 2) ∧
    decode .port [0x22, 3, 0x2A, 2, 5] = .ok (.pktIdMcCpy 3 0x2A 2 5) ∧
    decode .port [0x23, 3, 0x2A, 1, 0] = .ok (.pktIdMirrCpy 3 0x2A 1 0) ∧
    decode .port [0x24, 3, 0x2A, 2, 5] = .ok (.pktIdMcC2c 3 0x2A 2 5) ∧
    decode .port [0x30, 0, 2, 0, 1, 0x531, 0] = .ok (.cfgWr 0 (.act 1) 0 0x531 0) := by decide
theorem test_decode_rejects :
    decode .port [0x01] = .error .reservedOpcode ∧ decode .port [0x114, 3] = .error .reservedBits ∧
    decode .port [0x21, 3, 16] = .error .operandRange ∧ decode .port [0x14] = .error .wordCount ∧
    decode .port [0x15, 3, 10, 0, 9] = .error .badOperand ∧ decode .port [] = .error .wordCount := by decide

/-! ### Small states -/

/-- Bytes `0, 1, …, n - 1`. -/
def ramp (n : Nat) : List Byte := (List.range n).map (BitVec.ofNat 8)
/-- Cleared parse registers. -/
def ps0 : ParseRegs := .cleared
/-- A parse of packet 0 at the loop head. -/
def run0 : Run := Run.start 0
/-- A packet of instance 0, PHV 1 behind its ingress view. -/
def pkt0 (b : List Byte) (ps : ParseRegs) : Packet :=
  { Packet.fresh b 0x2A 2 with owner := .inst 0, ing := { View.cleared with phv := some 1 }, ps := ps }
/-- The inactive row of R112 in the rows from `j` on, `n` of them. -/
def inactive : Nat → Nat → Memory (W64 × W64)
  | 0, _ => []
  | n + 1, j => (j, (0, 0x00000C0000000000)) :: inactive n (j + 1)
/-- Configuration of P1 with another EaRow and with engine 0 invoked on C6a's row: one TCAM row in use, every other
inactive, and a budget of 4. -/
def cfgEa (ea : W64) : InstCfg :=
  { InstCfg.reset with
    tcam := (0, (0x0000000000000800, 0x000000FF0000FFFF)) :: inactive 255 1
    ea := [(0, ea)]
    act := [(0, 0), (1, 0), (2, 0x0000000000000531), (3, 0), (4, 0), (5, 0), (6, 0x200)]
    csumRow0 := [(0, (0x001C0000000FFFFF, 0))], defOff16 := 12, maxIter := 4
    startWritten := true, offWritten := true, iterWritten := true }
/-- Configuration of P1 with engine 0 invoked. -/
def cfg0 : InstCfg := cfgEa 0x0000002000003800
/-- Instance 0 parsing packet 0. -/
def busy (b : List Byte) (ps : ParseRegs) (r : Run) : State :=
  { State.reset with
    insts := [{ dir := .ing, cfg := cfg0, snap := cfg0, run := some r }, Instance.reset .egr]
    packets := [(0, pkt0 b ps)], nextPkt := 1 }
/-- Its parse. -/
def parse (b : List Byte) (ps : ParseRegs) (r : Run) : Ctx :=
  { k := 0, pid := 0, params := .default, dir := .ing, snap := cfg0, run := r, pkt := pkt0 b ps, phvs := [] }
/-- The host with packet 0 of its own and both instances idle. -/
def idle (q : Packet) : State :=
  { State.reset with
    insts := [{ dir := .ing, cfg := cfg0, snap := .reset, run := none }, Instance.reset .egr]
    packets := [(0, { q with owner := .host })], nextPkt := 1 }
/-- What packet `p` is after an outcome. -/
def pktAfter (o : Host.Outcome State Fault Refusal) (p : Nat) : Option Packet :=
  match o with
  | .next t => t.packets.get p
  | .fault _ | .refused _ => none
/-- The parse registers of packet 0 after an outcome. -/
def psAfter (o : Host.Outcome State Fault Refusal) : Option ParseRegs := (pktAfter o 0).map Packet.ps
/-- Outcome and cause of packet 0 after an outcome. -/
def endAfter (o : Host.Outcome State Fault Refusal) : Option (ParseOutcome × Cause) :=
  (pktAfter o 0).map fun q => (q.outcome, q.cause)
/-- What instance 0 does after an outcome. -/
def runAfter (o : Host.Outcome State Fault Refusal) : Option Run :=
  match o with
  | .next t => t.insts.head?.bind Instance.run
  | .fault _ | .refused _ => none
/-- What container `d` of PHV 1 holds after an outcome. -/
def phvAfter (o : Host.Outcome State Fault Refusal) (d : BitVec 8) : Option PhvVal :=
  match o with
  | .next t => phvRead t.phvs 1 d
  | .fault _ | .refused _ => none
/-- The configuration of instance 0 after an outcome. -/
def cfgAfter (o : Host.Outcome State Fault Refusal) : Option InstCfg :=
  match o with
  | .next t => t.insts.head?.map Instance.cfg
  | .fault _ | .refused _ => none

/-! ### Which launches a configuration allows -/

/-- The inactive rows: which there are, in what order, and what they hold. -/
theorem inactive_mem {n j : Nat} {e : Nat × (W64 × W64)} (h : e ∈ inactive n j) :
    j ≤ e.1 ∧ e.1 < j + n ∧ e.2 = (0, 0x00000C0000000000) := by
  induction n generalizing j with
  | zero => cases h
  | succ n ih =>
    rcases List.mem_cons.1 h with rfl | h
    · exact ⟨Nat.le_refl _, by dsimp only; omega, rfl⟩
    · obtain ⟨h1, h2, h3⟩ := ih h
      exact ⟨by omega, by omega, h3⟩
theorem inactive_wf (n j : Nat) : Memory.wf (inactive n j) := by
  induction n generalizing j with
  | zero => exact List.Pairwise.nil
  | succ n ih => exact List.pairwise_cons.2 ⟨fun e h => (inactive_mem h).1, ih _⟩
theorem inactive_get {n j k : Nat} (h1 : j ≤ k) (h2 : k < j + n) :
    (inactive n j).get k = some (0, 0x00000C0000000000) := by
  induction n generalizing j with
  | zero => omega
  | succ n ih =>
    by_cases e : j = k
    · simp [inactive, Memory.get, e]
    · simp only [inactive, Memory.get, if_neg e]
      exact ih (by omega) (by omega)

/-- T8, and R112: no key matches the inactive row. -/
theorem test_inactive_row_cannot_match : ∀ ver, rowCanMatch 0 0x00000C0000000000 ver = false := by decide

theorem cfgEa_get (ea : W64) {j : Nat} (h : j < 256) : (cfgEa ea).tcam.get j = some
    (if j = 0 then (0x0000000000000800, 0x000000FF0000FFFF) else (0, 0x00000C0000000000)) := by
  by_cases e : j = 0
  · subst e; rfl
  · rw [if_neg e]
    show (if 0 = j then _ else (inactive 255 1).get j) = _
    rw [if_neg (Ne.symm e)]
    exact inactive_get (by omega) (by omega)

theorem cfgEa_canMatch {ea : W64} {ver : BitVec 1} {j : Nat} (hj : j < 256)
    (h : CanMatch (cfgEa ea) ver j) : j = 0 := by
  by_contra e
  rw [← canMatch_iff, InstCfg.canMatch, cfgEa_get ea hj, if_neg e] at h
  exact Bool.false_ne_true ((test_inactive_row_cannot_match ver).symm.trans h)

/-- The host has written all that a parse under it can read. -/
theorem cfgEa_written (ea : W64) (ver : BitVec 1) : WrittenFor (cfgEa ea) ver where
  ctl := ⟨rfl, rfl, rfl⟩
  tcam _ j hj := by rw [cfgEa_get ea hj]; nofun
  ea _ j hj hc := by rw [cfgEa_canMatch hj hc]; nofun
  act _ j hj hc := by rw [cfgEa_canMatch hj hc]; show ∀ n < 7, cfg0.act.get (8 * 0 + n) ≠ none; decide
  csum _ j hj hc w hw := by
    rw [cfgEa_canMatch hj hc] at hw
    cases hw
    exact ⟨fun _ => show cfg0.csumRow0.get 0 ≠ none by decide, fun h => absurd h (by decide)⟩
theorem cfg0_written (ver : BitVec 1) : WrittenFor cfg0 ver := cfgEa_written _ ver

theorem cfg0_shifts : ShiftsDefined cfg0 := by
  intro j w ver hm _
  simp only [cfg0, cfgEa, List.mem_singleton, Prod.mk.injEq] at hm
  rw [hm.2]
  decide

theorem cfg0_wf : cfg0.Wf where
  tcam := ⟨List.pairwise_cons.2 ⟨fun e h => (inactive_mem h).1, inactive_wf _ _⟩, fun e h => by
    rcases List.mem_cons.1 h with rfl | h
    · decide
    · exact (inactive_mem h).2.1⟩
  ea := by decide
  act := by decide
  csumRow0 := by decide
  csumRow1 := by decide
/-- Row 0 of the configuration can be matched, by the key of T6b. -/
theorem cfgEa_canMatch_zero (ea : W64) : CanMatch (cfgEa ea) 0 0 :=
  ⟨0x800, 0x000000FF0000FFFF, ⟨0x0800, 0x11, 0x22⟩, 0, 0, rfl, by decide⟩
theorem cfgEa_shifts_undefined {ea : W64} (h : 32 < (ea.extractLsb' 10 6).toNat) : ¬ ShiftsDefined (cfgEa ea) :=
  fun hs => absurd (hs 0 ea 0 (List.mem_singleton.2 rfl) (cfgEa_canMatch_zero ea)) (Nat.not_le.2 h)

/-! ### One step each -/

/-- V1's packet. -/
def ether : List Byte := [0x00, 0x11, 0x22, 0x33, 0x44, 0x55, 0x66, 0x77, 0x88, 0x99, 0xAA, 0xBB, 0x08, 0x00]

/-- T1. -/
theorem test_winSample :
    (psAfter (exec .winSample (busy ether { ps0 with off16 := 12 } run0))).map ParseRegs.win =
      some ⟨0x0800, 0x00, 0x00⟩ := by decide
/-- T2. -/
theorem test_winSample_fault :
    endAfter (exec .winSample (busy ether { ps0 with off16 := 13 } run0)) =
      some (.failed, .outOfBoundsRead) := by decide
/-- T3 and T4. -/
theorem test_tcamKey :
    (runAfter (exec .tcamKey (busy [] { ps0 with win := ⟨0x0800, 0x11, 0x22⟩ } run0))).map Run.key =
      some 0x050022110800 ∧
    (runAfter (exec .tcamKey (busy []
      { ps0 with win := ⟨0x0800, 0x11, 0x22⟩, state := 5, ctr := 0xFF, ver := 1 } run0))).map Run.key =
      some 0x0A0522110800 := by decide
/-- T6b matches and T6d does not. -/
theorem test_tcamMatch :
    (runAfter (exec (.tcamMatch 3 (decTcam 0xFFFFFF00FFFF0800) (decTcam 0x000000FF0000FFFF))
      (busy [] ps0 { run0 with key := 0x050022110800 }))).map Run.hits = some [3] ∧
    (runAfter (exec (.tcamMatch 3 (decTcam 0x800) (decTcam 0x000000FF0000FFFF))
      (busy [] ps0 { run0 with key := 0x0A0522110800 }))).map Run.hits = some [] := by decide
/-- T9. -/
theorem test_tcamSelect :
    (psAfter (exec .tcamSelect (busy [] ps0 { run0 with hits := [3, 7] }))).map
      (fun r => (r.hit, r.idx)) = some (1, 3) := by decide
/-- T12. -/
theorem test_tcamSelect_none :
    endAfter (exec .tcamSelect (busy [] { ps0 with idx := 9 } run0)) = some (.failed, .noMatch) ∧
    (psAfter (exec .tcamSelect (busy [] { ps0 with idx := 9 } run0))).map ParseRegs.idx = some 9 := by decide
/-- The host with packet 0 of its own, and instance 0 under another configuration. -/
def idleCfg (c : InstCfg) (b : List Byte) (ps : ParseRegs) : State :=
  { idle (pkt0 b ps) with insts := [{ dir := .ing, cfg := c, snap := .reset, run := none }, Instance.reset .egr] }
/-- What PARSE comes to there. -/
theorem parse_idleCfg (c : InstCfg) (b : List Byte) (ps : ParseRegs) :
    exec (.parse 0 0) (idleCfg c b ps) =
      if c.written 0 = false then .refused .configUnwritten
      else if c.shiftsDefined = false then .refused .reservedShiftAmt
      else .next ((idleCfg c b ps).launch 0 { dir := .ing, cfg := c, snap := .reset, run := none } 0
        { pkt0 b ps with owner := .host }) := rfl
/-- R60: the armed offset is the default, the packet the instance's. -/
theorem test_parse_start :
    (pktAfter (exec (.parse 0 0) (idleCfg cfg0 ether { ps0 with ctr := 7 })) 0).map
      (fun q => (q.owner, q.ps.off16, q.ps.ctr)) = some (.inst 0, 12, 0) := by
  rw [parse_idleCfg, (written_iff _ _).2 (cfg0_written 0), (shiftsDefined_iff _).2 cfg0_shifts]
  decide
/-- R127: the matchable row 0 holds a `shift_amt` of 33. -/
theorem test_parse_reserved_shift :
    exec (.parse 0 0) (idleCfg (cfgEa 0x8400) ether ps0) = .refused .reservedShiftAmt := by
  have h : (cfgEa 0x8400).shiftsDefined = false := by
    rw [← Bool.not_eq_true, shiftsDefined_iff]
    exact cfgEa_shifts_undefined (by decide)
  rw [parse_idleCfg, (written_iff _ _).2 (cfgEa_written _ 0), h]
  rfl
/-- R24, U7: after reset nothing is written; R342 (d): nor is it with the three registers but one. -/
theorem test_parse_unwritten :
    exec (.parse 0 0) (idleCfg .reset ether ps0) = .refused .configUnwritten ∧
    exec (.parse 0 0) (idleCfg { cfg0 with iterWritten := false } ether ps0) = .refused .configUnwritten ∧
    exec (.parse 0 0) (idleCfg { cfg0 with tcam := [] } ether ps0) = .refused .configUnwritten ∧
    exec (.parse 0 0) (idleCfg { cfg0 with tcam := [], maxIter := 0 } ether ps0) ≠ .refused .configUnwritten :=
  ⟨rfl, rfl, rfl, nofun⟩
/-- R162 and R141 at the spec's grain, R354: one iteration that exhausts the budget, and one that faults at T2. -/
theorem test_iterStep :
    endAfter (iterStep (busy ether { ps0 with iter := 4 } run0)) = some (.aborted, .loopBudgetExceeded) ∧
    endAfter (iterStep (busy ether { ps0 with off16 := 13 } run0)) = some (.failed, .outOfBoundsRead) := by
  decide
/-- E9. -/
theorem test_loop_budget :
    endAfter (step (busy ether { ps0 with iter := 4 } run0)) = some (.aborted, .loopBudgetExceeded) := by decide
/-- E2. -/
theorem test_eaCtrAdd_wraps :
    (psAfter (exec (.eaCtrAdd 1) (busy [] { ps0 with ctr := 127 } run0))).map ParseRegs.ctr = some 0x80 := by
  decide
/-- E2b. -/
theorem test_eaCtrAdd_hold :
    (psAfter (exec (.eaCtrAdd 0xFF) { busy [] { ps0 with ctr := 2 } run0 with
      params := { Config.Params.default with ctrNoload := .hold } })).map ParseRegs.ctr = some 2 := by decide
/-- E3. -/
theorem test_eaCtrLdi :
    (psAfter (exec (.eaCtrLdi 0x80) (busy [] { ps0 with ctr := 2 } run0))).map ParseRegs.ctr = some 0x80 := by
  decide
/-- R166: whatever `CtrSrc1` is. -/
theorem test_eaCtrLds :
    (psAfter (exec (.eaCtrLds 5) (busy [] { ps0 with win := ⟨0x0800, 0x11, 0x22⟩ } run0))).map ParseRegs.ctr =
      some (Config.ctrSrc1 5 0x22110800) := rfl
/-- E5. -/
theorem test_eaShift :
    (psAfter (exec (.eaShift 10) (busy (ramp 20) ps0 { run0 with cur0 := 10 }))).map ParseRegs.cur = some 20 ∧
    endAfter (exec (.eaShift 11) (busy (ramp 20) ps0 { run0 with cur0 := 10 })) =
      some (.failed, .outOfBoundsRead) := by decide
/-- E6b under both merges. -/
theorem test_eaNxt :
    (psAfter (exec (.eaNxt 0x4F 0x0F) (busy [] { ps0 with win := ⟨0, 6, 0⟩ } run0))).map ParseRegs.nxt =
      some 0x46 ∧
    (psAfter (exec (.eaNxt 0x4F 0x0F) { busy [] { ps0 with win := ⟨0, 6, 0⟩ } run0 with
      params := { Config.Params.default with stateMerge := .or } })).map ParseRegs.nxt = some 0x4F := by decide
/-- E7, and the same for the two 8-bit offsets. -/
theorem test_eaArm :
    (psAfter (exec (.eaArm16 5) (busy [] { ps0 with off16 := 12 } run0))).map ParseRegs.off16 = some 5 ∧
    (psAfter (exec (.eaArm8_0 9) (busy [] ps0 run0))).map (fun r => (r.off8_0, r.off8_1)) = some (9, 0) ∧
    (psAfter (exec (.eaArm8_1 9) (busy [] ps0 run0))).map (fun r => (r.off8_0, r.off8_1)) = some (0, 9) := by
  decide
/-- E8. -/
theorem test_eaBufreq :
    (psAfter (exec (.eaBufreq 20) (busy [] ps0 run0))).map ParseRegs.bufreq = some 20 := by decide
/-- F5, and R172 without `done`. -/
theorem test_eaDone :
    endAfter (exec (.eaDone 1) (busy [] { ps0 with nxt := 3 } run0)) = some (.success, .noError) ∧
    (psAfter (exec (.eaDone 0) (busy [] { ps0 with nxt := 3 } run0))).map ParseRegs.state = some 3 := by decide
/-- X8, and X7's first row. -/
theorem test_actDoff :
    (psAfter (exec (.actDoff 0 10) (busy [] { ps0 with doff := 250 } run0))).map ParseRegs.doff = some 4 ∧
    (runAfter (exec (.actDoff 1 4) (busy [] { ps0 with doff := 9 } run0))).map Run.doffEff = some 0 := by decide
/-- X1 in all four lanes, and X1b. -/
theorem test_actEx32 :
    (∀ i ∈ [Instr.actEx32_0 ⟨0, 28, 9, 0, 0⟩, .actEx32_1 ⟨0, 28, 9, 0, 0⟩, .actEx32_2 ⟨0, 28, 9, 0, 0⟩,
      .actEx32_3 ⟨0, 28, 9, 0, 0⟩],
      phvAfter (exec i (busy (ramp 32) ps0 run0)) 9 = some (.w32 0x1C1D1E1F)) ∧
    endAfter (exec (.actEx32_0 ⟨0, 29, 9, 0, 0⟩) (busy (ramp 32) ps0 run0)) =
      some (.failed, .outOfBoundsRead) := by decide
/-- X2 in all four lanes. -/
theorem test_actEx16 :
    ∀ i ∈ [Instr.actEx16_0 ⟨1, 2, 0xFE, 1, 0⟩, .actEx16_1 ⟨1, 2, 0xFE, 1, 0⟩, .actEx16_2 ⟨1, 2, 0xFE, 1, 0⟩,
      .actEx16_3 ⟨1, 2, 0xFE, 1, 0⟩],
      phvAfter (exec i (busy (ramp 32) ps0 { run0 with doffEff := 4 })) 2 = some (.w16 0x0607) := by decide
/-- X3 in all four lanes, and X6. -/
theorem test_actEx8 :
    (∀ i ∈ [Instr.actEx8_0 ⟨0, 0, 8, 0, 3⟩, .actEx8_1 ⟨0, 0, 8, 0, 3⟩, .actEx8_2 ⟨0, 0, 8, 0, 3⟩,
      .actEx8_3 ⟨0, 0, 8, 0, 3⟩], phvAfter (exec i (busy (ramp 32) ps0 run0)) 11 = some (.w8 0)) ∧
    endAfter (exec (.actEx8_0 ⟨1, 30, 8, 0, 0⟩) (busy (ramp 32) ps0 { run0 with doffEff := 250 })) =
      some (.failed, .outOfBoundsRead) := by decide
/-- R210: each engine's own sum. -/
theorem test_actCsum :
    (runAfter (exec (.actCsum0 3) (busy [] { ps0 with csum0 := ⟨5, 0, 0, 0⟩, csum1 := ⟨6, 0, 0, 0⟩ } run0))).map
      (fun r => (r.csumAddr, r.sumIn)) = some (3, 5) ∧
    (runAfter (exec (.actCsum1 4) (busy [] { ps0 with csum0 := ⟨5, 0, 0, 0⟩, csum1 := ⟨6, 0, 0, 0⟩ } run0))).map
      (fun r => (r.csumAddr, r.sumIn)) = some (4, 6) := by decide
/-- R232. -/
theorem test_csumStart :
    (runAfter (exec (.csumStart .e0) (busy [] ps0 { run0 with sumIn := 0x1234 }))).map Run.sumIn = some 0 := by
  decide
/-- The running sum of an engine after CSUM.ACC on a window. -/
def sumAfter (b : List Byte) (r : CsumLanes) (s : BitVec 16) : Option (BitVec 16) :=
  (psAfter (exec (.csumAcc .e0 r) (busy b ps0 { run0 with sumIn := s }))).map fun p => p.csum0.sum
/-- C1 to C5, C8, C9, C10. -/
theorem test_csumAcc :
    sumAfter [0, 0x12, 0x34, 0x56, 0x78] ⟨0x1E, 0, 0, 0⟩ 0 = some 0xAC68 ∧
    sumAfter [0, 0x12, 0x34, 0x56, 0x78] ⟨0x1E, 0, 1, 0⟩ 0 = some 0x68AC ∧
    sumAfter [0, 0x12, 0x34, 0x56, 0x78] ⟨0x1E, 7, 0, 0⟩ 0 = some 0x68AC ∧
    sumAfter [0xFF, 0xFF, 0, 1, 0x80, 0, 0x80, 0] ⟨0xFF, 0, 0, 0⟩ 0 = some 0x0002 ∧
    sumAfter [] ⟨0, 0, 0, 0xEDCC⟩ 0x1234 = some 0x0001 ∧
    sumAfter [0xAB, 0xCD] ⟨3, 1, 0, 0⟩ 0 = some 0xCDAB ∧
    sumAfter (List.replicate 31 0 ++ [0x9A]) ⟨0x80000000, 0x10000, 1, 0⟩ 0 = some 0x009A := by decide
/-- C11 at the boundary: byte 19 is the last of 20. -/
theorem test_csumAcc_fault :
    endAfter (exec (.csumAcc .e0 ⟨0x100000, 0, 0, 0⟩) (busy (ramp 20) ps0 run0)) =
      some (.failed, .outOfBoundsRead) ∧
    sumAfter (ramp 20) ⟨0x80000, 0, 0, 0⟩ 0 = some 0x0013 := by decide
/-- C6a, split as in log 3. -/
theorem test_csumZao :
    (psAfter (exec (.csumZao .e1 7) (busy [] ps0 run0))).map ParseRegs.csum1 = some ⟨0xFFFF, 0, 0, 7⟩ := by
  decide
theorem test_csumEnd :
    (psAfter (exec (.csumEnd .e1 7) (busy [] { ps0 with csum1 := ⟨0xFFFF, 0, 0, 7⟩ } run0))).map
      ParseRegs.csum1 = some ⟨0xFFFF, 0xFFFF, 1, 7⟩ := by decide
/-- Q1, Q3, Q4, Q5. -/
theorem test_actPri :
    (pktAfter (exec (.actPriImm 5) (busy [] ps0 run0)) 0).map Packet.priority = some 5 ∧
    (pktAfter (exec (.actPriFld 0 5 7) (busy [] { ps0 with win := ⟨0xA123, 0, 0⟩ } run0)) 0).map
      Packet.priority = some 5 ∧
    (pktAfter (exec (.actPriFld 2 7 7) (busy [] { ps0 with win := ⟨0, 0xFF, 0⟩ } run0)) 0).map
      Packet.priority = some 1 ∧
    (pktAfter (exec (.actPriFld 3 0 3) (busy [] { ps0 with win := ⟨0, 0, 0x1E⟩ } run0)) 0).map
      Packet.priority = some 2 := by decide
/-- K1. -/
theorem test_pktCreate :
    (pktAfter (exec (.pktCreate [1] 0x2A) State.reset) 0).map (fun q => (q.pktId, q.bytes, q.recircCnt)) =
      some (0x2A, [1], 0) := by decide
/-- K11 and K12. -/
theorem test_pktClone :
    (pktAfter (exec (.pktClone 0 .mc 2 5 0) (idle { pkt0 [1] ps0 with priority := 5 })) 1).map
      (fun q => (q.pktId, q.priority, q.bytes)) = some (0x300200050000002A, 0, [1]) ∧
    (pktAfter (exec (.pktClone 0 .mirror 1 0 1) (idle { pkt0 [1] ps0 with
      priority := 3, pktId := 0x300200050000002A })) 1).map (fun q => (q.pktId, q.priority, q.ing.phv)) =
      some (0x100100000000002A, 3, some 1) := by decide
/-- K9. -/
theorem test_pktReset :
    pktAfter (exec (.pktReset 0) (idle { pkt0 [1] { ps0 with cur := 12 } with
      priority := 5, outcome := .failed, cause := .noMatch, activeView := .egr, recircCnt := 1,
      pktId := 0x300200050000002A, signature := [0x73], q := ⟨3, 0, 0, [0, 0]⟩ })) 0 =
      some { Packet.fresh [1] 0x300200050000002A 2 with recircCnt := 1, signature := [0x73] } := by decide
/-- K10. -/
theorem test_pktSetEgress :
    (pktAfter (exec (.pktSetEgress 0) (idle { pkt0 [1] ps0 with
      ing := ⟨some 1, some 2, some 3, 1, 1, 14, 54⟩ })) 0).map (fun q => (q.egr, q.activeView)) =
      some (⟨some 1, some 2, some 3, 1, 1, 14, 54⟩, .egr) := by decide
/-- P4 step 12. -/
theorem test_pktRetire :
    pktAfter (exec (.pktRetire 0) (idle (pkt0 [1] ps0))) 0 = none ∧
    (∃ t, exec (.pktRetire 0) (idle (pkt0 [1] ps0)) = .next t) := ⟨by decide, _, rfl⟩
/-- P4 step 2; a version of 3 is truncated to one bit. -/
theorem test_pktWr :
    (pktAfter (exec (.pktWr 0 (.num .recircCnt 0x101)) (idle (pkt0 [1] ps0))) 0).map Packet.recircCnt = some 1 ∧
    (pktAfter (exec (.pktWr 0 (.num (.version .egr) 3)) (idle (pkt0 [1] ps0))) 0).map
      (fun q => (q.egr.version, q.ing.version)) = some (1, 0) := by decide
/-- K7, K8, K8b, K5, K4. -/
theorem test_pkt_ids :
    (pktAfter (exec (.pktId 0 0x11) (idle { pkt0 [] ps0 with pktId := 0x300200050000002A })) 0).map
      Packet.pktId = some 0x3002000500000011 ∧
    (pktAfter (exec (.pktType 0 2) (idle { pkt0 [] ps0 with pktId := 0x300200050000002A })) 0).map
      Packet.pktId = some 0x200200050000002A ∧
    (pktAfter (exec (.pktIdMcCpy 0 0x2A 1 1) (idle { pkt0 [] ps0 with pktId := 0x380200050000002A })) 0).map
      Packet.pktId = some 0x300100010000002A ∧
    (pktAfter (exec (.pktIdMirrCpy 0 0x2A 1 0) (idle (pkt0 [] ps0))) 0).map
      Packet.pktId = some 0x100100000000002A ∧
    (pktAfter (exec (.pktIdMcC2c 0 0x2A 2 5) (idle (pkt0 [] ps0))) 0).map
      Packet.pktId = some 0x380200050000002A := by decide
/-- M4. -/
theorem test_cfgWr_act :
    (cfgAfter (exec (.cfgWr 0 (.act 1) 0 0x531 0) (idle (pkt0 [] ps0)))).map
      (fun c => (c.act.get 2, c.act.get 3)) = some (some 0x531, some 0) := by decide
/-- M5, with the word R111's positions give: 12, 2 and 3. -/
theorem test_cfgWr_ctl :
    (cfgAfter (exec (.cfgWr 0 .ctl 1 0x308C 0) (idle (pkt0 [] ps0)))).map
      (fun c => (c.defOff16, c.defOff8_0, c.defOff8_1)) = some (12, 2, 3) := by decide

/-- The opcode table's numbers of EA.DONE, PARSE and CSUM.ZAO run as the first step after reset. -/
theorem test_table_numbers :
    decodeTableWord 64 0x2000000000 = some (.eaDone 1) ∧ decodeTableWord 8 0 = some (.parse 0 0) ∧
    decodeTableWord 64 0x0018000000000000 = some (.csumZao .e0 0) ∧
    (∃ t, step (State.reset.withFetchWord 64 0x2000000000) = .next t) ∧
    (∃ t, step (State.reset.withFetchWord 8 0) = .next t) ∧
    (∃ t, step (State.reset.withFetchWord 64 0x0018000000000000) = .next t) :=
  ⟨by decide, by decide, by decide, ⟨_, rfl⟩, ⟨_, rfl⟩, ⟨_, rfl⟩⟩

/-! ### Witnesses: states and operands that meet the hypotheses of each statement

Each is named after its statement. A statement of several cases has one conjunct per case, at the value where
the case begins or ends. -/

/-- `busy` is a parse in progress of the instance on turn. -/
theorem busy_ctx (b : List Byte) (ps : ParseRegs) (r : Run) (h : r.pkt = 0) :
    (busy b ps r).ctx = some (parse b ps r) := by
  obtain ⟨pkt, ph, c, k, hs, d, a, i⟩ := r
  cases h
  rfl

theorem get_single {α : Type} {k p : Nat} {x q : α} (h : Memory.get [(k, x)] p = some q) : p = k ∧ q = x := by
  unfold Memory.get at h
  split at h
  · exact ⟨by omega, by simpa using h.symm⟩
  · cases h

theorem reset_wf : InstCfg.reset.Wf := by constructor <;> decide

/-- `busy` meets the invariant where its numbers are in bounds. -/
theorem busy_inv (b : List Byte) (ps : ParseRegs) (r : Run) (hp : r.pkt = 0) (hl : b.length ≤ Config.lenMax)
    (hc : ps.cur.toNat ≤ b.length) (h0 : r.cur0.toNat ≤ b.length) (hi : ps.iter.toNat ≤ 4) :
    MachineInv (busy b ps r) := by
  have inst : ∀ {k : Nat} {i : Instance} {r' : Run}, (busy b ps r).insts[k]? = some i → i.run = some r' →
      k = 0 ∧ i = { dir := .ing, cfg := cfg0, snap := cfg0, run := some r } ∧ r' = r := by
    intro k i r' h hr
    match k with
    | 0 => cases h; cases hr; exact ⟨rfl, rfl, rfl⟩
    | 1 => cases h; cases hr
    | _ + 2 => cases h
  refine ⟨⟨List.pairwise_singleton _ _, List.Pairwise.nil, ?_⟩, ?_, ?_, ?_, ?_⟩
  · intro i hi
    simp only [busy, List.mem_cons, List.not_mem_nil, or_false] at hi
    rcases hi with rfl | rfl
    · exact ⟨cfg0_wf, cfg0_wf⟩
    · exact ⟨reset_wf, reset_wf⟩
  · intro p q h
    obtain ⟨rfl, rfl⟩ := get_single h
    exact ⟨Nat.zero_lt_one, hl, rfl⟩
  · intro k i r' h hr
    obtain ⟨rfl, rfl, rfl⟩ := inst h hr
    exact ⟨pkt0 b ps, by rw [hp]; rfl, rfl, nofun, rfl, rfl, hc, h0, hi, cfg0_written _, cfg0_shifts⟩
  · intro p q k h ho
    obtain ⟨rfl, rfl⟩ := get_single h
    cases ho
    exact ⟨_, r, rfl, rfl, hp⟩
  · intro j k i i' r' r'' q q' hne h h' hr hr'
    exact absurd ((inst h hr).1.trans (inst h' hr').1.symm) hne

/-- The state in which a step at a place is tried. -/
def at_ (sl : Slot) : State := busy ether ps0 { run0 with phase := .slot sl }

theorem test_witness_StepKeepsInvariant :
    MachineInv (busy ether ps0 run0) ∧ ∃ t, step (busy ether ps0 run0) = .next t :=
  ⟨busy_inv _ _ _ rfl (by decide) (by decide) (by decide) (by decide), _, rfl⟩

/-- A micro-operation that goes on, one that faults the parse, and one that is refused. -/
theorem test_witness_StepRunsTheMicroOperationAtThePlace :
    (at_ .eaDone).agent = .inst 0 ∧
    (at_ .eaDone).ctxOf 0 = some (parse ether ps0 { run0 with phase := .slot .eaDone }) ∧
    slotWords cfg0 0 0 .eaDone = some [0x0000002000003800] ∧
    decode (.micro .eaDone) [0x0000002000003800] = .ok (.eaDone 1) ∧
    (∃ t, exec (.eaDone 1) (at_ .eaDone) = .next t) ∧
    exec (.eaShift 33) (at_ .eaShift) = .refused .reservedShiftAmt :=
  ⟨rfl, rfl, by decide, by decide, ⟨_, rfl⟩, rfl⟩

/-- Host messages: one that runs, one that faults, one that is refused, and one that is no command. -/
theorem test_witness_StepRunsTheHostCommand :
    let s := { idle (pkt0 [] ps0) with cmds := [[0x14, 0]] }
    s.agent = .host ∧ decode .port [0x14, 0] = .ok (.pktRetire 0) ∧ (∃ t, exec (.pktRetire 0) s = .next t) ∧
    exec (.pktRetire 1) s = .fault .notOwned ∧ exec (.cfgWr 0 .ctl 3 0 0) s = .refused .badConfigIndex ∧
    decode .port [0x16] = .error .reservedOpcode :=
  ⟨rfl, by decide, ⟨_, rfl⟩, rfl, rfl, by decide⟩

theorem test_witness_StepPassesOverOrRefuses :
    (at_ (.csumAcc .e1)).agent = .inst 0 ∧
    (at_ (.csumAcc .e1)).ctxOf 0 = some (parse ether ps0 { run0 with phase := .slot (.csumAcc .e1) }) ∧
    slotWords cfg0 0 0 (.csumAcc .e1) = none ∧
    (at_ (.ex16 1)).ctxOf 0 = some (parse ether ps0 { run0 with phase := .slot (.ex16 1) }) ∧
    slotWords cfg0 0 0 (.ex16 1) = some [0x531] ∧
    decode (.micro (.ex16 1)) [0x531] = .error .notSelected :=
  ⟨rfl, rfl, by decide, rfl, by decide, by decide⟩

theorem test_witness_MicroOperationsNeedAParse :
    (encode .winSample).1 ≠ .port ∧ State.reset.ctx = none := by decide

theorem test_witness_DecodeOfEncodeIsTheInstruction :
    (Instr.pktClone (2 ^ 64 - 1) .mcC2c 15 0xFFFF 1).wf = true ∧
    (Instr.pktWr 0 (.handle .teop (some (2 ^ 64 - 1)))).wf = true := by decide

theorem test_witness_DecodedInstructionsAreWellFormed :
    decode .port [0x15, 3, 7, 0xFFFFFFFFFFFFFFFF, 1] = .ok (.pktWr 3 (.num (.copyCtr (2 ^ 64 - 1)) 1)) := by
  decide

/-- Each width at its last place in a full window and in S6's window of 14 bytes: byte 13, 16 bits at offset 12,
32 bits at offset 10. -/
theorem test_witness_WindowReadsAreThePacketsBytesBigEndian :
    let c := parse (ramp 40) ps0 { run0 with cur0 := 2 }
    let d := parse ether ps0 run0
    31 + 1 ≤ c.avail ∧ ¬ 32 + 1 ≤ c.avail ∧ 30 + 2 ≤ c.avail ∧ ¬ 31 + 2 ≤ c.avail ∧ 28 + 4 ≤ c.avail ∧
    13 + 1 ≤ d.avail ∧ 12 + 2 ≤ d.avail ∧ d.read16 12 = 0x0800 ∧ 10 + 4 ≤ d.avail ∧ d.read32 10 = 0xAABB0800 := by
  decide

/-- `OFF16` at the last legal place of 14 bytes and of the window, and one beyond. -/
theorem test_witness_WinSampleReadsTheArmedOffsetsOrFaults :
    (busy ether { ps0 with off16 := 12 } run0).ctx = some (parse ether { ps0 with off16 := 12 } run0) ∧
    12 + 2 ≤ (parse ether ps0 run0).avail ∧ ¬ 13 + 2 ≤ (parse ether ps0 run0).avail ∧
    30 + 2 ≤ (parse (ramp 100) ps0 run0).avail ∧ ¬ 31 + 2 ≤ (parse (ramp 100) ps0 run0).avail :=
  ⟨rfl, by decide, by decide, by decide, by decide⟩

/-- The hypothesis `s.ctx = some c` that the statements about one micro-operation share: of
TcamKeyIsFormedFromWindowStateCounterVersion, TcamMatchTestsAllFortyFourBits,
TakingAnExceptionWritesCauseAndOutcome, CounterReloadsFromTheOpenSource, ArmLoadsOneOffset,
BufreqRecordsTheRequest, DoneFinishesOrTakesTheNextState, DoffResetsUsesThenIncrements,
CsumDispatchPassesTheRunningSum, CsumStartBeginsFromZero, CsumEndLatchesTheSum,
ZerosAsOnesNeverLatchesZero and PriorityFromImmediateOrWindow. -/
theorem test_witness_of_a_parse_in_progress :
    (busy ether ps0 run0).ctx = some (parse ether ps0 run0) := rfl

theorem test_witness_TernaryMatchLaws :
    let v : BitVec 44 := 0x800
    let m : BitVec 44 := 0xFF0000FFFF
    0xF0000000800 &&& m = v &&& m ∧ (0x022110800 : BitVec 44) &&& m = v &&& m ∧
    (0xFFFF : BitVec 44) &&& ~~~m = 0 ∧ ternary 0x050022110800 v m = true ∧
    ∀ b < 44, (0x800 : W64).getLsbD b = (0xFFFFF00000000800 : W64).getLsbD b := by decide

theorem test_witness_TcamSelectTakesTheLowestMatchOrFaults :
    (busy ether ps0 run0).ctx = some (parse ether ps0 run0) ∧ run0.hits = [] ∧
    (busy ether ps0 { run0 with hits := [255] }).ctx = some (parse ether ps0 { run0 with hits := [255] }) ∧
    State.reset.params.tieBreak = .lowest :=
  ⟨rfl, rfl, rfl, rfl⟩

/-- The only parse of `busy` is that of instance 0. -/
theorem busy_ctxOf {b : List Byte} {ps : ParseRegs} {r : Run} (h : r.pkt = 0) {k : Nat} {c : Ctx}
    (hc : (busy b ps r).ctxOf k = some c) : c = parse b ps r := by
  have hk : k = 0 := by
    match k with
    | 0 => rfl
    | 1 => cases hc
    | _ + 2 => cases hc
  subst hk
  exact Option.some.inj (hc.symm.trans (ctx_eq_some.1 (busy_ctx b ps r h)).2)

/-- A search that has come to row 0; one that has passed every row and found row 0; and row 0 being applied, with
the checksum row its control word names. -/
def searching (sl : Slot) (hits : List (BitVec 8)) : State :=
  busy ether { ps0 with win := ⟨0x0800, 0, 0⟩ }
    { run0 with phase := .slot sl, key := 0x050000000800, hits := hits }

theorem test_witness_StepKeepsSearchExact :
    (∀ sl hits, MachineInv (searching sl hits)) ∧
    SearchExact (searching (.tcamMatch 0) []) ∧ (∃ t, step (searching (.tcamMatch 0) []) = .next t) ∧
    SearchExact (searching (.csumAcc .e0) [0]) ∧ ∃ t, step (searching (.csumAcc .e0) [0]) = .next t := by
  refine ⟨fun sl hits => busy_inv _ _ _ rfl (by decide) (by decide) (Nat.zero_le _) (by decide),
    ?_, ⟨_, rfl⟩, ?_, _, rfl⟩
  · intro k c hc
    rw [busy_ctxOf rfl hc]
    refine ⟨fun i hi => ?_, fun h => (by cases h), fun sl hsl => ?_⟩
    · cases hi
      exact ⟨by decide, rfl⟩
    · cases hsl
      exact ⟨by decide, fun h => (by cases h), fun _ h => (by cases h)⟩
  · intro k c hc
    rw [busy_ctxOf rfl hc]
    refine ⟨fun _ h => (by cases h), fun h => (by cases h), fun sl hsl => ?_⟩
    cases hsl
    refine ⟨by decide, fun _ => ⟨by decide, 0, by decide⟩, fun e he => ?_⟩
    cases he
    exact ⟨0x200, rfl, by decide, by decide⟩

theorem test_witness_ParseStartTakesSnapshotAndClearsRegisters :
    let s := idle (pkt0 ether ps0)
    (∃ i : Instance, s.insts[0]? = some i ∧ i.run = none ∧ WrittenFor i.cfg 0 ∧ ShiftsDefined i.cfg) ∧
    (∃ q : Packet, s.packets.get 0 = some q ∧ q.owner = .host ∧ (q.view .ing).phv = some 1 ∧
      (q.view .ing).version = 0) ∧
    (∀ (j : Nat) (i' : Instance) (r' : Run), s.insts[j]? = some i' → i'.run ≠ some r') := by
  refine ⟨⟨_, rfl, rfl, cfg0_written 0, cfg0_shifts⟩, ⟨_, rfl, rfl, rfl, rfl⟩, ?_⟩
  intro j i' r' h
  match j with
  | 0 => cases h; simp
  | 1 => cases h; simp [Instance.reset]
  | _ + 2 => cases h

/-- Instance 0 parses packet 0 into PHV 1; packet 1, with the same PHV in its egress view, is the host's;
packet 2 has no PHV. -/
def crowded : State :=
  { busy ether ps0 run0 with
    packets := [(0, pkt0 ether ps0),
      (1, { pkt0 ether ps0 with owner := .host, egr := { View.cleared with phv := some 1 } }),
      (2, Packet.fresh ether 0 2)]
    nextPkt := 3 }

/-- The last two conjuncts: a configuration that is not written, and one that is but holds a reserved shift. -/
theorem test_witness_ParseStopsWhereTheSpecGivesNoStep :
    crowded.insts[2]? = none ∧ (∃ i : Instance, crowded.insts[0]? = some i ∧ i.run ≠ none) ∧
    crowded.insts[1]? = some (Instance.reset .egr) ∧ crowded.packets.get 3 = none ∧
    (∃ q : Packet, crowded.packets.get 0 = some q ∧ q.owner ≠ .host) ∧
    (∃ q : Packet, crowded.packets.get 2 = some q ∧ q.owner = .host ∧ (q.view .egr).phv = none) ∧
    (∃ q : Packet, crowded.packets.get 1 = some q ∧ q.owner = .host ∧ (q.view .egr).phv = some 1) ∧
    (∃ (i : Instance) (q : Packet), crowded.insts[0]? = some i ∧ i.run = some run0 ∧
      crowded.packets.get run0.pkt = some q ∧ (q.view i.dir).phv = some 1) ∧
    (∃ i : Instance, (idleCfg .reset ether ps0).insts[0]? = some i ∧ i.run = none ∧ ¬ WrittenFor i.cfg 0) ∧
    (∃ i : Instance, (idleCfg (cfgEa 0x8400) ether ps0).insts[0]? = some i ∧ i.run = none ∧ WrittenFor i.cfg 0 ∧
      ¬ ShiftsDefined i.cfg) :=
  ⟨rfl, ⟨_, rfl, by decide⟩, rfl, rfl, ⟨_, rfl, by decide⟩, ⟨_, rfl, rfl, rfl⟩, ⟨_, rfl, rfl, rfl⟩,
    ⟨_, _, rfl, rfl, rfl, rfl⟩, ⟨_, rfl, rfl, fun h => absurd h.ctl.1 (by decide)⟩,
    ⟨_, rfl, rfl, cfgEa_written _ _, cfgEa_shifts_undefined (by decide)⟩⟩

/-- One iteration left, and none. -/
theorem test_witness_LoopHeadChecksTheBudget :
    (busy ether { ps0 with iter := 3 } run0).ctx = some (parse ether { ps0 with iter := 3 } run0) ∧
    run0.phase = .head ∧ (3 : BitVec 16).toNat < cfg0.maxIter.toNat ∧
    (busy ether { ps0 with iter := 4 } run0).ctx = some (parse ether { ps0 with iter := 4 } run0) ∧
    cfg0.maxIter.toNat ≤ (4 : BitVec 16).toNat :=
  ⟨rfl, rfl, by decide, rfl, by decide⟩

theorem test_witness_ParseTerminatesWithinItsBudget :
    (busy ether ps0 run0).turns = [] ∧ (busy ether ps0 run0).ctx = some (parse ether ps0 run0) ∧
    (parse ether ps0 run0).run.phase = .head ∧ MachineInv (busy ether ps0 run0) ∧
    SearchExact (busy ether ps0 run0) ∧
    ∃ t, iterStep (busy ether { ps0 with off16 := 13 } run0) = .next t := by
  refine ⟨rfl, rfl, rfl, busy_inv _ _ _ rfl (by decide) (by decide) (by decide) (by decide), fun k c hc => ?_,
    _, rfl⟩
  rw [busy_ctxOf rfl hc]
  exact ⟨fun _ h => (by cases h), fun h => (by cases h), fun _ h => (by cases h)⟩

/-- The largest legal amount, the last advance that fits, and the first that does not. -/
theorem test_witness_EaShiftAdvancesTheCursorOrFaults :
    (busy ether ps0 run0).ctx = some (parse ether ps0 run0) ∧ (32 : BitVec 6).toNat ≤ 32 ∧
    (14 : BitVec 6).toNat ≤ (parse ether ps0 run0).avail ∧
    ¬ (15 : BitVec 6).toNat ≤ (parse ether ps0 run0).avail :=
  ⟨rfl, by decide, by decide, by decide⟩

theorem test_witness_ReservedShiftIsRefused :
    (busy ether ps0 run0).ctx = some (parse ether ps0 run0) ∧ 32 < (33 : BitVec 6).toNat ∧
    exec (.eaShift 33) (busy ether ps0 run0) = .refused .reservedShiftAmt :=
  ⟨rfl, by decide, rfl⟩

/-- Both modes of the counter. -/
theorem test_witness_CounterStepsOrReloads :
    (busy ether ps0 run0).ctx = some (parse ether ps0 run0) ∧ (busy ether ps0 run0).params.ctrNoload = .add ∧
    ({ busy ether ps0 run0 with params := { Config.Params.default with ctrNoload := .hold } }).ctx =
      some { parse ether ps0 run0 with params := { Config.Params.default with ctrNoload := .hold } } :=
  ⟨rfl, rfl, rfl⟩

/-- Both merges, bit 7, and the zero mask. -/
theorem test_witness_NextStateMergesWindowBits :
    (busy ether ps0 run0).ctx = some (parse ether ps0 run0) ∧
    (busy ether ps0 run0).params.stateMerge = .select ∧ 7 < 8 ∧
    ({ busy ether ps0 run0 with params := { Config.Params.default with stateMerge := .or } }).ctx =
      some { parse ether ps0 run0 with params := { Config.Params.default with stateMerge := .or } } :=
  ⟨rfl, rfl, by decide, rfl⟩

/-- For the three widths: the last source that fits the window of 14 bytes, and the first that does not. -/
theorem test_witness_lanes :
    (busy ether ps0 run0).ctx = some (parse ether ps0 run0) ∧
    ((parse ether ps0 run0).pkt.view (parse ether ps0 run0).dir).phv = some 1 ∧
    (10 : BitVec 6).toNat + 4 ≤ (parse ether ps0 run0).avail ∧
    ¬ (11 : BitVec 6).toNat + 4 ≤ (parse ether ps0 run0).avail ∧
    (12 : BitVec 6).toNat + 2 ≤ (parse ether ps0 run0).avail ∧
    ¬ (13 : BitVec 6).toNat + 2 ≤ (parse ether ps0 run0).avail ∧
    (13 : BitVec 6).toNat + 1 ≤ (parse ether ps0 run0).avail ∧
    ¬ (14 : BitVec 6).toNat + 1 ≤ (parse ether ps0 run0).avail :=
  ⟨rfl, rfl, by decide, by decide, by decide, by decide, by decide, by decide⟩

/-- A parse whose view has no PHV, and sources at the last place that fits. -/
theorem test_witness_LanesThroughANullHandleAreRefused :
    ∃ c, ({ busy ether ps0 run0 with packets := [(0, { pkt0 ether ps0 with ing := .cleared })] }).ctx = some c ∧
      (c.pkt.view c.dir).phv = none ∧ (10 : BitVec 6).toNat + 4 ≤ c.avail ∧
      (12 : BitVec 6).toNat + 2 ≤ c.avail ∧ (13 : BitVec 6).toNat + 1 ≤ c.avail :=
  ⟨_, rfl, rfl, by decide, by decide, by decide⟩

/-- Byte 13 is the last of 14, byte 14 the first beyond. -/
theorem test_witness_CsumAccFoldsTheSelectedBytesOrFaults :
    (busy ether ps0 run0).ctx = some (parse ether ps0 run0) ∧
    (∀ k < 32, (0x2000 : BitVec 32).getLsbD k = true → k < (parse ether ps0 run0).avail) ∧
    (∃ k < 32, (0x4000 : BitVec 32).getLsbD k = true ∧ (parse ether ps0 run0).avail ≤ k) :=
  ⟨rfl, by decide, 14, by decide⟩

theorem test_witness_OnesComplementAdditionLaws :
    (1 : BitVec 16) ≠ 0 ∧ onesAdd 0 0 = 0 ∧ accumulate ⟨3, 0, 0, 0⟩ (fun _ => 0) 0 = 0 := by decide

theorem test_witness_AccumulationSplitsAcrossInvocations :
    (0x0000FFFF : BitVec 32) &&& 0xFFFF0000 = 0 := by decide

/-- The packet hypotheses that the statements about host commands share: of CloneMakesAFreshIdentity,
ResetClearsAllButIdentity, SetEgressCopiesTheIngressView, WrStoresOneField, IdentityEncodersWriteTheId and
LineageIsKept; the last counter that exists. -/
theorem test_witness_of_a_host_packet :
    ∃ q : Packet, (idle (pkt0 ether ps0)).packets.get 0 = some q ∧ q.owner = .host ∧
      1 < (idle (pkt0 ether ps0)).params.nQctr := ⟨_, rfl, rfl, by decide⟩

/-- A packet to retire, and a state where it is gone. -/
theorem test_witness_RetireEndsThePacket :
    (∃ q : Packet, (idle (pkt0 ether ps0)).packets.get 0 = some q ∧ q.owner = .host) ∧
    State.reset.packets.get 0 = none := ⟨⟨_, rfl, rfl⟩, rfl⟩

/-- The first counter, instance and sub-index that do not exist; an owned and an absent packet. -/
theorem test_witness_CommandsOutsideTheirDomainHaveNoStep :
    State.reset.params.nQctr ≤ 2 ∧ State.reset.insts[2]? = none ∧ State.reset.insts[1]? ≠ none ∧ 4 ≤ 4 ∧
    (∃ q : Packet, (busy ether ps0 run0).packets.get 0 = some q ∧ q.owner ≠ .host) ∧
    State.reset.packets.get 0 = none ∧ fieldExists 2 (.num (.copyCtr 1) 0) = true :=
  ⟨by decide, by decide, by decide, by decide, ⟨_, rfl, by decide⟩, rfl, by decide⟩

/-- The last index of each memory. -/
theorem test_witness_CfgWrWritesOneRowOrRegister :
    State.reset.insts[0]? = some (Instance.reset .ing) ∧ 255 < 256 ∧ 2 < 3 ∧ 31 < 32 :=
  ⟨rfl, by decide, by decide, by decide⟩

/-- The first index beyond each memory, and the codes beside the command codes. -/
theorem test_witness_ReservedCodesAndIndicesAreRefused :
    (∀ w ∈ [(0x01 : W64), 0x16, 0x25, 0x31, 0xFF, 0x100],
      w.toNat ∉ [0x00, 0x10, 0x11, 0x12, 0x13, 0x14, 0x15, 0x20, 0x21, 0x22, 0x23, 0x24, 0x30]) ∧
    State.reset.insts[0]? = some (Instance.reset .ing) ∧ 256 ≤ 256 ∧ 32 ≤ 32 ∧ 3 ≤ 3 :=
  ⟨by simp, rfl, Nat.le_refl _, Nat.le_refl _, Nat.le_refl _⟩

/-- Of ParseReadsOnlyItsSnapshot and InstanceStepTouchesOnlyItsParse. -/
theorem test_witness_InstanceStepTouchesOnlyItsParse :
    (at_ .eaDone).agent = .inst 0 ∧
    (at_ .eaDone).ctxOf 0 = some (parse ether ps0 { run0 with phase := .slot .eaDone }) ∧
    ∃ t, step (at_ .eaDone) = .next t := ⟨rfl, rfl, _, rfl⟩

/-- The host's turn, by schedule, while instance 0 parses. -/
theorem test_witness_HostStepLeavesOwnedPacketsAlone :
    let s := { busy ether ps0 run0 with turns := [.host], cmds := [[0x30, 0, 2, 0, 1, 0x731, 0]] }
    s.agent = .host ∧ (∃ t, step s = .next t) ∧ (∀ p q, s.packets.get p = some q → p < s.nextPkt) ∧
    (∃ q : Packet, s.packets.get 0 = some q ∧ q.owner ≠ .host) ∧
    ∃ i : Instance, s.insts[0]? = some i ∧ i.run ≠ none := by
  refine ⟨rfl, ⟨_, rfl⟩, ?_, ⟨_, rfl, by decide⟩, ⟨_, rfl, by decide⟩⟩
  intro p q h
  obtain ⟨rfl, rfl⟩ := get_single h
  decide

end Sys2Proof.Tests
end

section
/-! PROOF. The laws of 16-bit ones'-complement addition (00_scope.md R11, 43_checksum.md R235), and when an
accumulation (43_checksum.md R231) is zero. -/

namespace Sys2Proof.Machine

/-! ### Ones'-complement addition -/

/-- R11 by numbers: the carry of the 17-bit sum is added to its low half, which cannot carry out again. -/
theorem onesAdd_toNat (a b : BitVec 16) :
    (onesAdd a b).toNat = (a.toNat + b.toNat) % 65536 + (a.toNat + b.toNat) / 65536 := by
  have sum : (a.zeroExtend 17 + b.zeroExtend 17).toNat = a.toNat + b.toNat := by
    rw [BitVec.toNat_add, BitVec.toNat_setWidth, BitVec.toNat_setWidth]
    omega
  simp only [onesAdd, BitVec.toNat_add (w := 16), BitVec.toNat_setWidth, BitVec.extractLsb'_toNat, sum,
    Nat.shiftRight_eq_div_pow, Nat.reducePow]
  rcases Nat.lt_or_ge (a.toNat + b.toNat) 65536 with _ | _ <;> omega

/-- The end-around carry takes `2 ^ 16 - 1` away from a sum that overflows, and nothing from one that does not. -/
theorem onesAdd_toNat_cases (a b : BitVec 16) :
    a.toNat + b.toNat < 65536 ∧ (onesAdd a b).toNat = a.toNat + b.toNat ∨
      65536 ≤ a.toNat + b.toNat ∧ (onesAdd a b).toNat + 65535 = a.toNat + b.toNat := by
  rw [onesAdd_toNat]
  omega

theorem onesAdd_comm (a b : BitVec 16) : onesAdd a b = onesAdd b a := by
  apply BitVec.eq_of_toNat_eq
  rw [onesAdd_toNat, onesAdd_toNat, Nat.add_comm a.toNat]

theorem onesAdd_assoc (a b c : BitVec 16) : onesAdd (onesAdd a b) c = onesAdd a (onesAdd b c) := by
  apply BitVec.eq_of_toNat_eq
  have ab := onesAdd_toNat_cases a b
  have bc := onesAdd_toNat_cases b c
  have left := onesAdd_toNat_cases (onesAdd a b) c
  have right := onesAdd_toNat_cases a (onesAdd b c)
  omega

@[simp] theorem onesAdd_zero (a : BitVec 16) : onesAdd a 0#16 = a := by
  apply BitVec.eq_of_toNat_eq
  rw [onesAdd_toNat, BitVec.toNat_ofNat]
  omega

@[simp] theorem zero_onesAdd (a : BitVec 16) : onesAdd 0#16 a = a := by
  rw [onesAdd_comm, onesAdd_zero]

/-- All-ones is the second form of zero: it is an identity for every operand but `0` itself. -/
theorem onesAdd_allOnes {a : BitVec 16} (ha : a ≠ 0#16) : onesAdd a 0xFFFF#16 = a := by
  have pos : a.toNat ≠ 0 := fun h => ha (BitVec.eq_of_toNat_eq h)
  apply BitVec.eq_of_toNat_eq
  rw [onesAdd_toNat, BitVec.toNat_ofNat]
  omega

/-- A running sum once nonzero never returns to zero: what overflows comes round as the carry. -/
theorem onesAdd_eq_zero_iff (a b : BitVec 16) : onesAdd a b = 0#16 ↔ a = 0#16 ∧ b = 0#16 := by
  simp only [BitVec.toNat_eq, onesAdd_toNat, BitVec.toNat_ofNat]
  omega

/-! ### When an accumulation is zero -/

/-- A byte is placed in one half of its term and zero in the other, so the term is zero only with it. -/
theorem laneTerm_eq_zero_iff (r : CsumLanes) (k : Nat) (b : Byte) : laneTerm r k b = 0#16 ↔ b = 0#8 := by
  have hi : b ++ 0#8 = 0#8 ++ 0#8 ↔ b = 0#8 := (append_eq_append ..).trans (and_iff_left rfl)
  have lo : 0#8 ++ b = 0#8 ++ 0#8 ↔ b = 0#8 := (append_eq_append ..).trans (and_iff_right rfl)
  simp only [laneTerm]
  split
  · exact hi
  · exact lo

/-- A running sum over the selected members of a list is zero exactly if its start and every term are. -/
theorem foldl_onesAdd_eq_zero_iff (sel : Nat → Bool) (term : Nat → BitVec 16) (ks : List Nat) (s : BitVec 16) :
    ks.foldl (fun s k => if sel k then onesAdd s (term k) else s) s = 0#16 ↔
      s = 0#16 ∧ ∀ k ∈ ks, sel k = true → term k = 0#16 := by
  induction ks generalizing s with
  | nil => simp
  | cons k ks ih =>
    rw [List.foldl_cons, ih, List.forall_mem_cons]
    cases sel k with
    | false => simp
    | true => simp [onesAdd_eq_zero_iff, and_assoc]

/-- R235's consequence for a whole accumulation: CSUM.ZAO fires only when there was nothing to add. -/
theorem accumulate_eq_zero_iff (r : CsumLanes) (byte : Nat → Byte) (s : BitVec 16) :
    accumulate r byte s = 0#16 ↔
      s = 0#16 ∧ r.add = 0#16 ∧ ∀ k < 32, r.mask.getLsbD k = true → byte k = 0#8 := by
  unfold accumulate
  rw [foldl_onesAdd_eq_zero_iff, onesAdd_eq_zero_iff]
  simp only [laneTerm_eq_zero_iff, List.mem_range, and_assoc]

/-- Settles O44, law by law. -/
theorem onesComplementAdditionLaws : Obligations.OnesComplementAdditionLaws := fun a b c =>
  ⟨onesAdd_toNat a b, onesAdd_comm a b, onesAdd_assoc a b c, onesAdd_zero a, onesAdd_allOnes,
    zero_onesAdd 0xFFFF, onesAdd_eq_zero_iff a b, fun r byte => accumulate_eq_zero_iff r byte a⟩

end Sys2Proof.Machine
end

section
/-! PROOF. What a host message decodes to (log 14): a host command whose operands fit its words. -/

namespace Sys2Proof

theorem exceptBind_eq_ok {ε α β : Type} {x : Except ε α} {f : α → Except ε β} {b : β} :
    x.bind f = .ok b ↔ ∃ a, x = .ok a ∧ f a = .ok b := by
  cases x <;> simp [Except.bind]

theorem length_of_mapM_narrow {ws : List W64} {b : List Byte} (h : ws.mapM (narrow 8) = .ok b) :
    b.length = ws.length := by
  induction ws generalizing b with
  | nil => cases h; rfl
  | cons w ws ih =>
    rw [List.mapM_cons] at h
    obtain ⟨x, -, h⟩ := exceptBind_eq_ok.1 h
    obtain ⟨xs, hxs, h⟩ := exceptBind_eq_ok.1 h
    cases h
    rw [List.length_cons, List.length_cons, ih hxs]

theorem decBytes_fits {ws : List W64} {b : List Byte} (h : decBytes ws = .ok b) : fitsLen b = true := by
  unfold decBytes at h
  split at h
  · cases h
  · split at h
    · cases h
    · rename_i n ws hlen
      split at h
      · rename_i hmax
        rw [fitsLen, length_of_mapM_narrow h, not_not.1 hlen, decide_eq_true hmax]
      · cases h

theorem fitsWord_toNat (w : W64) : fitsWord w.toNat = true := decide_eq_true w.isLt

theorem decHandle_wf (w : W64) : (decHandle w).wf = true := by
  unfold decHandle
  split
  · rfl
  · rename_i h
    simp only [Handle.wf, fitsWord_toNat, Bool.and_true, decide_eq_true_eq]
    omega

theorem decField_wf {code idx : W64} {vs : List W64} {w : FieldWrite} (h : decField code idx vs = .ok w) :
    w.wf = true := by
  have num : ∀ f : NumField, f.wf = true → (match vs with
      | [v] => Except.ok (FieldWrite.num f v)
      | [] | _ :: _ :: _ => .error DecodeError.wordCount) = .ok w → w.wf = true := by
    intro f hf h
    split at h <;> cases h
    exact hf
  have hnd : ∀ f : HandleField, (match vs with
      | [v] => Except.ok (FieldWrite.handle f (decHandle v))
      | [] | _ :: _ :: _ => .error DecodeError.wordCount) = .ok w → w.wf = true := by
    intro f h
    split at h <;> cases h
    exact decHandle_wf _
  unfold decField at h
  dsimp only at h
  split at h
  case h_1 | h_2 | h_3 | h_4 =>
    obtain ⟨d, -, h⟩ := exceptBind_eq_ok.1 h
    refine num _ ?_ h
    rfl
  case h_5 | h_6 | h_7 | h_9 | h_10 => exact num _ rfl h
  case h_8 => exact num (.copyCtr _) (fitsWord_toNat idx) h
  case h_11 | h_12 | h_13 => obtain ⟨d, -, h⟩ := exceptBind_eq_ok.1 h; exact hnd _ h
  case h_14 => exact hnd _ h
  case h_15 | h_16 => obtain ⟨b, hb, h⟩ := exceptBind_eq_ok.1 h; cases h; exact decBytes_fits hb
  case h_17 => cases h

theorem decMem_wf {code j : W64} {m : CfgMem} (h : decMem code j = .ok m) : m.wf = true := by
  unfold decMem at h
  split at h <;> cases h
  case h_3 => exact fitsWord_toNat j
  all_goals rfl

/-- A host command whose operands its words can say. -/
def HostCommand (i : Instr) : Prop := i.wf = true ∧ ¬ Machine.Micro i

theorem hostCommand_of_onlyPacket {mk : Nat → Instr} (hmk : ∀ p : W64, HostCommand (mk p.toNat)) {ws : List W64}
    {i : Instr} (h : onlyPacket mk ws = .ok i) : HostCommand i := by
  unfold onlyPacket at h
  split at h <;> cases h
  exact hmk _

theorem hostCommand_of_copyId {mk : Nat → BitVec 32 → BitVec 4 → BitVec 16 → Instr}
    (hmk : ∀ (p : W64) id pipe copy, HostCommand (mk p.toNat id pipe copy)) {ws : List W64} {i : Instr}
    (h : copyId mk ws = .ok i) : HostCommand i := by
  unfold copyId at h
  split at h
  · obtain ⟨id, -, h⟩ := exceptBind_eq_ok.1 h
    obtain ⟨pipe, -, h⟩ := exceptBind_eq_ok.1 h
    obtain ⟨copy, -, h⟩ := exceptBind_eq_ok.1 h
    cases h
    exact hmk _ _ _ _
  · cases h

theorem hostCommand_of_decodeOp {op : Nat} {ws : List W64} {i : Instr} (h : decodeOp op ws = .ok i) :
    HostCommand i := by
  unfold decodeOp at h
  split at h
  case h_1 =>
    split at h <;> cases h
    exact ⟨by simp only [Instr.wf, fitsWord_toNat, Bool.and_self], id⟩
  case h_2 =>
    split at h
    · obtain ⟨id32, -, h⟩ := exceptBind_eq_ok.1 h
      obtain ⟨b, hb, h⟩ := exceptBind_eq_ok.1 h
      cases h
      exact ⟨decBytes_fits hb, id⟩
    · cases h
  case h_3 =>
    split at h
    · obtain ⟨kind, -, h⟩ := exceptBind_eq_ok.1 h
      obtain ⟨pipe, -, h⟩ := exceptBind_eq_ok.1 h
      obtain ⟨copy, -, h⟩ := exceptBind_eq_ok.1 h
      obtain ⟨carry, -, h⟩ := exceptBind_eq_ok.1 h
      cases h
      exact ⟨fitsWord_toNat _, id⟩
    · cases h
  case h_4 | h_5 | h_6 =>
    refine hostCommand_of_onlyPacket (fun p => ?_) h
    exact ⟨fitsWord_toNat p, id⟩
  case h_7 =>
    split at h
    · obtain ⟨w, hw, h⟩ := exceptBind_eq_ok.1 h
      cases h
      exact ⟨by simp only [Instr.wf, fitsWord_toNat, decField_wf hw, Bool.and_self], id⟩
    · cases h
  case h_8 | h_9 =>
    split at h
    · obtain ⟨x, -, h⟩ := exceptBind_eq_ok.1 h
      cases h
      exact ⟨fitsWord_toNat _, id⟩
    · cases h
  case h_10 | h_11 | h_12 =>
    refine hostCommand_of_copyId (fun p _ _ _ => ?_) h
    exact ⟨fitsWord_toNat p, id⟩
  case h_13 =>
    split at h
    · obtain ⟨m, hm, h⟩ := exceptBind_eq_ok.1 h
      cases h
      exact ⟨by simp only [Instr.wf, fitsWord_toNat, decMem_wf hm, Bool.and_self], id⟩
    · cases h
  case h_14 => cases h

theorem hostCommand_of_decode {ws : List W64} {i : Instr} (h : decode .port ws = .ok i) : HostCommand i := by
  change decodeCmd ws = .ok i at h
  unfold decodeCmd at h
  split at h
  · cases h
  · split at h
    · exact hostCommand_of_decodeOp h
    · cases h

end Sys2Proof
end

section
/-! PROOF. Rules of the host's operations: which packets and PHVs are free, what PARSE checks and launches
(41_pipeline_ea.md R160), what CFG.WR leaves of a configuration (20_memory.md R78, 30_encoding.md R130). -/

namespace Sys2Proof.Machine

/-! ### Packets of the host and PHVs in use -/

theorem hostPacket_eq_none {s : State} {p : Nat} :
    s.hostPacket p = none ↔ ∀ q, s.packets.get p = some q → q.owner ≠ .host := by
  rw [Option.eq_none_iff_forall_ne_some]
  refine forall_congr' fun q => ?_
  rw [ne_eq, hostPacket_eq_some, not_and]

theorem usesPhv_iff {s : State} {g : Nat} {i : Instance} : s.usesPhv g i = true ↔
    ∃ r q, i.run = some r ∧ s.packets.get r.pkt = some q ∧ (q.view i.dir).phv = some g := by
  unfold State.usesPhv
  cases hr : i.run with
  | none => simp
  | some r => cases hq : s.packets.get r.pkt <;> simp [hq]

theorem phvInUse_iff {s : State} {g : Nat} : s.phvInUse g = true ↔
    ∃ (j : Nat) (i : Instance) (r : Run) (q : Packet), s.insts[j]? = some i ∧ i.run = some r ∧
      s.packets.get r.pkt = some q ∧ (q.view i.dir).phv = some g := by
  simp only [State.phvInUse, List.any_eq_true, List.mem_iff_getElem?, usesPhv_iff]
  constructor
  · rintro ⟨i, ⟨j, hi⟩, r, q, h⟩
    exact ⟨j, i, r, q, hi, h⟩
  · rintro ⟨j, i, r, q, hi, h⟩
    exact ⟨i, ⟨j, hi⟩, r, q, h⟩

theorem phvInUse_eq_false {s : State} {g : Nat}
    (h : ∀ (j : Nat) (i : Instance) (r : Run) (q : Packet), s.insts[j]? = some i → i.run = some r →
      s.packets.get r.pkt = some q → (q.view i.dir).phv ≠ some g) : s.phvInUse g = false := by
  rw [← Bool.not_eq_true, phvInUse_iff]
  rintro ⟨j, i, r, q, hi, hr, hq, hg⟩
  exact h j i r q hi hr hq hg

/-! ### PARSE -/

/-- PARSE where the parser is idle and the packet is the host's and has a PHV: what is left to check. -/
theorem exec_parse {s : State} {p k g : Nat} {i : Instance} {q : Packet} (hi : s.insts[k]? = some i)
    (hr : i.run = none) (hq : s.packets.get p = some q) (ho : q.owner = .host)
    (hg : (q.view i.dir).phv = some g) :
    exec (.parse p k) s =
      if s.phvInUse g = true then .refused .sharedPhv
      else if i.cfg.written (q.view i.dir).version = false then .refused .configUnwritten
      else if i.cfg.shiftsDefined = false then .refused .reservedShiftAmt
      else .next (s.launch k i p q) := by
  simp only [exec, execParse, hi, hr, hostPacket_eq_some.2 ⟨hq, ho⟩, hg]

theorem start_view (q : Packet) (k : Nat) (i : Instance) (d : Dir) : (q.start k i).view d = q.view d := by
  cases d <;> rfl

theorem launch_inst {s : State} {k : Nat} {i : Instance} (hi : s.insts[k]? = some i) (p : Nat) (q : Packet) :
    (s.launch k i p q).insts[k]? = some { i with snap := i.cfg, run := some (Run.start p) } := by
  obtain ⟨hlt, -⟩ := List.getElem?_eq_some_iff.1 hi
  exact List.getElem?_set_self hlt

theorem launch_inst_other (s : State) {k j : Nat} (hj : j ≠ k) (i : Instance) (p : Nat) (q : Packet) :
    (s.launch k i p q).insts[j]? = s.insts[j]? :=
  List.getElem?_set_ne hj.symm

theorem launch_packet (s : State) (k : Nat) (i : Instance) (p : Nat) (q : Packet) :
    (s.launch k i p q).packets.get p = some (q.start k i) :=
  Memory.get_set_same _ _ _

theorem launch_packet_other (s : State) (k : Nat) (i : Instance) {p x : Nat} (hx : x ≠ p) (q : Packet) :
    (s.launch k i p q).packets.get x = s.packets.get x :=
  Memory.get_set_other _ _ hx

/-! ### CFG.WR -/

theorem withCfg_get (s : State) (j k : Nat) (cfg : InstCfg) : (s.withCfg j cfg).insts[k]? =
    (s.insts[k]?).map fun i => if j = k then { i with cfg := cfg } else i :=
  List.getElem?_modify (fun i : Instance => { i with cfg := cfg }) j s.insts k

theorem Memory.bounded_set {α : Type} {m : Memory α} (P : Nat → Prop) (h : Memory.wf m ∧ ∀ e ∈ m, P e.1)
    {k : Nat} (hk : P k) (v : α) : Memory.wf (m.set k v) ∧ ∀ e ∈ m.set k v, P e.1 := by
  obtain ⟨hm, hb⟩ := h
  refine ⟨Memory.wf_set hm k v, fun e he => ?_⟩
  rcases Memory.mem_set he with rfl | he
  · exact hk
  · exact hb e he

/-- CFG.WR writes rows that exist (30_encoding.md R130), word 7 of no ActionRow among them. -/
theorem cfgWrite_wf {c c' : InstCfg} {mem : CfgMem} {i : Nat} {w0 w1 : W64} (hc : c.Wf)
    (h : cfgWrite c mem i w0 w1 = some c') : c'.Wf := by
  unfold cfgWrite at h
  split at h
  case h_1 =>
    split at h <;> cases h
    next hi => exact { hc with tcam := Memory.bounded_set (· < Config.nRows) hc.tcam hi _ }
  case h_2 =>
    split at h <;> cases h
    next hi => exact { hc with ea := Memory.bounded_set (· < Config.nRows) hc.ea hi _ }
  case h_3 j =>
    split at h <;> cases h
    next hi =>
    obtain ⟨hi, hj⟩ := hi
    rw [Config.nRows] at hi
    have low := Memory.bounded_set (fun n => n < 8 * 256 ∧ n % 8 < 7) hc.act (k := 8 * i + 2 * j) (by omega) w0
    refine { hc with act := ?_ }
    dsimp only
    split
    · exact low
    · exact Memory.bounded_set (fun n => n < 8 * 256 ∧ n % 8 < 7) low (by omega) w1
  case h_4 =>
    split at h <;> cases h
    next hi => exact { hc with csumRow0 := Memory.bounded_set (· < Config.nCsumRows) hc.csumRow0 hi _ }
  case h_5 =>
    split at h <;> cases h
    next hi => exact { hc with csumRow1 := Memory.bounded_set (· < Config.nCsumRows) hc.csumRow1 hi _ }
  case h_6 =>
    split at h <;> cases h
    all_goals exact { hc with }

theorem set_cfg_eq_withCfg {s : State} {k : Nat} {i : Instance} (hi : s.insts[k]? = some i) (cfg : InstCfg) :
    { s with insts := s.insts.set k { i with cfg := cfg } } = s.withCfg k cfg := by
  unfold State.withCfg
  rw [List.modify_eq_set_getElem?, hi]
  rfl

end Sys2Proof.Machine
end

section
/-! PROOF. The machine's invariant is kept: by a change of one record of `insts` that its parse does not see, and
by a move of one agent on one packet. -/

namespace Sys2Proof.Machine

/-! ### One record of `insts` modified -/

/-- Record `i'` runs the parse that `i` runs, as far as the invariant reads it. -/
structure SameParse (i i' : Instance) : Prop where
  dir  : i'.dir = i.dir
  snap : i'.snap = i.snap
  run  : i'.run.map (fun r => (r.pkt, r.cur0)) = i.run.map fun r => (r.pkt, r.cur0)

theorem SameParse.refl (i : Instance) : SameParse i i := ⟨rfl, rfl, rfl⟩

theorem SameParse.symm {i i' : Instance} (h : SameParse i i') : SameParse i' i :=
  ⟨h.dir.symm, h.snap.symm, h.run.symm⟩

theorem SameParse.run_eq {i i' : Instance} (h : SameParse i i') {r' : Run} (hr : i'.run = some r') :
    ∃ r, i.run = some r ∧ r'.pkt = r.pkt ∧ r'.cur0 = r.cur0 := by
  have e := h.run
  rw [hr] at e
  obtain ⟨r, hr, e⟩ := Option.map_eq_some_iff.1 e.symm
  exact ⟨r, hr, (congrArg Prod.fst e).symm, (congrArg Prod.snd e).symm⟩

theorem RunWf.congr {s t : State} {k : Nat} {i i' : Instance} {r r' : Run} (h : RunWf s k i r)
    (hq : t.packets.get r'.pkt = s.packets.get r.pkt) (hd : i'.dir = i.dir) (hs : i'.snap = i.snap)
    (h0 : r'.cur0 = r.cur0) : RunWf t k i' r' := by
  unfold RunWf
  rw [hq, hd, hs, h0]
  exact h

theorem MachineInv.modifyInst {s : State} (h : MachineInv s) (k : Nat) {f : Instance → Instance}
    (hf : ∀ i, SameParse i (f i)) (hw : ∀ i, s.insts[k]? = some i → (f i).cfg.Wf) :
    MachineInv { s with insts := s.insts.modify k f } := by
  have get : ∀ j : Nat, (s.insts.modify k f)[j]? = (s.insts[j]?).map fun i => if k = j then f i else i :=
    List.getElem?_modify f k s.insts
  have same : ∀ (j : Nat) i, SameParse i (if k = j then f i else i) := by
    intro j i
    split
    · exact hf i
    · exact .refl i
  have back : ∀ {j : Nat} {i' : Instance}, (s.insts.modify k f)[j]? = some i' →
      ∃ i, s.insts[j]? = some i ∧ SameParse i i' := by
    intro j i' hi'
    rw [get] at hi'
    obtain ⟨i, hi, rfl⟩ := Option.map_eq_some_iff.1 hi'
    exact ⟨i, hi, same j i⟩
  obtain ⟨hpw, hvw, hiw⟩ := h.canonical
  refine ⟨⟨hpw, hvw, fun i' hi' => ?_⟩, h.packets, ?_, ?_, ?_⟩
  · obtain ⟨j, hj⟩ := List.mem_iff_getElem?.1 hi'
    have hj' := hj
    rw [get] at hj'
    obtain ⟨i, hi, rfl⟩ := Option.map_eq_some_iff.1 hj'
    have wf := hiw i (List.mem_of_getElem? hi)
    rw [(same j i).snap]
    refine ⟨?_, wf.2⟩
    split
    next e => subst e; exact hw i hi
    next => exact wf.1
  · intro j i' r' hi' hr'
    obtain ⟨i, hi, hs⟩ := back hi'
    obtain ⟨r, hr, hp, h0⟩ := hs.run_eq hr'
    exact (h.runs j i r hi hr).congr (congrArg s.packets.get hp) hs.dir hs.snap h0
  · intro p q j hq ho
    obtain ⟨i, r, hi, hr, hp⟩ := h.owners p q j hq ho
    obtain ⟨r', hr', hp', -⟩ := (same j i).symm.run_eq hr
    exact ⟨_, r', by rw [get, hi]; rfl, hr', hp'.symm.trans hp⟩
  · intro j j' i i' r r' q q' hne hi hi' hr hr' hq hq'
    obtain ⟨i₁, hi₁, hs⟩ := back hi
    obtain ⟨i₂, hi₂, hs'⟩ := back hi'
    obtain ⟨r₁, hr₁, hp, -⟩ := hs.run_eq hr
    obtain ⟨r₂, hr₂, hp', -⟩ := hs'.run_eq hr'
    rw [hs.dir, hs'.dir]
    rw [hp] at hq
    rw [hp'] at hq'
    exact h.phvsApart j j' i₁ i₂ r₁ r₂ q q' hne hi₁ hi₂ hr₁ hr₂ hq hq'

theorem MachineInv.endTurn {s : State} (h : MachineInv s) : MachineInv s.endTurn :=
  ⟨h.canonical, h.packets, h.runs, h.owners, h.phvsApart⟩

theorem MachineInv.popCmd {s : State} (h : MachineInv s) : MachineInv s.popCmd :=
  ⟨h.canonical, h.packets, h.runs, h.owners, h.phvsApart⟩

theorem MachineInv.wf_of_get {s : State} (h : MachineInv s) {k : Nat} {i : Instance} (hi : s.insts[k]? = some i) :
    i.cfg.Wf ∧ i.snap.Wf := by
  obtain ⟨-, -, hw⟩ := h.canonical
  exact hw i (List.mem_of_getElem? hi)

theorem MachineInv.movePhase {s : State} (h : MachineInv s) (k : Nat) (f : Phase → Phase) :
    MachineInv (s.movePhase k f) := by
  refine h.modifyInst k (fun i => ⟨rfl, rfl, ?_⟩) fun i hi => (h.wf_of_get hi).1
  rw [Option.map_map]
  rfl

theorem MachineInv.withCfg {s : State} (h : MachineInv s) (k : Nat) {cfg : InstCfg} (hw : cfg.Wf) :
    MachineInv (s.withCfg k cfg) :=
  h.modifyInst k (fun _ => ⟨rfl, rfl, rfl⟩) fun _ _ => hw

/-! ### One agent moves, on one packet -/

/-- Between `s` and `t` only agent `a` has moved, and of the packets only `p` has changed, which no
other parser owns and which is what `a` is parsing if it parses. -/
structure OnlyMoves (s t : State) (a : Agent) (p : Nat) : Prop where
  params  : t.params = s.params
  nextPkt : s.nextPkt ≤ t.nextPkt
  insts   : ∀ j, a ≠ .inst j → t.insts[j]? = s.insts[j]?
  packets : ∀ x, x ≠ p → t.packets.get x = s.packets.get x
  free    : ∀ q j, s.packets.get p = some q → q.owner = .inst j → a = .inst j
  parses  : ∀ k i r, a = .inst k → s.insts[k]? = some i → i.run = some r → r.pkt = p

/-- No running parse but that of parser `k` writes the PHV behind `g`. -/
def ApartFrom (s : State) (k : Nat) (g : Handle) : Prop :=
  ∀ (j : Nat) (i : Instance) (r : Run) (q : Packet), j ≠ k → s.insts[j]? = some i → i.run = some r →
    s.packets.get r.pkt = some q → g ≠ (q.view i.dir).phv

/-- What the invariant asks of packet `p`, whose record is `q`. -/
def PacketWf (t : State) (p : Nat) (q : Packet) : Prop :=
  p < t.nextPkt ∧ q.bytes.length ≤ Config.lenMax ∧ q.q.copyCtr.length = t.params.nQctr

theorem OnlyMoves.other_parse {s t : State} {a : Agent} {p : Nat} (o : OnlyMoves s t a p) (h : MachineInv s)
    {j : Nat} {i : Instance} {r : Run} (hj : a ≠ .inst j) (hi : t.insts[j]? = some i) (hr : i.run = some r) :
    s.insts[j]? = some i ∧ t.packets.get r.pkt = s.packets.get r.pkt := by
  rw [o.insts j hj] at hi
  refine ⟨hi, o.packets _ fun e => ?_⟩
  obtain ⟨q, hq, ho, -⟩ := h.runs j i r hi hr
  exact hj (o.free q j (e ▸ hq) ho)

/-- The invariant of the moved state is what it says of the agent that moved and of the packet it moved on. -/
theorem MachineInv.of_onlyMoves {s t : State} {a : Agent} {p : Nat} (h : MachineInv s) (o : OnlyMoves s t a p)
    (hpw : Memory.wf t.packets) (hvw : Memory.wf t.phvs)
    (packet : ∀ q, t.packets.get p = some q → PacketWf t p q ∧
      ∀ k, q.owner = .inst k → ∃ i r, t.insts[k]? = some i ∧ i.run = some r ∧ r.pkt = p)
    (mover : ∀ k i, a = .inst k → t.insts[k]? = some i → (i.cfg.Wf ∧ i.snap.Wf) ∧
      ∀ r, i.run = some r → RunWf t k i r ∧
        ∀ q, t.packets.get r.pkt = some q → ApartFrom s k (q.view i.dir).phv) :
    MachineInv t := by
  refine ⟨⟨hpw, hvw, fun i hi => ?_⟩, fun x q hq => ?_, fun j i r hi hr => ?_, fun x q j hq ho => ?_, ?_⟩
  · obtain ⟨j, hj⟩ := List.mem_iff_getElem?.1 hi
    by_cases ha : a = .inst j
    · exact (mover j i ha hj).1
    · rw [o.insts j ha] at hj
      exact h.wf_of_get hj
  · by_cases hx : x = p
    · subst hx
      exact (packet q hq).1
    · rw [o.packets x hx] at hq
      obtain ⟨h1, h2, h3⟩ := h.packets x q hq
      exact ⟨h1.trans_le o.nextPkt, h2, o.params ▸ h3⟩
  · by_cases ha : a = .inst j
    · exact ((mover j i ha hi).2 r hr).1
    · obtain ⟨hi', hp⟩ := o.other_parse h ha hi hr
      exact (h.runs j i r hi' hr).congr hp rfl rfl rfl
  · by_cases hx : x = p
    · subst hx
      exact (packet q hq).2 j ho
    · rw [o.packets x hx] at hq
      obtain ⟨i, r, hi, hr, hp⟩ := h.owners x q j hq ho
      have ha : a ≠ .inst j := fun ha => hx (hp ▸ o.parses j i r ha hi hr)
      exact ⟨i, r, by rw [o.insts j ha, hi], hr, hp⟩
  · intro j k i i' r r' q q' hne hi hi' hr hr' hq hq'
    by_cases hj : a = .inst j
    · have hk : a ≠ .inst k := fun hk => hne (Agent.inst.inj (hj.symm.trans hk))
      obtain ⟨hi', hp⟩ := o.other_parse h hk hi' hr'
      exact ((mover j i hj hi).2 r hr).2 q hq k i' r' q' hne.symm hi' hr' (hp ▸ hq')
    · obtain ⟨hi, hp⟩ := o.other_parse h hj hi hr
      rw [hp] at hq
      by_cases hk : a = .inst k
      · exact (((mover k i' hk hi').2 r' hr').2 q' hq' j i r q hne hi hr hq).symm
      · obtain ⟨hi', hp'⟩ := o.other_parse h hk hi' hr'
        exact h.phvsApart j k i i' r r' q q' hne hi hi' hr hr' hq (hp' ▸ hq')

end Sys2Proof.Machine
end

section
/-! PROOF. Settles O3: every step keeps the machine's invariant. A step of a parser commits or releases its
parse; a step of the host changes, retires, adds or launches one of its packets, or writes a configuration. -/

namespace Sys2Proof.Machine

/-! ### Steps of a parser -/

/-- `c'` is a parse in progress that the invariant admits where it admits `c`. -/
structure Ctx.Continues (c c' : Ctx) : Prop where
  k       : c'.k = c.k
  pid     : c'.pid = c.pid
  runPkt  : c'.run.pkt = c.run.pkt
  owner   : c'.pkt.owner = c.pkt.owner
  view    : c'.pkt.view c.dir = c.pkt.view c.dir
  bytes   : c'.pkt.bytes = c.pkt.bytes
  q       : c'.pkt.q = c.pkt.q
  outcome : c'.pkt.outcome = c.pkt.outcome
  cause   : c'.pkt.cause = c.pkt.cause
  ver     : c'.pkt.ps.ver = c.pkt.ps.ver
  cur     : c'.pkt.ps.cur.toNat ≤ c.pkt.bytes.length
  cur0    : c'.run.cur0.toNat ≤ c.pkt.bytes.length
  iter    : c'.pkt.ps.iter.toNat ≤ c.snap.maxIter.toNat
  phvsWf  : Memory.wf c.phvs → Memory.wf c'.phvs

theorem Ctx.Keeps.view {c c' : Ctx} (h : c.Keeps c') (d : Dir) : c'.pkt.view d = c.pkt.view d := by
  cases d
  · exact h.ing
  · exact h.egr

/-- What is known of the cursors and the count of a parse in progress under the invariant. -/
theorem MachineInv.bounds {s : State} (h : MachineInv s) {k : Nat} {c : Ctx} (hc : s.ctxOf k = some c) :
    c.pkt.ps.cur.toNat ≤ c.pkt.bytes.length ∧ c.run.cur0.toNat ≤ c.pkt.bytes.length ∧
      c.pkt.ps.iter.toNat ≤ c.snap.maxIter.toNat := by
  obtain ⟨i, r, p, hi, hr, hp, rfl⟩ := ctxOf_eq_some.1 hc
  obtain ⟨q, hq, -, -, -, -, hcur, hcur0, hiter, -⟩ := h.runs k i r hi hr
  cases hp.symm.trans hq
  exact ⟨hcur, hcur0, hiter⟩

theorem Ctx.Keeps.continues {s : State} (h : MachineInv s) {k : Nat} {c c' : Ctx} (hc : s.ctxOf k = some c)
    (hk : c.Keeps c') (ho : c'.pkt.outcome = c.pkt.outcome) (he : c'.pkt.cause = c.pkt.cause) :
    c.Continues c' := by
  obtain ⟨hcur, hcur0, hiter⟩ := h.bounds hc
  refine ⟨hk.k, hk.pid, hk.runPkt, hk.owner, hk.view _, hk.bytes, hk.q, ho, he, hk.ver, ?_, ?_, ?_, hk.phvsWf⟩
  · rcases hk.cursor with e | e
    · rw [e]; exact hcur
    · exact e hcur0
  · rw [hk.cur0]; exact hcur0
  · rw [hk.iter]; exact hiter

/-- The loop head that begins an iteration (41_pipeline_ea.md R162): the count stays within the budget. -/
theorem continues_loopHead {s : State} (h : MachineInv s) {k : Nat} {c : Ctx} (hc : s.ctxOf k = some c)
    (hb : c.pkt.ps.iter.toNat < c.snap.maxIter.toNat) :
    c.Continues { (c.setPs { c.pkt.ps with iter := c.pkt.ps.iter + 1 }) with
      run := { c.run with cur0 := c.pkt.ps.cur } } := by
  obtain ⟨hcur, -, -⟩ := h.bounds hc
  refine ⟨rfl, rfl, rfl, rfl, ?_, rfl, rfl, rfl, rfl, rfl, hcur, hcur, ?_, id⟩
  · cases c.dir <;> rfl
  · have := c.snap.maxIter.isLt
    show (c.pkt.ps.iter + 1).toNat ≤ _
    bv_omega

theorem onlyMoves_of_sameButParse {s t : State} (h : MachineInv s) {k : Nat} {c : Ctx} (hc : s.ctxOf k = some c)
    (hs : SameButParse s t k c.pid) : OnlyMoves s t (.inst k) c.pid := by
  obtain ⟨i, r, p, hi, hr, hp, rfl⟩ := ctxOf_eq_some.1 hc
  refine ⟨hs.params, hs.nextPkt.ge, fun j hj => hs.insts j fun e => hj (e ▸ rfl), hs.packets, fun q j hq ho => ?_,
    fun k' i' r' e hi' hr' => ?_⟩
  · obtain ⟨q', hq', ho', -⟩ := h.runs k i r hi hr
    cases hq.symm.trans hq'
    exact ho'.symm.trans ho
  · cases e
    cases hi.symm.trans hi'
    cases hr.symm.trans hr'
    rfl

theorem commit_inst {s : State} {c : Ctx} {i : Instance} (hi : s.insts[c.k]? = some i) :
    (s.commit c).insts[c.k]? = some { i with run := some c.run } := by
  rw [commit_insts, setRun_get, hi, Option.map_some, if_pos rfl]

theorem commit_packet (s : State) (c : Ctx) : (s.commit c).packets.get c.pid = some c.pkt := by
  rw [commit_packets, Memory.get_set_same]

theorem release_inst {s : State} {c : Ctx} {i : Instance} (hi : s.insts[c.k]? = some i) :
    (s.release c).insts[c.k]? = some { i with run := none } := by
  rw [release_insts, setRun_get, hi, Option.map_some, if_pos rfl]

theorem release_packet (s : State) (c : Ctx) :
    (s.release c).packets.get c.pid = some { c.pkt with owner := .host } := by
  rw [release_packets, Memory.get_set_same]

/-- The parse that goes on has its packet to itself, and its PHV. -/
theorem MachineInv.runWf_commit {s : State} (h : MachineInv s) {c c' : Ctx} (hc : s.ctx = some c)
    (hk : c.Continues c') {i : Instance} (hi : s.insts[c.k]? = some i) :
    RunWf (s.commit c') c.k { i with run := some c'.run } c'.run ∧ ApartFrom s c.k (c'.pkt.view i.dir).phv := by
  obtain ⟨i', hi', hr, hd, hs⟩ := ctx_inst hc
  cases hi.symm.trans hi'
  obtain ⟨hq, hpid⟩ := ctx_packet hc
  have hpkt : s.packets.get c.run.pkt = some c.pkt := hpid ▸ hq
  obtain ⟨q, hq', ho, hv, hout, hcause, -, -, -, hw, hsh⟩ := h.runs c.k i c.run hi hr
  cases hpkt.symm.trans hq'
  have hview : c'.pkt.view i.dir = c.pkt.view i.dir := hd ▸ hk.view
  have hget : (s.commit c').packets.get c'.run.pkt = some c'.pkt := by
    rw [hk.runPkt, hpid, ← hk.pid, commit_packet]
  refine ⟨⟨c'.pkt, hget, hk.owner.trans ho, hview ▸ hv, hk.outcome.trans hout, hk.cause.trans hcause,
    hk.bytes ▸ hk.cur, hk.bytes ▸ hk.cur0, hs ▸ hk.iter, hk.ver ▸ hw, hsh⟩, ?_⟩
  rw [hview]
  intro j i' r' q' hne hi' hr' hq'
  exact h.phvsApart c.k j i i' c.run r' c.pkt q' hne.symm hi hi' hr hr' hpkt hq'

theorem MachineInv.commit {s : State} (h : MachineInv s) {c c' : Ctx} (hc : s.ctx = some c)
    (hk : c.Continues c') : MachineInv (s.commit c') := by
  obtain ⟨i, hi, hr, -⟩ := ctx_inst hc
  obtain ⟨hq, hpid⟩ := ctx_packet hc
  obtain ⟨hpw, hvw, -⟩ := h.canonical
  have inst : (s.commit c').insts[c.k]? = some { i with run := some c'.run } := hk.k ▸ commit_inst (hk.k.symm ▸ hi)
  have pkt : (s.commit c').packets.get c.pid = some c'.pkt := hk.pid ▸ commit_packet s c'
  refine h.of_onlyMoves
    (onlyMoves_of_sameButParse h (ctx_eq_some.1 hc).2 (sameButParse_commit hk.k hk.pid))
    (Memory.wf_set hpw _ _) (hk.phvsWf (ctx_phvs hc ▸ hvw)) (fun q hq₁ => ?_) fun k i₁ e hi₁ => ?_
  · cases pkt.symm.trans hq₁
    obtain ⟨hlt, hlen, hctr⟩ := h.packets _ _ hq
    refine ⟨⟨hlt, hk.bytes ▸ hlen, hk.q ▸ hctr⟩, fun k hown =>
      ⟨{ i with run := some c'.run }, c'.run, ?_, rfl, hk.runPkt.trans hpid⟩⟩
    obtain ⟨q, hq', ho, -⟩ := h.runs c.k i c.run hi hr
    cases (hpid ▸ hq).symm.trans hq'
    cases ho.symm.trans (hk.owner.symm.trans hown)
    exact inst
  · cases e
    cases inst.symm.trans hi₁
    refine ⟨h.wf_of_get (i := i) hi, fun r₁ hr₁ => ?_⟩
    cases hr₁
    obtain ⟨hwf, hapart⟩ := h.runWf_commit hc hk hi
    refine ⟨hwf, fun q hq₁ => ?_⟩
    rw [hk.runPkt, hpid] at hq₁
    cases pkt.symm.trans hq₁
    exact hapart

theorem MachineInv.release {s : State} (h : MachineInv s) {c c' : Ctx} (hc : s.ctx = some c)
    (hk : c.Keeps c') : MachineInv (s.release c') := by
  obtain ⟨i, hi, -⟩ := ctx_inst hc
  obtain ⟨hq, -⟩ := ctx_packet hc
  obtain ⟨hpw, hvw, -⟩ := h.canonical
  have inst : (s.release c').insts[c.k]? = some { i with run := none } := hk.k ▸ release_inst (hk.k.symm ▸ hi)
  have pkt : (s.release c').packets.get c.pid = some { c'.pkt with owner := .host } :=
    hk.pid ▸ release_packet s c'
  refine h.of_onlyMoves
    (onlyMoves_of_sameButParse h (ctx_eq_some.1 hc).2 (sameButParse_release hk.k hk.pid))
    (Memory.wf_set hpw _ _) (hk.phvsWf (ctx_phvs hc ▸ hvw)) (fun q hq₁ => ?_) fun k i₁ e hi₁ => ?_
  · cases pkt.symm.trans hq₁
    obtain ⟨hlt, hlen, hctr⟩ := h.packets _ _ hq
    exact ⟨⟨hlt, hk.bytes ▸ hlen, hk.q ▸ hctr⟩, nofun⟩
  · cases e
    cases inst.symm.trans hi₁
    exact ⟨h.wf_of_get (i := i) hi, nofun⟩

theorem MachineInv.afterInst {t : State} (h : MachineInv t) (k : Nat) : MachineInv (afterInst k t) :=
  (h.movePhase k Phase.next).endTurn

theorem MachineInv.instStep {s t : State} (h : MachineInv s) {k : Nat} (ha : s.agent = .inst k)
    (hst : step s = .next t) : MachineInv t := by
  obtain ⟨-, rfl⟩ | ⟨c, hc, hx, hcases⟩ := inst_step_cases ha hst
  · exact h.endTurn
  obtain ⟨-, hb, rfl⟩ | ⟨-, -, rfl⟩ | ⟨sl, ws, e, -, -, -, rfl⟩ | ⟨sl, ws, i, f, -, -, -, -, hf, hgo⟩ := hcases
  · exact (h.commit hx (continues_loopHead h hc hb)).afterInst k
  · exact (h.release hx (within_raise_self c .loopBudgetExceeded).1).afterInst k
  · exact (h.movePhase k Phase.skip).endTurn
  obtain ⟨c', e, rfl⟩ | ⟨c', e, rfl⟩ := hgo <;> rw [e] at hf
  · obtain ⟨hk, ho, he⟩ := hf
    exact (h.commit hx (hk.continues h hc ho he)).afterInst k
  · exact (h.release hx hf.1).afterInst k

/-! ### Steps of the host -/

/-- The host changes, retires or adds the packet of one name, which it owns if it exists. -/
theorem MachineInv.of_hostPacket {s t : State} (h : MachineInv s) (p : Nat) (hpar : t.params = s.params)
    (hn : s.nextPkt ≤ t.nextPkt) (hins : t.insts = s.insts) (hphv : t.phvs = s.phvs)
    (hpk : ∀ x, x ≠ p → t.packets.get x = s.packets.get x)
    (hpw : Memory.wf t.packets) (hs : ∀ q, s.packets.get p = some q → q.owner = .host)
    (ht : ∀ q, t.packets.get p = some q → PacketWf t p q ∧ q.owner = .host) : MachineInv t := by
  obtain ⟨-, hvw, -⟩ := h.canonical
  refine h.of_onlyMoves (a := .host) (p := p)
    ⟨hpar, hn, fun j _ => hins ▸ rfl, hpk, fun q j hq ho => ?_, fun _ _ _ e => nomatch e⟩ hpw (hphv ▸ hvw)
    (fun q hq => ?_) fun _ _ e => nomatch e
  · exact (hs q hq).symm.trans ho
  · obtain ⟨hw, ho⟩ := ht q hq
    exact ⟨hw, fun k hk => nomatch ho.symm.trans hk⟩

theorem MachineInv.setPacket {s : State} (h : MachineInv s) {p : Nat} {q q' : Packet}
    (hq : s.packets.get p = some q) (ho : q.owner = .host) (ho' : q'.owner = .host)
    (hb : q'.bytes.length ≤ Config.lenMax) (hc : q'.q.copyCtr.length = s.params.nQctr) :
    MachineInv { s with packets := s.packets.set p q' } := by
  refine h.of_hostPacket p rfl (Nat.le_refl _) rfl rfl (fun x hx => Memory.get_set_other _ _ hx)
    (Memory.wf_set h.canonical.1 p q') (fun q₁ hq₁ => ?_) fun q₁ hq₁ => ?_
  · cases hq.symm.trans hq₁
    exact ho
  · cases (Memory.get_set_same _ _ _).symm.trans hq₁
    exact ⟨⟨(h.packets p q hq).1, hb, hc⟩, ho'⟩

theorem MachineInv.erasePacket {s : State} (h : MachineInv s) {p : Nat} {q : Packet}
    (hq : s.packets.get p = some q) (ho : q.owner = .host) :
    MachineInv { s with packets := s.packets.erase p } := by
  refine h.of_hostPacket p rfl (Nat.le_refl _) rfl rfl
    (fun x hx => by rw [Memory.get_erase, if_neg hx]) (Memory.wf_erase h.canonical.1 p) (fun q₁ hq₁ => ?_)
    fun q₁ hq₁ => ?_
  · cases hq.symm.trans hq₁
    exact ho
  · rw [Memory.get_erase, if_pos rfl] at hq₁
    cases hq₁

theorem MachineInv.addPacket {s : State} (h : MachineInv s) {q : Packet} (ho : q.owner = .host)
    (hb : q.bytes.length ≤ Config.lenMax) (hc : q.q.copyCtr.length = s.params.nQctr) :
    MachineInv (s.addPacket q) := by
  refine h.of_hostPacket s.nextPkt rfl (Nat.le_succ _) rfl rfl (fun x hx => Memory.get_set_other _ _ hx)
    (Memory.wf_set h.canonical.1 _ q) (fun q₁ hq₁ => ?_) fun q₁ hq₁ => ?_
  · exact absurd (h.packets _ _ hq₁).1 (Nat.lt_irrefl _)
  · cases (Memory.get_set_same _ _ _).symm.trans hq₁
    exact ⟨⟨Nat.lt_succ_self _, hb, hc⟩, ho⟩

/-- A PHV not in use is apart from every running parse's (20_memory.md R84). -/
theorem apartFrom_of_phvInUse {s : State} {g : Nat} (hu : s.phvInUse g = false) (k : Nat) :
    ApartFrom s k (some g) := by
  intro j i r q _ hi hr hq e
  exact Bool.false_ne_true (hu.symm.trans (phvInUse_iff.2 ⟨j, i, r, q, hi, hr, hq, e.symm⟩))

theorem MachineInv.launch {s : State} (h : MachineInv s) {k p g : Nat} {i : Instance} {q : Packet}
    (hi : s.insts[k]? = some i) (hr : i.run = none) (hq : s.packets.get p = some q) (ho : q.owner = .host)
    (hg : (q.view i.dir).phv = some g) (hu : s.phvInUse g = false)
    (hw : WrittenFor i.cfg (q.view i.dir).version) (hs : ShiftsDefined i.cfg) :
    MachineInv (s.launch k i p q) := by
  obtain ⟨hpw, hvw, -⟩ := h.canonical
  have moves : OnlyMoves s (s.launch k i p q) (.inst k) p := by
    refine ⟨rfl, Nat.le_refl _, fun j hj => launch_inst_other s (fun e => hj (congrArg _ e.symm)) i p q,
      fun x hx => launch_packet_other s k i hx q, fun q' j hq' ho' => ?_, fun k' i' r' e hi' hr' => ?_⟩
    · cases hq.symm.trans hq'
      cases ho.symm.trans ho'
    · cases e
      cases hi.symm.trans hi'
      cases hr.symm.trans hr'
  refine h.of_onlyMoves moves (Memory.wf_set hpw _ _) hvw (fun q' hq' => ?_) fun k' i' e hi' => ?_
  · cases (launch_packet s k i p q).symm.trans hq'
    exact ⟨h.packets p q hq, fun k' hk' => by cases hk'; exact ⟨_, _, launch_inst hi p q, rfl, rfl⟩⟩
  · cases e
    cases (launch_inst hi p q).symm.trans hi'
    obtain ⟨hcfg, -⟩ := h.wf_of_get hi
    refine ⟨⟨hcfg, hcfg⟩, fun r hr => ?_⟩
    cases hr
    refine ⟨⟨q.start k i, launch_packet s k i p q, rfl, ?_, rfl, rfl, Nat.zero_le _, Nat.zero_le _, Nat.zero_le _,
      hw, hs⟩, fun q' hq' => ?_⟩
    · rw [start_view]
      exact hg ▸ Option.some_ne_none g
    · cases (launch_packet s k i p q).symm.trans hq'
      rw [start_view]
      exact hg ▸ apartFrom_of_phvInUse hu k

theorem MachineInv.hostExec {s u : State} (h : MachineInv s) {i : Instr} (hi : HostCommand i)
    (he : exec i s = .next u) : MachineInv u := by
  obtain ⟨hwf, hm⟩ := hi
  obtain ⟨p, q, q', hq, ho, ho', hb, hc, rfl⟩ | ⟨p, q, hq, ho, rfl⟩ | ⟨q, ho, hnew, rfl⟩ |
    ⟨k, inst, p, q, g, -, hi, hr, hq, ho, hg, hu, hw, hs, rfl⟩ | ⟨k, inst, mem, j, w0, w1, cfg, -, hi, hw, rfl⟩ :=
    host_exec_cases hm he
  · obtain ⟨-, hlen, hctr⟩ := h.packets p q hq
    refine h.setPacket hq ho ho' ?_ ?_
    · obtain hb | ⟨b, rfl, rfl⟩ := hb
      · rw [hb]; exact hlen
      · exact of_decide_eq_true (Bool.and_eq_true_iff.1 hwf).2
    · obtain hc | hc := hc
      · exact hc.trans hctr
      · exact hc
  · exact h.erasePacket hq ho
  · obtain ⟨b, id32, rfl, rfl, hc⟩ | ⟨p, q', hq', hb, hc⟩ := hnew
    · exact h.addPacket ho (of_decide_eq_true hwf) hc
    · obtain ⟨-, hlen, hctr⟩ := h.packets p q' hq'
      refine h.addPacket ho (hb ▸ hlen) ?_
      obtain hc | hc := hc
      · rw [hc]; exact hctr
      · exact hc
  · exact h.launch hi hr hq ho hg hu hw hs
  · rw [set_cfg_eq_withCfg hi]
    exact h.withCfg k (cfgWrite_wf (h.wf_of_get hi).1 hw)

theorem MachineInv.hostStep {s t : State} (h : MachineInv s) (ha : s.agent = .host) (hst : step s = .next t) :
    MachineInv t := by
  obtain ⟨-, rfl⟩ | ⟨m, rest, i, u, -, hd, he, rfl⟩ := host_step_cases ha hst
  · exact h.endTurn
  · exact (h.hostExec (hostCommand_of_decode hd) he).popCmd.endTurn

/-- Settles O3, by the agent on turn and by what its step can do. -/
theorem stepKeepsInvariant : Obligations.StepKeepsInvariant := by
  intro s t h hst
  cases ha : s.agent with
  | host => exact h.hostStep ha hst
  | inst k => exact h.instStep ha hst

end Sys2Proof.Machine
end

section
/-! PROOF. Settles O58: a step of a parser commutes with a change of a live configuration (10_state.md R42,
20_memory.md R85). Each operation a step is made of does. -/

namespace Sys2Proof.Machine

/-- Modifications that commute where they meet commute on the list. -/
theorem modify_comm {α : Type} {f g : α → α} (h : ∀ a, f (g a) = g (f a)) (l : List α) (m n : Nat) :
    (l.modify m f).modify n g = (l.modify n g).modify m f := by
  by_cases e : m = n
  · subst e
    rw [List.modify_modify_eq, List.modify_modify_eq]
    exact congrArg (l.modify m) (funext fun a => (h a).symm)
  · exact List.modify_modify_ne f g l e

theorem andThen_andThen (o : Host.Outcome State Fault Refusal) (f g : State → State) :
    andThen (andThen o f) g = andThen o fun t => g (f t) := by
  cases o <;> rfl

section
variable (s : State) (j k : Nat) (cfg : InstCfg)

theorem withCfg_runs : (s.withCfg j cfg).insts.map Instance.run = s.insts.map Instance.run := by
  refine List.ext_getElem? fun n => ?_
  rw [List.getElem?_map, List.getElem?_map, withCfg_get]
  cases s.insts[n]? with
  | none => rfl
  | some i =>
    simp only [Option.map_some]
    split <;> rfl

theorem busy_eq_findIdx_runs : s.busy = (s.insts.map Instance.run).findIdx? Option.isSome := by
  rw [List.findIdx?_map]
  rfl

theorem withCfg_agent : (s.withCfg j cfg).agent = s.agent := by
  have h : (s.withCfg j cfg).busy = s.busy := by rw [busy_eq_findIdx_runs, busy_eq_findIdx_runs, withCfg_runs]
  unfold State.agent
  rw [h]
  rfl

theorem withCfg_ctxOf : (s.withCfg j cfg).ctxOf k = s.ctxOf k := by
  unfold State.ctxOf
  rw [withCfg_get]
  cases s.insts[k]? with
  | none => rfl
  | some i =>
    rw [Option.map_some]
    by_cases e : j = k
    · rw [if_pos e]
      rfl
    · rw [if_neg e]
      rfl

theorem withCfg_ctx : (s.withCfg j cfg).ctx = s.ctx := by
  unfold State.ctx
  simp only [withCfg_agent, withCfg_ctxOf]

theorem withCfg_setRun (r : Option Run) : (s.withCfg j cfg).setRun k r = (s.setRun k r).withCfg j cfg := by
  refine congrArg (fun l => { s with insts := l }) (modify_comm ?_ s.insts j k)
  exact fun _ => rfl

theorem withCfg_movePhase (f : Phase → Phase) :
    (s.withCfg j cfg).movePhase k f = (s.movePhase k f).withCfg j cfg := by
  refine congrArg (fun l => { s with insts := l }) (modify_comm ?_ s.insts j k)
  exact fun _ => rfl

theorem withCfg_commit (c : Ctx) : (s.withCfg j cfg).commit c = (s.commit c).withCfg j cfg := by
  unfold State.commit
  rw [withCfg_setRun]
  rfl

theorem withCfg_release (c : Ctx) : (s.withCfg j cfg).release c = (s.release c).withCfg j cfg := by
  unfold State.release
  rw [withCfg_setRun]
  rfl

theorem withCfg_afterInst : afterInst k (s.withCfg j cfg) = (afterInst k s).withCfg j cfg :=
  congrArg State.endTurn (withCfg_movePhase s j k cfg Phase.next)

theorem withCfg_apply (e : Effect) :
    e.apply (s.withCfg j cfg) = andThen (e.apply s) fun t => t.withCfg j cfg := by
  cases e with
  | go c => exact congrArg _ (withCfg_commit s j cfg c)
  | stop c => exact congrArg _ (withCfg_release s j cfg c)
  | refuse r => rfl

theorem withCfg_onParse (f : Ctx → Effect) :
    onParse (s.withCfg j cfg) f = andThen (onParse s f) fun t => t.withCfg j cfg := by
  unfold onParse
  rw [withCfg_ctx]
  cases s.ctx with
  | none => rfl
  | some c => exact withCfg_apply s j cfg (f c)

/-- A micro-operation and its bookkeeping commute with a change of a live configuration. -/
theorem withCfg_onParse_afterInst (f : Ctx → Effect) :
    andThen (onParse (s.withCfg j cfg) f) (afterInst k) =
      andThen (andThen (onParse s f) (afterInst k)) fun t => t.withCfg j cfg := by
  rw [withCfg_onParse, andThen_andThen, andThen_andThen]
  exact congrArg _ (funext fun t => withCfg_afterInst t j k cfg)

theorem withCfg_slotStep (c : Ctx) (sl : Slot) :
    slotStep (s.withCfg j cfg) k c sl = andThen (slotStep s k c sl) fun t => t.withCfg j cfg := by
  unfold slotStep
  cases slotWords c.snap c.pkt.ps.idx c.run.csumAddr sl with
  | none => rfl
  | some ws =>
    cases hd : decode (.micro sl) ws with
    | error e =>
      simp only [hd]
      exact congrArg (fun t => Host.Outcome.next (State.endTurn t)) (withCfg_movePhase s j k cfg Phase.skip)
    | ok i =>
      obtain ⟨f, hf, -⟩ := exec_micro (micro_of_decodeSlot hd)
      simp only [hd, hf]
      exact withCfg_onParse_afterInst s j k cfg f

theorem withCfg_instStep : instStep (s.withCfg j cfg) k = andThen (instStep s k) fun t => t.withCfg j cfg := by
  unfold instStep
  rw [withCfg_ctxOf]
  cases s.ctxOf k with
  | none => rfl
  | some c =>
    cases hp : c.run.phase with
    | head =>
      simp only [hp]
      exact withCfg_onParse_afterInst s j k cfg _
    | slot sl =>
      simp only [hp]
      exact withCfg_slotStep s j k cfg c sl

end

/-- Settles O58: every operation of a parser's step commutes with a change of a live configuration. -/
theorem parseReadsOnlyItsSnapshot : Obligations.ParseReadsOnlyItsSnapshot := by
  intro s j k cfg ha
  unfold step
  rw [withCfg_agent, ha]
  exact withCfg_instStep s j k cfg

end Sys2Proof.Machine
end

section
/-! PROOF. Settles O60: what a step of the host leaves alone (10_state.md R21, R41, R57). -/

namespace Sys2Proof.Machine

/-- The parameters, the PHVs, the packets that instances own and the parses in progress are in `t` what they are
in `s`, but for live configurations. -/
def KeepsParses (s t : State) : Prop :=
  t.params = s.params ∧ t.phvs = s.phvs ∧
    (∀ p q, s.packets.get p = some q → q.owner ≠ .host → t.packets.get p = some q) ∧
    (∀ (k : Nat) i, s.insts[k]? = some i → i.run ≠ none → ∃ cfg, t.insts[k]? = some { i with cfg := cfg })

/-- A host command that changes at most one packet, whose name no packet of a parser has. -/
theorem keepsParses_of_packet {s t : State} (p : Nat) (hpar : t.params = s.params) (hphv : t.phvs = s.phvs)
    (hins : t.insts = s.insts) (hs : ∀ q, s.packets.get p = some q → q.owner = .host)
    (hpk : ∀ x, x ≠ p → t.packets.get x = s.packets.get x) : KeepsParses s t := by
  refine ⟨hpar, hphv, fun x q hq ho => ?_, fun k i hi _ => ⟨i.cfg, by rw [hins, hi]⟩⟩
  rw [hpk x fun e => ho (hs q (e ▸ hq)), hq]

theorem keepsParses_hostExec {s u : State} {i : Instr} (hm : ¬ Micro i) (he : exec i s = .next u)
    (hn : ∀ p q, s.packets.get p = some q → p < s.nextPkt) : KeepsParses s u := by
  have own : ∀ {p q}, s.packets.get p = some q → q.owner = .host →
      ∀ q', s.packets.get p = some q' → q'.owner = .host := by
    intro p q hq ho q' hq'
    cases hq.symm.trans hq'
    exact ho
  obtain ⟨p, q, q', hq, ho, -, -, -, rfl⟩ | ⟨p, q, hq, ho, rfl⟩ | ⟨q, -, -, rfl⟩ |
    ⟨k, inst, p, q, g, -, hi, hr, hq, ho, -, -, -, -, rfl⟩ | ⟨k, inst, mem, j, w0, w1, cfg, -, hi, -, rfl⟩ :=
    host_exec_cases hm he
  · exact keepsParses_of_packet p rfl rfl rfl (own hq ho) fun x hx => Memory.get_set_other _ _ hx
  · exact keepsParses_of_packet p rfl rfl rfl (own hq ho) fun x hx => by rw [Memory.get_erase, if_neg hx]
  · exact keepsParses_of_packet s.nextPkt rfl rfl rfl (fun q' hq' => absurd (hn _ _ hq') (Nat.lt_irrefl _))
      fun x hx => Memory.get_set_other _ _ hx
  · refine ⟨rfl, rfl, fun x q' hq' ho' => ?_, fun j i hi' hr' => ⟨i.cfg, ?_⟩⟩
    · rw [launch_packet_other s k inst (fun e => ?_) q, hq']
      subst e
      exact ho' (own hq ho q' hq')
    · rw [launch_inst_other s (fun e => ?_) inst p q, hi']
      subst e
      cases hi.symm.trans hi'
      exact hr' hr
  · rw [set_cfg_eq_withCfg hi]
    refine ⟨rfl, rfl, fun _ _ hq _ => hq, fun j i hi' _ => ?_⟩
    rw [withCfg_get, hi']
    by_cases e : k = j
    · exact ⟨cfg, by rw [Option.map_some, if_pos e]⟩
    · exact ⟨i.cfg, by rw [Option.map_some, if_neg e]⟩

/-- Settles O60, by what a host command can do. -/
theorem hostStepLeavesOwnedPacketsAlone : Obligations.HostStepLeavesOwnedPacketsAlone := by
  intro s t ha hst hn
  obtain ⟨-, rfl⟩ | ⟨m, rest, i, u, -, hd, he, rfl⟩ := host_step_cases ha hst
  · exact keepsParses_of_packet s.nextPkt rfl rfl rfl (fun q hq => absurd (hn _ _ hq) (Nat.lt_irrefl _))
      fun _ _ => rfl
  · have keeps : KeepsParses s u := keepsParses_hostExec (hostCommand_of_decode hd).2 he hn
    exact keeps

end Sys2Proof.Machine
end

section
/-! PROOF. Settles O1, O2 (reset), O7 (a micro-operation with no parse), O21, O22 (PARSE) and O55 (commands outside
their domain). -/

namespace Sys2Proof.Machine

/-! ### Reset -/

theorem reset_instance {i : Instance} (h : i ∈ State.reset.insts) : ∃ d, i = Instance.reset d := by
  obtain ⟨d, -, rfl⟩ := List.mem_map.1 h
  exact ⟨d, rfl⟩

theorem reset_idle {k : Nat} {i : Instance} (h : State.reset.insts[k]? = some i) : i.run = none := by
  obtain ⟨d, rfl⟩ := reset_instance (List.mem_of_getElem? h)
  rfl

theorem resetCfg_wf : InstCfg.reset.Wf :=
  ⟨⟨.nil, nofun⟩, ⟨.nil, nofun⟩, ⟨.nil, nofun⟩, ⟨.nil, nofun⟩, ⟨.nil, nofun⟩⟩

/-- Settles O1, by what `State.reset` and `Instance.reset` say. -/
theorem resetHasNoPacketAndNoWrittenRow : Obligations.ResetHasNoPacketAndNoWrittenRow := by
  refine ⟨rfl, rfl, rfl, rfl, rfl, rfl, rfl, rfl, fun i hi => ?_⟩
  obtain ⟨d, rfl⟩ := reset_instance hi
  exact ⟨rfl, rfl, rfl, rfl, rfl, rfl, rfl, rfl, rfl, rfl, rfl, rfl, rfl, rfl⟩

/-- Settles O2: at reset there is no packet, and no parse is in progress. -/
theorem resetMeetsInvariant : Obligations.ResetMeetsInvariant where
  canonical := by
    refine ⟨.nil, .nil, fun i hi => ?_⟩
    obtain ⟨d, rfl⟩ := reset_instance hi
    exact ⟨resetCfg_wf, resetCfg_wf⟩
  packets _ _ h := nomatch h
  runs k i r hi hr := nomatch (reset_idle hi).symm.trans hr
  owners _ _ _ h _ := nomatch h
  phvsApart _ _ _ _ _ _ _ _ _ _ _ _ _ h _ := nomatch h

/-! ### A micro-operation with no parse -/

theorem micro_of_encode {i : Instr} (h : (encode i).1 ≠ .port) : Micro i := by
  cases i <;> first | exact trivial | exact absurd rfl h

/-- Settles O7: an instruction at a place of the iteration is an effect on the parse of the agent on turn. -/
theorem microOperationsNeedAParse : Obligations.MicroOperationsNeedAParse := by
  intro s i hi hc
  obtain ⟨f, hf, -⟩ := exec_micro (micro_of_encode hi)
  rw [hf, onParse_none hc]

/-! ### PARSE -/

/-- Settles O21: with every check passed PARSE is `State.launch`. -/
theorem parseStartTakesSnapshotAndClearsRegisters : Obligations.ParseStartTakesSnapshotAndClearsRegisters := by
  intro s p k i q g hi hr hq ho hg hapart hw hs
  refine ⟨s.launch k i p q, ?_, ⟨rfl, rfl, rfl, rfl, rfl, fun x hx => launch_packet_other s k i hx q⟩, rfl,
    fun j hj => launch_inst_other s hj i p q, launch_inst hi p q, launch_packet s k i p q⟩
  rw [exec_parse hi hr hq ho hg, phvInUse_eq_false hapart, (written_iff _ _).2 hw, (shiftsDefined_iff _).2 hs]
  rfl

/-- Settles O22, check by check in the order PARSE makes them. -/
theorem parseStopsWhereTheSpecGivesNoStep : Obligations.ParseStopsWhereTheSpecGivesNoStep := by
  intro s p k
  refine ⟨fun hi => ?_, fun i hi => ⟨fun hr => ?_, fun hr hq => ?_, fun q hr hq => ⟨fun ho => ?_, fun ho hg => ?_,
    fun g j i' r' q' ho hg hi' hr' hq' hg' => ?_, fun g ho hg hapart => ?_⟩⟩⟩
  · simp only [exec, execParse, hi]
  · obtain ⟨r, hr⟩ := Option.ne_none_iff_exists'.1 hr
    simp only [exec, execParse, hi, hr]
  · have hp : s.hostPacket p = none := hostPacket_eq_none.2 fun q hq' => nomatch hq.symm.trans hq'
    simp only [exec, execParse, hi, hr, hp]
  · have hp : s.hostPacket p = none := hostPacket_eq_none.2 fun q' hq' => by
      cases hq.symm.trans hq'
      exact ho
    simp only [exec, execParse, hi, hr, hp]
  · simp only [exec, execParse, hi, hr, hostPacket_eq_some.2 ⟨hq, ho⟩, hg]
  · rw [exec_parse hi hr hq ho hg, if_pos (phvInUse_iff.2 ⟨j, i', r', q', hi', hr', hq', hg'⟩)]
  · rw [exec_parse hi hr hq ho hg, phvInUse_eq_false hapart, if_neg Bool.false_ne_true]
    refine ⟨fun hw => ?_, fun hw hs => ?_⟩
    · rw [if_pos (by rwa [← Bool.not_eq_true, written_iff])]
    · rw [if_neg (by rwa [Bool.not_eq_false, written_iff]),
        if_pos (by rwa [← Bool.not_eq_true, shiftsDefined_iff])]

/-! ### Commands outside their domain -/

/-- Settles O55: a packet command begins with `State.hostPacket`, PKT.WR with `fieldExists`, CFG.WR with
the record it names and `cfgWrite`. -/
theorem commandsOutsideTheirDomainHaveNoStep : Obligations.CommandsOutsideTheirDomainHaveNoStep := by
  intro s p kind id32 t4 pipe copy carry w k v w1 i j
  refine ⟨fun hk => ?_, fun hk m => ?_, fun hk hj => ?_, fun hp => ?_⟩
  · have absent : ¬ fieldExists s.params.nQctr (.num (.copyCtr k) v) = true := by
      rw [fieldExists, decide_eq_true_eq, Nat.not_lt]
      exact hk
    exact if_neg absent
  · simp only [exec, execCfgWr, hk]
  · obtain ⟨inst, hi⟩ := Option.ne_none_iff_exists'.1 hk
    have : cfgWrite inst.cfg (.act j) i v w1 = none := if_neg fun h => Nat.not_lt.2 hj h.2
    simp only [exec, execCfgWr, hi, this]
  · rw [← hostPacket_eq_none] at hp
    have onPacket_none : ∀ f, onPacket s p f = .fault .notOwned := fun f => by simp only [onPacket, hp]
    refine ⟨?_, fun hw => ?_⟩
    · simp only [List.forall_mem_cons]
      refine ⟨?_, onPacket_none _, onPacket_none _, ?_, onPacket_none _, onPacket_none _, onPacket_none _,
        onPacket_none _, onPacket_none _, nofun⟩
      · simp only [exec, execPktClone, hp]
      · simp only [exec, execPktRetire, hp]
    · exact (if_pos hw).trans (onPacket_none _)

end Sys2Proof.Machine
end

section
/-! PROOF. Settles O59: what a step of a parser leaves alone (20_memory.md R84, 60_exceptions.md R306, R312). What
a step makes of the parse in progress is stored by `State.commit` or `State.release`; the bookkeeping after it
moves the phase and ends the turn. -/

namespace Sys2Proof.Machine

/-- Packet `q` is `p` but for its owner, its outcome and cause, and its parse registers. -/
structure Packet.SameOutsideParse (p q : Packet) : Prop where
  bytes      : q.bytes = p.bytes
  pktId      : q.pktId = p.pktId
  recircCnt  : q.recircCnt = p.recircCnt
  signature  : q.signature = p.signature
  ing        : q.ing = p.ing
  egr        : q.egr = p.egr
  activeView : q.activeView = p.activeView
  teop       : q.teop = p.teop
  q          : q.q = p.q

theorem Packet.SameOutsideParse.withOwner {p q : Packet} (h : p.SameOutsideParse q) (a : Agent) :
    p.SameOutsideParse { q with owner := a } :=
  ⟨h.bytes, h.pktId, h.recircCnt, h.signature, h.ing, h.egr, h.activeView, h.teop, h.q⟩

/-- `c'` is the parse `c` after a part of a step: on the same packet, which stays the same outside the parse, and
with every container of another PHV as it was. -/
structure Ctx.StaysWithin (c c' : Ctx) : Prop where
  k    : c'.k = c.k
  pid  : c'.pid = c.pid
  pkt  : c.pkt.SameOutsideParse c'.pkt
  phvs : ∀ g d, (c.pkt.view c.dir).phv ≠ some g → phvRead c'.phvs g d = phvRead c.phvs g d

/-- Between `s` and `t` nothing has changed but the parse `c`, inside its packet and its PHV. -/
structure TouchesOnly (s t : State) (c : Ctx) : Prop where
  others : SameButParse s t c.k c.pid
  phvs   : ∀ g d, (c.pkt.view c.dir).phv ≠ some g → phvRead t.phvs g d = phvRead s.phvs g d
  packet : ∃ q, t.packets.get c.pid = some q ∧ c.pkt.SameOutsideParse q

/-! ### The parse -/

theorem Ctx.Keeps.staysWithin {c c' : Ctx} (h : c.Keeps c') : c.StaysWithin c' :=
  ⟨h.k, h.pid, ⟨h.bytes, h.pktId, h.recircCnt, h.signature, h.ing, h.egr, h.activeView, h.teop, h.q⟩, h.phvs⟩

/-- The loop head that begins an iteration writes `ITER` and `cur0` (41_pipeline_ea.md R162). -/
theorem staysWithin_loopHead (c : Ctx) :
    c.StaysWithin { (c.setPs { c.pkt.ps with iter := c.pkt.ps.iter + 1 }) with
      run := { c.run with cur0 := c.pkt.ps.cur } } :=
  ⟨rfl, rfl, ⟨rfl, rfl, rfl, rfl, rfl, rfl, rfl, rfl, rfl⟩, fun _ _ _ => rfl⟩

/-! ### The state -/

theorem touchesOnly_commit {s : State} {c c' : Ctx} (hc : s.ctx = some c) (h : c.StaysWithin c') :
    TouchesOnly s (s.commit c') c :=
  ⟨sameButParse_commit h.k h.pid, ctx_phvs hc ▸ h.phvs, c'.pkt, h.pid ▸ commit_packet s c', h.pkt⟩

theorem touchesOnly_release {s : State} {c c' : Ctx} (hc : s.ctx = some c) (h : c.StaysWithin c') :
    TouchesOnly s (s.release c') c := by
  have packet := release_packet s c'
  rw [h.pid] at packet
  exact ⟨sameButParse_release h.k h.pid, ctx_phvs hc ▸ h.phvs, _, packet, h.pkt.withOwner .host⟩

theorem touchesOnly_self {s : State} {c : Ctx} (hc : s.ctx = some c) : TouchesOnly s s c :=
  ⟨⟨rfl, rfl, rfl, rfl, fun _ _ => rfl, fun _ _ => rfl, rfl⟩, fun _ _ _ => rfl, c.pkt, (ctx_packet hc).1,
    ⟨rfl, rfl, rfl, rfl, rfl, rfl, rfl, rfl, rfl⟩⟩

theorem movePhase_get_other (s : State) {k j : Nat} (h : j ≠ k) (f : Phase → Phase) :
    (s.movePhase k f).insts[j]? = s.insts[j]? :=
  List.getElem?_modify_ne _ _ h.symm

theorem movePhase_static (s : State) (k : Nat) (f : Phase → Phase) :
    ((s.movePhase k f).insts[k]?).map (fun i => (i.dir, i.cfg, i.snap)) =
      (s.insts[k]?).map fun i => (i.dir, i.cfg, i.snap) := by
  rw [State.movePhase, List.getElem?_modify_eq, Option.map_eq_map, Option.map_map]
  rfl

/-- The phase belongs to the parse that moves. -/
theorem TouchesOnly.movePhase {s t : State} {c : Ctx} (h : TouchesOnly s t c) (f : Phase → Phase) :
    TouchesOnly s (t.movePhase c.k f) c := by
  obtain ⟨⟨params, nextPkt, cmds, turns, insts, packets, static⟩, phvs, packet⟩ := h
  exact ⟨⟨params, nextPkt, cmds, turns, fun j hj => (movePhase_get_other t hj f).trans (insts j hj), packets,
    (movePhase_static t c.k f).trans static⟩, phvs, packet⟩

/-- A parser's step touches only its parse, and then the turn is over. -/
theorem inst_step_touchesOnly {s t : State} {c : Ctx} (hc : s.ctx = some c) (h : step s = .next t) :
    ∃ u, TouchesOnly s u c ∧ t = u.endTurn := by
  obtain ⟨ha, hk⟩ := ctx_eq_some.1 hc
  obtain ⟨idle, -⟩ | ⟨c₁, -, hc₁, hcases⟩ := inst_step_cases ha h
  · exact nomatch hk.symm.trans idle
  cases hc.symm.trans hc₁
  obtain ⟨-, -, rfl⟩ | ⟨-, -, rfl⟩ | ⟨sl, ws, e, -, -, -, rfl⟩ | ⟨sl, ws, i, f, -, -, -, -, hf, hgo⟩ := hcases
  · exact ⟨_, (touchesOnly_commit hc (staysWithin_loopHead c)).movePhase Phase.next, rfl⟩
  · have raised := (within_raise_self c .loopBudgetExceeded).1.staysWithin
    exact ⟨_, (touchesOnly_release hc raised).movePhase Phase.next, rfl⟩
  · exact ⟨_, (touchesOnly_self hc).movePhase Phase.skip, rfl⟩
  obtain ⟨c', e, rfl⟩ | ⟨c', e, rfl⟩ := hgo <;> rw [e] at hf
  · exact ⟨_, (touchesOnly_commit hc hf.1.staysWithin).movePhase Phase.next, rfl⟩
  · exact ⟨_, (touchesOnly_release hc hf.1.staysWithin).movePhase Phase.next, rfl⟩

theorem ctxOf_k {s : State} {k : Nat} {c : Ctx} (h : s.ctxOf k = some c) : c.k = k := by
  obtain ⟨i, r, p, -, -, -, rfl⟩ := ctxOf_eq_some.1 h
  rfl

/-- Settles O59, by what a step of a parser touches. -/
theorem instanceStepTouchesOnlyItsParse : Obligations.InstanceStepTouchesOnlyItsParse := by
  intro s t k c ha hk hst
  obtain rfl := ctxOf_k hk
  obtain ⟨u, h, rfl⟩ := inst_step_touchesOnly (ctx_eq_some.2 ⟨ha, hk⟩) hst
  obtain ⟨others, phvs, q, hq, pkt⟩ := h
  exact ⟨others.params, others.cmds, others.nextPkt, congrArg List.tail others.turns, others.insts, others.static,
    others.packets, phvs, q, hq, pkt.bytes, pkt.pktId, pkt.recircCnt, pkt.signature, pkt.ing, pkt.egr,
    pkt.activeView, pkt.teop, pkt.q⟩

end Sys2Proof.Machine
end

section
/-! PROOF. Settles O14 (reads of the byte window, 20_memory.md R71, R75) and O38 (lanes through a null handle,
R76). -/

namespace Sys2Proof.Machine

/-! ### The byte window -/

/-- Inside the window `byteAt` is a byte of the packet, never the default. -/
theorem getElem?_eq_byteAt {c : Ctx} {o : Nat} (h : o < c.avail) :
    c.pkt.bytes[c.run.cur0.toNat + o]? = some (c.byteAt o) := by
  have inside : c.run.cur0.toNat + o < c.pkt.bytes.length := by
    have := Nat.lt_of_lt_of_le h (Nat.min_le_right _ _)
    omega
  rw [Ctx.byteAt, List.getD_eq_getElem?_getD, List.getElem?_eq_getElem inside, Option.getD_some]

/-- Settles O14: each byte of a read stands in the window. -/
theorem windowReadsAreThePacketsBytesBigEndian : Obligations.WindowReadsAreThePacketsBytesBigEndian := by
  intro c
  refine ⟨rfl, fun o => ?_⟩
  have byte : ∀ k, o + k < c.avail → c.pkt.bytes[c.run.cur0.toNat + o + k]? = some (c.byteAt (o + k)) := by
    intro k h
    rw [Nat.add_assoc]
    exact getElem?_eq_byteAt h
  refine ⟨fun h => byte 0 h, fun h => ?_, fun h => ?_⟩
  · exact ⟨_, _, byte 0 (by omega), byte 1 h, rfl⟩
  · exact ⟨_, _, _, _, byte 0 (by omega), byte 1 (by omega), byte 2 (by omega), byte 3 h, rfl⟩

/-! ### The lanes -/

section
variable (s : State) (l : Lane)

theorem exec_ex32 : ∀ i ∈ [Instr.actEx32_0 l, .actEx32_1 l, .actEx32_2 l, .actEx32_3 l],
    exec i s = onParse s (extract32 l) := by
  simp only [List.forall_mem_cons]
  exact ⟨rfl, rfl, rfl, rfl, nofun⟩

theorem exec_ex16 : ∀ i ∈ [Instr.actEx16_0 l, .actEx16_1 l, .actEx16_2 l, .actEx16_3 l],
    exec i s = onParse s (extract16 l) := by
  simp only [List.forall_mem_cons]
  exact ⟨rfl, rfl, rfl, rfl, nofun⟩

theorem exec_ex8 : ∀ i ∈ [Instr.actEx8_0 l, .actEx8_1 l, .actEx8_2 l, .actEx8_3 l],
    exec i s = onParse s (extract8 l) := by
  simp only [List.forall_mem_cons]
  exact ⟨rfl, rfl, rfl, rfl, nofun⟩

end

theorem extract_nullPhv {n : Nat} {val : Ctx → Nat → PhvVal} {l : Lane} {c : Ctx}
    (h : srcEff l c.run.doffEff + n ≤ c.avail) (hv : (c.pkt.view c.dir).phv = none) :
    extract n val l c = .refuse .nullPhv := by
  simp only [extract, if_neg (Nat.not_lt.2 h), hv]

/-- Settles O38: the source check passed, a lane looks at the handle before it writes. -/
theorem lanesThroughANullHandleAreRefused : Obligations.LanesThroughANullHandleAreRefused := by
  intro s c l hc hv
  have refused : ∀ {n : Nat} {val : Ctx → Nat → PhvVal}, srcEff l c.run.doffEff + n ≤ c.avail →
      onParse s (extract n val l) = .refused .nullPhv := by
    intro n val h
    rw [onParse_eq hc, extract_nullPhv h hv]
    rfl
  exact ⟨fun h i hi => (exec_ex32 s l i hi).trans (refused h), fun h i hi => (exec_ex16 s l i hi).trans (refused h),
    fun h i hi => (exec_ex8 s l i hi).trans (refused h)⟩

end Sys2Proof.Machine
end

section
/-! PROOF. Settles O56: what one CFG.WR writes (20_memory.md R78, 30_encoding.md R111). -/

namespace Sys2Proof.Machine

/-- CFG.WR replaces the live configuration it names by what `cfgWrite` makes of it. -/
theorem configures_of_cfgWrite {s : State} {k i : Nat} {inst : Instance} {mem : CfgMem} {w0 w1 : W64}
    {cfg : InstCfg} {P : InstCfg → Prop} (hi : s.insts[k]? = some inst)
    (hw : cfgWrite inst.cfg mem i w0 w1 = some cfg) (hp : P cfg) :
    Configures s (exec (.cfgWr k mem i w0 w1) s) k inst P := by
  obtain ⟨hlt, -⟩ := List.getElem?_eq_some_iff.1 hi
  refine ⟨{ s with insts := s.insts.set k { inst with cfg := cfg } }, cfg, ?_, hp, List.getElem?_set_self hlt,
    fun j hj => List.getElem?_set_ne hj.symm, rfl, rfl, rfl, rfl, rfl, rfl⟩
  simp only [exec, execCfgWr, hi, hw]

/-- The two words of a pair, under neighbouring keys. -/
theorem Memory.get_set_succ {α : Type} (m : Memory α) (a n : Nat) (v w : α) :
    ((m.set a v).set (a + 1) w).get n = if n = a then some v else if n = a + 1 then some w else m.get n := by
  rw [Memory.get_set, Memory.get_set]
  by_cases h : n = a
  · rw [if_neg (by omega), if_pos h, if_pos h]
  · rw [if_neg h, if_neg h]

/-- Settles O56, memory by memory: the configuration `cfgWrite` gives where the index exists. -/
theorem cfgWrWritesOneRowOrRegister : Obligations.CfgWrWritesOneRowOrRegister := by
  intro s k inst i j w0 w1 hi
  refine ⟨fun h => ?tcam, fun h => ?ea, fun h hj => ?pair, fun h => ?lastPair, fun h => ?csum0, fun h => ?csum1,
    ?start, ?offsets, ?budget⟩
  case tcam | ea | csum0 | csum1 => exact configures_of_cfgWrite hi (if_pos h) ⟨rfl, fun n => Memory.get_set _ _ n _⟩
  case pair =>
    have inRow : i < Config.nRows ∧ j < 4 := ⟨h, by omega⟩
    have notLast : j ≠ 3 := by omega
    refine configures_of_cfgWrite hi (if_pos inRow) ⟨rfl, fun n => ?_⟩
    rw [if_neg notLast]
    exact Memory.get_set_succ _ _ n _ _
  case lastPair => exact configures_of_cfgWrite hi (if_pos ⟨h, by decide⟩) ⟨rfl, fun n => Memory.get_set _ _ n _⟩
  case start | offsets | budget => exact configures_of_cfgWrite hi rfl rfl

end Sys2Proof.Machine
end

section
/-! PROOF. Settles O9: the decoder undoes the encoder, row by row for a place of the iteration, operand by operand
for a command (log 14). -/

namespace Sys2Proof

/-! ### Operand words -/

theorem opWord_toNat {n : Nat} (h : fitsWord n = true) : (opWord n).toNat = n :=
  Nat.mod_eq_of_lt (of_decide_eq_true h)

theorem narrow_opWord {n : Nat} (hn : n ≤ 64) (x : BitVec n) : narrow n (opWord x.toNat) = .ok x := by
  have fits : fitsWord x.toNat = true :=
    decide_eq_true (Nat.lt_of_lt_of_le x.isLt (Nat.pow_le_pow_right (by decide) hn))
  unfold narrow
  rw [opWord_toNat fits, if_pos x.isLt, BitVec.ofNat_toNat, BitVec.setWidth_eq]

theorem mapM_narrow_opWord (b : List Byte) :
    (b.map fun x => opWord x.toNat).mapM (narrow 8) = .ok b := by
  induction b with
  | nil => rfl
  | cons x b ih => rw [List.map_cons, List.mapM_cons, narrow_opWord (by decide), ih]; rfl

theorem decBytes_encBytes {b : List Byte} (h : fitsLen b = true) : decBytes (encBytes b) = .ok b := by
  have len : b.length ≤ Config.lenMax := of_decide_eq_true h
  have word : (opWord b.length).toNat = b.length :=
    opWord_toNat (decide_eq_true (Nat.lt_of_le_of_lt len (by decide)))
  simp only [decBytes, encBytes, word, List.length_map, ne_eq, not_true_eq_false, if_false, if_pos len]
  exact mapM_narrow_opWord b

theorem decHandle_encHandle {h : Handle} (hw : h.wf = true) : decHandle (encHandle h) = h := by
  cases h with
  | none => rfl
  | some n =>
    obtain ⟨pos, fits⟩ := Bool.and_eq_true_iff.1 hw
    have nonzero : n ≠ 0 := Nat.ne_of_gt (of_decide_eq_true pos)
    rw [encHandle, decHandle, opWord_toNat fits, if_neg nonzero]

theorem decDir_encDir (d : Dir) : decDir (encDir d) = .ok d := by cases d <;> rfl

theorem decKind_encKind (k : CloneKind) : decKind (encKind k) = .ok k := by cases k <;> rfl

theorem decMem_encMem {m : CfgMem} (h : m.wf = true) : decMem (encMem m).1 (encMem m).2 = .ok m := by
  cases m with
  | act j => exact congrArg (fun n => Except.ok (CfgMem.act n)) (opWord_toNat h)
  | csum e => cases e <;> rfl
  | _ => rfl

/-- The words of a field begin with its code and index, and what `decField` reads from them is the field. -/
theorem decField_encField {w : FieldWrite} (h : w.wf = true) :
    ∃ code idx vs, encField w = code :: idx :: vs ∧ decField code idx vs = .ok w := by
  cases w with
  | num f v =>
    cases f with
    | version d | metadataAdded d | origHdrLen d | parsableHdrLen d =>
      exact ⟨_, _, _, rfl, by cases d <;> rfl⟩
    | copyCtr k =>
      exact ⟨_, _, _, rfl, congrArg (fun n => Except.ok (FieldWrite.num (.copyCtr n) v)) (opWord_toNat h)⟩
    | l1Cnt | l2Cnt | mcGrpId | recircCnt | priority => exact ⟨_, _, _, rfl, rfl⟩
  | handle f h' =>
    have value := congrArg (fun x => Except.ok (ε := DecodeError) (FieldWrite.handle f x)) (decHandle_encHandle h)
    cases f with
    | phv d | port d | clot d => exact ⟨_, _, _, rfl, by cases d <;> exact value⟩
    | teop => exact ⟨_, _, _, rfl, value⟩
  | bytes f b =>
    have value := congrArg (fun x => x.bind fun b => Except.ok (FieldWrite.bytes f b)) (decBytes_encBytes h)
    cases f <;> exact ⟨_, _, _, rfl, value⟩

/-! ### Commands -/

theorem decode_command {w : W64} (h : w.toNat < 256) (ws : List W64) :
    decode .port (w :: ws) = decodeOp w.toNat ws :=
  if_pos h

theorem copyId_encoded (mk : Nat → BitVec 32 → BitVec 4 → BitVec 16 → Instr) {p : Nat} (hp : fitsWord p = true)
    (id : BitVec 32) (pipe : BitVec 4) (copy : BitVec 16) :
    copyId mk [opWord p, opWord id.toNat, opWord pipe.toNat, opWord copy.toNat] = .ok (mk p id pipe copy) := by
  simp only [copyId, narrow_opWord, Nat.reduceLeDiff, Except.bind, opWord_toNat hp]

theorem onlyPacket_encoded (mk : Nat → Instr) {p : Nat} (hp : fitsWord p = true) :
    onlyPacket mk [opWord p] = .ok (mk p) := by
  rw [onlyPacket, opWord_toNat hp]

theorem decode_encode_command {i : Instr} (hm : ¬ Machine.Micro i) (hw : i.wf = true) :
    decode (encode i).1 (encode i).2 = .ok i := by
  cases i <;> first | exact absurd trivial hm | refine (decode_command (by decide) _).trans ?_
  case parse p k =>
    obtain ⟨hp, hk⟩ := Bool.and_eq_true_iff.1 hw
    simp [decodeOp, opWord_toNat hp, opWord_toNat hk]
  case pktCreate b id =>
    simp [decodeOp, narrow_opWord, Except.bind, decBytes_encBytes hw]
  case pktClone p kind pipe copy carry =>
    simp [decodeOp, narrow_opWord, Except.bind, decKind_encKind, opWord_toNat hw]
  case pktReset | pktSetEgress | pktRetire => exact onlyPacket_encoded _ hw
  case pktWr p w =>
    obtain ⟨hp, hf⟩ := Bool.and_eq_true_iff.1 hw
    obtain ⟨code, idx, vs, enc, dec⟩ := decField_encField hf
    simp [decodeOp, enc, dec, Except.bind, opWord_toNat hp]
  case pktId | pktType =>
    simp [decodeOp, narrow_opWord, Except.bind, opWord_toNat hw]
  case pktIdMcCpy | pktIdMirrCpy | pktIdMcC2c => exact copyId_encoded _ hw _ _ _
  case cfgWr k mem n w0 w1 =>
    obtain ⟨hkm, hn⟩ := Bool.and_eq_true_iff.1 hw
    obtain ⟨hk, hm⟩ := Bool.and_eq_true_iff.1 hkm
    simp [decodeOp, decMem_encMem hm, Except.bind, opWord_toNat hk, opWord_toNat hn]

/-! ### Micro-operations -/

theorem decLaneOp_encLane (mk : Fin 4 → Lane → Instr) (k : Fin 4) (l : Lane) :
    decLaneOp mk k (encLane k l) = .ok (mk k l) := by
  rw [decLaneOp, decLane_encLane]

theorem decode_encode_micro {i : Instr} (hm : Machine.Micro i) : decode (encode i).1 (encode i).2 = .ok i := by
  cases i <;> first | exact hm.elim | skip
  case winSample | tcamKey | tcamSelect => rfl
  case tcamMatch row v m =>
    simp only [encode, decode, decodeSlot, twoWords, decTcam_encTcam]
  case eaCtrAdd | eaCtrLdi | eaCtrLds | eaShift | eaNxt | eaArm16 | eaArm8_0 | eaArm8_1 | eaBufreq | eaDone =>
    simp only [encode, decode, decodeSlot, oneWord, decEa_encEa] <;> rfl
  case actDoff | actCsum0 | actCsum1 | actPriImm | actPriFld =>
    simp only [encode, decode, decodeSlot, oneWord, decActCsum, decActCtl_encActCtl] <;> rfl
  case csumAcc | csumStart | csumEnd | csumZao =>
    simp only [encode, encCsum, decode, decodeSlot, twoWords, decCsum_encCsum] <;> rfl
  case actEx32_0 | actEx32_1 | actEx32_2 | actEx32_3 | actEx16_0 | actEx16_1 | actEx16_2 | actEx16_3 | actEx8_0 |
      actEx8_1 | actEx8_2 | actEx8_3 =>
    exact decLaneOp_encLane _ _ _

/-- Settles O9: a place's row is read back whole; a command operand by operand. -/
theorem decodeOfEncodeIsTheInstruction : Obligations.DecodeOfEncodeIsTheInstruction := by
  intro i hw
  by_cases hm : Machine.Micro i
  · exact decode_encode_micro hm
  · exact decode_encode_command hm hw

end Sys2Proof
end

section
/-! PROOF. Settles O10: what the decoder answers is well-formed. -/

namespace Sys2Proof

theorem wf_of_micro {i : Instr} (h : Machine.Micro i) : i.wf = true := by
  cases i <;> first | rfl | exact h.elim

/-- Settles O10: a micro-operation has no operand that could fail to fit, and a command's come from its words. -/
theorem decodedInstructionsAreWellFormed : Obligations.DecodedInstructionsAreWellFormed := by
  intro l ws i h
  cases l with
  | micro sl => exact wf_of_micro (Machine.micro_of_decodeSlot h)
  | port => exact (hostCommand_of_decode h).1

end Sys2Proof
end

section
/-! PROOF. Settles O5, O6 (the step at the command port, and at a place that selects nothing or was never written)
and O27 (a reserved shift). -/

namespace Sys2Proof.Machine

/-! ### The step at the command port -/

theorem step_command {s : State} {m : List W64} {rest : List (List W64)} {i : Instr} (ha : s.agent = .host)
    (hc : s.cmds = m :: rest) (hd : decode .port m = .ok i) : step s = andThen (exec i s) afterCmd := by
  simp only [step, ha, hostStep, hc, hd]

theorem step_noCommand {s : State} {m : List W64} {rest : List (List W64)} {e : DecodeError} (ha : s.agent = .host)
    (hc : s.cmds = m :: rest) (hd : decode .port m = .error e) : step s = .fault (.badCommand e) := by
  simp only [step, ha, hostStep, hc, hd]

/-- Settles O5: the step is the command's execution and then `afterCmd`, which a stop does not reach. -/
theorem stepRunsTheHostCommand : Obligations.StepRunsTheHostCommand := by
  intro s m rest ha hc
  refine ⟨fun i hd => ?_, fun e hd => step_noCommand ha hc hd⟩
  rw [step_command ha hc hd]
  refine ⟨fun t ht => ?_, fun e he => ?_, fun e he => ?_⟩
  · rw [ht]; rfl
  · rw [he]; rfl
  · rw [he]; rfl

/-! ### The step at a place of the iteration -/

theorem step_atSlot {s : State} {k : Nat} {c : Ctx} {sl : Slot} (ha : s.agent = .inst k) (hc : s.ctxOf k = some c)
    (hp : c.run.phase = .slot sl) : step s = slotStep s k c sl := by
  simp only [step, ha, instStep, hc, hp]

/-- Settles O6, by the branches of `slotStep` that run no instruction. -/
theorem stepPassesOverOrRefuses : Obligations.StepPassesOverOrRefuses := by
  intro s k c sl ha hc hp
  rw [step_atSlot ha hc hp]
  refine ⟨fun hw => ?_, fun ws e hw hd => ?_⟩
  · simp only [slotStep, hw]
  · simp only [slotStep, hw, hd]
    rfl

/-! ### A reserved shift -/

/-- Settles O27: EA.SHIFT looks at its operand before all else. -/
theorem reservedShiftIsRefused : Obligations.ReservedShiftIsRefused := by
  intro s c amt hc h
  change onParse s _ = _
  rw [onParse_eq hc, if_pos (show amt.toNat > Config.wBytes from h)]
  rfl

end Sys2Proof.Machine
end

section
/-! PROOF. Settles O11, O12 and O13: the fields of row words and the bits that select a micro-operation
(30_encoding.md R104 to R110, R121), and the word each place of an iteration reads (20_memory.md R77). -/

namespace Sys2Proof.Machine

/-- Settles O11, word by word. -/
theorem specWordsDecode : Obligations.SpecWordsDecode :=
  ⟨rfl, rfl, rfl, rfl, rfl, rfl, rfl, rfl⟩

/-! ### Bits that select -/

/-- A bit of a word selects an operation through the one-bit field that holds it. -/
theorem whenOn_bit (w : W64) (k : Nat) (i : Instr) :
    whenOn (w.extractLsb' k 1) i = if w.getLsbD k then .ok i else .error .notSelected := by
  simp only [whenOn, extract_one_eq_one]

/-- Settles O12: each place reads its fields of `decEa`. -/
theorem eaRowDecodesByItsTable : Obligations.EaRowDecodesByItsTable := by
  intro w
  refine ⟨rfl, ?ctr, whenOn_bit w 34 _, whenOn_bit w 35 _, whenOn_bit w 36 _, rfl, rfl, rfl⟩
  change Except.ok (decCtr (decEa w)) = _
  simp only [decCtr, decEa, extract_one_eq_zero]

/-! ### Where the words stand -/

/-- The lane words come in pairs: lanes 0 and 1 of a group share its first word, lanes 2 and 3 its second. -/
theorem laneWord_eq (c : InstCfg) (idx : BitVec 8) (n : Nat) (k : Fin 4) :
    c.laneWord idx n k = c.act.get (8 * idx.toNat + if k < 2 then n else n + 1) := by
  fin_cases k <;> rfl

/-! ### The lanes -/

/-- The fields of a lane slot that begins at bit `lo` (30_encoding.md R105). -/
def laneAt (w : W64) (lo : Nat) : Lane :=
  ⟨w.extractLsb' (lo + 1) 1, w.extractLsb' (lo + 2) 6, w.extractLsb' (lo + 8) 8, w.extractLsb' (lo + 16) 1,
    w.extractLsb' (lo + 17) 2⟩

theorem decLaneOp_eq (mk : Fin 4 → Lane → Instr) (k : Fin 4) (w : W64) : decLaneOp mk k w =
    if w.getLsbD (laneLo k) then .ok (mk k (laneAt w (laneLo k))) else .error .notSelected := by
  simp only [decLaneOp, decLane, extract_one_eq_one]
  cases w.getLsbD (laneLo k) <;> rfl

/-- What is decoded at the place of a lane, for an instruction that is known lane by lane. -/
theorem decode_eq_of_decLaneOp (w : W64) (k : Fin 4) {sl : Slot} {mk : Fin 4 → Lane → Instr} {i : Instr}
    (hs : decode (.micro sl) [w] = decLaneOp mk k w) (hi : mk k (laneAt w (laneLo k)) = i) :
    decode (.micro sl) [w] = if w.getLsbD (laneLo k) then .ok i else .error .notSelected := by
  rw [hs, decLaneOp_eq, hi]

/-! ### Two bits that select -/

theorem decPri_eq (w : W64) : decPri (decActCtl w) =
    if w.getLsbD 21 then .ok (.actPriFld (w.extractLsb' 22 2) (w.extractLsb' 24 3) (w.extractLsb' 27 3))
    else if w.getLsbD 24 then .ok (.actPriImm (w.extractLsb' 27 3)) else .error .notSelected := by
  have enable : (w.extractLsb' 24 3).getLsbD 0 = w.getLsbD 24 := BitVec.getLsbD_extractLsb' ..
  simp only [decPri, decActCtl, whenOn, extract_one_eq_one, enable]

theorem and_eq_one_iff (a b : BitVec 1) : a &&& b = 1#1 ↔ a = 1#1 ∧ b = 1#1 := by
  revert a b; decide

theorem whenOn_bits (w : W64) (j k : Nat) (i : Instr) : whenOn (w.extractLsb' j 1 &&& w.extractLsb' k 1) i =
    if w.getLsbD j && w.getLsbD k then .ok i else .error .notSelected := by
  simp only [whenOn, and_eq_one_iff, extract_one_eq_one, Bool.and_eq_true]

/-- Settles O13: each place's word by `slotWords`, each field by the row's decoder, each bit by `whenOn`. -/
theorem actAndCsumRowsDecodeByTheirTables : Obligations.ActAndCsumRowsDecodeByTheirTables := by
  refine ⟨fun c idx a k => ?words, fun w k => ?lanes, fun w => ?control, fun w0 w1 e => ?checksum⟩
  case words =>
    refine ⟨congrArg asList (laneWord_eq c idx 0 k), congrArg asList (laneWord_eq c idx 2 k),
      congrArg asList (laneWord_eq c idx 4 k), rfl, rfl, fun _ => rfl, ?_, ?_, ?_, fun _ => rfl, ?_⟩ <;>
      simp only [List.forall_mem_cons]
    · exact ⟨rfl, rfl, rfl, rfl, rfl, rfl, rfl, rfl, nofun⟩
    · exact ⟨rfl, rfl, rfl, rfl, nofun⟩
    · exact ⟨rfl, rfl, rfl, rfl, nofun⟩
    · exact ⟨rfl, rfl, rfl, nofun⟩
  case lanes =>
    refine ⟨decode_eq_of_decLaneOp w k (mk := mkEx32) rfl ?_, decode_eq_of_decLaneOp w k (mk := mkEx16) rfl ?_,
      decode_eq_of_decLaneOp w k (mk := mkEx8) rfl ?_⟩ <;> fin_cases k <;> rfl
  case control => exact ⟨rfl, whenOn_bit w 9 _, whenOn_bit w 15 _, decPri_eq w⟩
  case checksum => exact ⟨rfl, whenOn_bit w0 50 _, whenOn_bit w0 51 _, whenOn_bits w0 51 52 _⟩

end Sys2Proof.Machine
end

section
/-! PROOF. Settles O57: command codes and configuration indices that name nothing (30_encoding.md R130). -/

namespace Sys2Proof.Machine

theorem decodeOp_reserved {op : Nat} (ws : List W64)
    (h : op ∉ [0x00, 0x10, 0x11, 0x12, 0x13, 0x14, 0x15, 0x20, 0x21, 0x22, 0x23, 0x24, 0x30]) :
    decodeOp op ws = .error .reservedOpcode := by
  unfold decodeOp
  split
  case h_14 => rfl
  all_goals exact absurd (by decide) h

theorem cfgWr_refused {s : State} {k i : Nat} {inst : Instance} {mem : CfgMem} {w0 w1 : W64}
    (hi : s.insts[k]? = some inst) (hw : cfgWrite inst.cfg mem i w0 w1 = none) :
    exec (.cfgWr k mem i w0 w1) s = .refused .badConfigIndex := by
  simp only [exec, execCfgWr, hi, hw]

/-- Settles O57: `decodeOp` knows the thirteen codes only, and `cfgWrite` the indices a memory has. -/
theorem reservedCodesAndIndicesAreRefused : Obligations.ReservedCodesAndIndicesAreRefused := by
  refine ⟨fun w ws hw => ?_, fun s k inst i j w0 w1 hi => ⟨fun h => ?rows, fun h e => ?csum, fun h => ?ctl⟩⟩
  · by_cases h : w.toNat < 256
    · rw [if_pos h, decode_command h, decodeOp_reserved ws hw]
    · rw [if_neg h]
      exact if_neg h
  case rows =>
    have beyond : ¬ i < Config.nRows := Nat.not_lt.2 h
    simp only [List.forall_mem_cons]
    exact ⟨cfgWr_refused hi (if_neg beyond), cfgWr_refused hi (if_neg beyond),
      cfgWr_refused hi (if_neg fun both => beyond both.1), nofun⟩
  case csum => cases e <;> exact cfgWr_refused hi (if_neg (Nat.not_lt.2 h))
  case ctl =>
    obtain ⟨n, rfl⟩ := Nat.exists_eq_add_of_le' h
    exact cfgWr_refused hi rfl

end Sys2Proof.Machine
end

section
/-! PROOF. Settles O15 to O19: the operations of the match engine (40_match.md R141 to R145), and what the rest of
an iteration needs of them. -/

namespace Sys2Proof.Machine

/-! ### WIN.SAMPLE -/

theorem exec_winSample_of_legal {s : State} {c : Ctx} (hc : s.ctx = some c) (h : c.sampleLegal) :
    GoesOn s c (exec .winSample s) c.run { c.pkt with ps := { c.pkt.ps with win := c.sample } } := by
  obtain ⟨h16, h8_0, h8_1⟩ := h
  refine goesOn_of_go (c' := c.setPs { c.pkt.ps with win := c.sample }) hc ?_ rfl rfl rfl rfl rfl
  dsimp only
  rw [if_neg (Nat.not_lt.2 h16), if_neg (Nat.not_lt.2 h8_0), if_neg (Nat.not_lt.2 h8_1)]

theorem exec_winSample_of_not_legal {s : State} {c : Ctx} (hc : s.ctx = some c) (h : ¬ c.sampleLegal) :
    Ends s c (exec .winSample s) .outOfBoundsRead c.pkt := by
  refine ends_of_raise (c' := c) hc ?_ rfl rfl rfl rfl
  dsimp only
  split_ifs with h16 h8_0 h8_1
  · rfl
  · rfl
  · rfl
  · exact absurd ⟨Nat.not_lt.1 h16, Nat.not_lt.1 h8_0, Nat.not_lt.1 h8_1⟩ h

/-- Settles O15: the three checks come before the write. -/
theorem winSampleReadsTheArmedOffsetsOrFaults : Obligations.WinSampleReadsTheArmedOffsetsOrFaults := by
  intro s c hc
  by_cases h : c.sampleLegal
  · exact (if_pos h).mpr (exec_winSample_of_legal hc h)
  · exact (if_neg h).mpr (exec_winSample_of_not_legal hc h)

/-! ### TCAM.KEY -/

/-- A field of a row's 44 bits is a field of the row's word, whose fields `decTcam` reads. -/
theorem bits_extract (r : TcamRow) {start len : Nat} (h : start + len ≤ 44) :
    r.bits.extractLsb' start len = (encTcam r).extractLsb' start len :=
  (extract_append_low 0#20 r.bits start h).symm

theorem bits_getLsbD (r : TcamRow) {b : Nat} (h : b < 44) : r.bits.getLsbD b = (encTcam r).getLsbD b := by
  have bit := bits_extract r (start := b) (len := 1) h
  simpa using congrArg (fun x => x.getLsbD 0) bit

theorem exec_tcamKey {s : State} {c : Ctx} (hc : s.ctx = some c) :
    GoesOn s c (exec .tcamKey s)
      { c.run with
        key := (searchKey c.pkt.ps.win c.pkt.ps.state c.pkt.ps.ctr c.pkt.ps.ver).bits, hits := [] } c.pkt :=
  goesOn_of_go_all
    (fun c => { c with run := { c.run with
      key := (searchKey c.pkt.ps.win c.pkt.ps.state c.pkt.ps.ctr c.pkt.ps.ver).bits, hits := [] } })
    hc rfl rfl rfl rfl rfl

/-- A one-bit field that is 1 exactly where `P` holds shows `P` in its bit. -/
theorem getLsbD_eq_decide {w : W64} {k : Nat} {P : Prop} [Decidable P]
    (h : w.extractLsb' k 1 = if P then 1#1 else 0#1) : w.getLsbD k = decide P := by
  rw [Bool.eq_iff_iff, decide_eq_true_iff, ← extract_one_eq_one, h]
  split_ifs with hP <;> simp [hP]

/-- Settles O16: the key has the layout of a TcamRow, whose word `decTcam` reads back. -/
theorem tcamKeyIsFormedFromWindowStateCounterVersion :
    Obligations.TcamKeyIsFormedFromWindowStateCounterVersion := by
  intro s c hc
  have fields := decTcam_encTcam (searchKey c.pkt.ps.win c.pkt.ps.state c.pkt.ps.ctr c.pkt.ps.ver)
  obtain ⟨lookup16, lookup8_0, lookup8_1, state, zero, neg, ver0, ver1⟩ := TcamRow.mk.inj fields
  refine ⟨_, exec_tcamKey hc, ?_, ?_, ?_, ?_, ?_, ?_, ?_, ?_⟩
  · exact (bits_extract _ (by decide)).trans lookup16
  · exact (bits_extract _ (by decide)).trans lookup8_0
  · exact (bits_extract _ (by decide)).trans lookup8_1
  · exact (bits_extract _ (by decide)).trans state
  · exact (bits_getLsbD _ (by decide)).trans (getLsbD_eq_decide zero)
  · rw [bits_getLsbD _ (by decide)]
    simpa [ctrNeg] using congrArg (fun x => x.getLsbD 0) neg
  · exact (bits_getLsbD _ (by decide)).trans (getLsbD_eq_decide ver0)
  · exact (bits_getLsbD _ (by decide)).trans (getLsbD_eq_decide ver1)

/-! ### TCAM.MATCH -/

/-- The ternary test bit by bit (40_match.md R143). -/
theorem ternary_iff (key v m : BitVec 44) :
    ternary key v m = true ↔ ∀ b < 44, m.getLsbD b = false ∨ v.getLsbD b = key.getLsbD b := by
  have bit : ∀ x y z : Bool, ((x && z) = (y && z)) ↔ (z = false ∨ y = x) := by decide
  rw [ternary, beq_iff_eq]
  refine ⟨fun h b _ => ?_, fun h => BitVec.eq_of_getLsbD_eq fun b hb => ?_⟩
  · have same := congrArg (fun x => x.getLsbD b) h
    simpa only [BitVec.getLsbD_and, bit] using same
  · rw [BitVec.getLsbD_and, BitVec.getLsbD_and, bit]
    exact h b hb

theorem decTcam_bits_getLsbD (w : W64) {b : Nat} (h : b < 44) : (decTcam w).bits.getLsbD b = w.getLsbD b := by
  rw [decTcam_bits, BitVec.getLsbD_extractLsb', decide_eq_true h, Bool.true_and, Nat.zero_add]

theorem ternary_decTcam_iff (key : BitVec 44) (v m : W64) :
    ternary key (decTcam v).bits (decTcam m).bits = true ↔
      ∀ b < 44, m.getLsbD b = false ∨ v.getLsbD b = key.getLsbD b := by
  rw [ternary_iff]
  refine forall₂_congr fun b hb => ?_
  rw [decTcam_bits_getLsbD v hb, decTcam_bits_getLsbD m hb]

theorem exec_tcamMatch {s : State} {c : Ctx} (hc : s.ctx = some c) (i : BitVec 8) (v m : TcamRow) :
    GoesOn s c (exec (.tcamMatch i v m) s)
      { c.run with hits := if ternary c.run.key v.bits m.bits = true then c.run.hits ++ [i] else c.run.hits }
      c.pkt := by
  by_cases h : ternary c.run.key v.bits m.bits = true
  · rw [if_pos h]
    exact goesOn_of_go hc (if_pos h) rfl rfl rfl rfl rfl
  · rw [if_neg h]
    exact goesOn_of_go hc (if_neg h) rfl rfl rfl rfl rfl

/-- Settles O17: the masked comparison is the test of each bit. -/
theorem tcamMatchTestsAllFortyFourBits : Obligations.TcamMatchTestsAllFortyFourBits := by
  intro s c i v m hc
  have h := exec_tcamMatch hc i (decTcam v) (decTcam m)
  simp only [ternary_decTcam_iff] at h
  exact h

/-- Settles O18: (a) and (b) on masked values, (c) and (d) bit by bit. -/
theorem ternaryMatchLaws : Obligations.TernaryMatchLaws := by
  intro key key' v v' m m'
  refine ⟨fun h => ?_, fun h => ?_, fun h => ?_, fun w w' x x' hw hx => ?_⟩
  · rw [ternary, ternary, h]
  · rw [ternary, ternary, h]
  · rw [ternary_iff, ternary_iff]
    intro hm b hb
    refine (hm b hb).imp_left fun unmasked => ?_
    have bit : (m' &&& ~~~m).getLsbD b = false := h ▸ BitVec.getLsbD_zero
    rwa [BitVec.getLsbD_and, BitVec.getLsbD_not, unmasked, decide_eq_true hb, Bool.not_false, Bool.and_true,
      Bool.and_true] at bit
  · rw [Bool.eq_iff_iff, ternary_decTcam_iff, ternary_decTcam_iff]
    refine forall₂_congr fun b hb => ?_
    rw [hw b hb, hx b hb]

/-! ### TCAM.SELECT -/

theorem minRow_toNat (a b : BitVec 8) : (minRow a b).toNat = min a.toNat b.toNat := by
  unfold minRow
  split <;> omega

theorem foldl_minRow_le (h : BitVec 8) (hs : List (BitVec 8)) :
    ∀ x ∈ h :: hs, (hs.foldl minRow h).toNat ≤ x.toNat := by
  induction hs generalizing h with
  | nil => simp
  | cons y ys ih =>
    obtain ⟨first, rest⟩ := List.forall_mem_cons.1 (ih (minRow h y))
    rw [minRow_toNat] at first
    simp only [List.foldl_cons, List.forall_mem_cons]
    exact ⟨by omega, by omega, rest⟩

theorem foldl_minRow_mem (h : BitVec 8) (hs : List (BitVec 8)) : hs.foldl minRow h ∈ h :: hs := by
  induction hs generalizing h with
  | nil => simp
  | cons y ys ih =>
    have lower : minRow h y = h ∨ minRow h y = y := by
      unfold minRow
      split <;> simp
    rw [List.foldl_cons]
    rcases List.mem_cons.1 (ih (minRow h y)) with e | e
    · rw [e]
      rcases lower with e | e <;> simp [e]
    · simp [e]

/-- Under any tie-break the row picked is one that matched. -/
theorem pickRow_mem (tb : Config.TieBreak) (h : BitVec 8) (hs : List (BitVec 8)) : pickRow tb h hs ∈ h :: hs := by
  cases tb with
  | lowest => exact foldl_minRow_mem h hs
  | other =>
    have inside : Config.otherTieBreak (h :: hs) % (hs.length + 1) < (h :: hs).length :=
      Nat.mod_lt _ (Nat.succ_pos _)
    simp only [pickRow]
    rw [List.getD_eq_getElem _ _ inside]
    exact List.getElem_mem inside

/-- Settles O19: with no match the parse ends; else the row is the one `pickRow` takes. -/
theorem tcamSelectTakesTheLowestMatchOrFaults : Obligations.TcamSelectTakesTheLowestMatchOrFaults := by
  intro s c hc
  cases hh : c.run.hits with
  | nil =>
    refine ⟨fun _ => ?_, fun h => absurd rfl h⟩
    refine ends_of_raise (c' := c.setPs { c.pkt.ps with hit := 0 }) hc ?_ rfl rfl rfl rfl
    simp only [hh]
  | cons h hs =>
    refine ⟨nofun, fun _ => ⟨pickRow s.params.tieBreak h hs, pickRow_mem _ h hs, fun ht => ?_, ?_⟩⟩
    · rw [ht]
      exact foldl_minRow_le h hs
    · refine goesOn_of_go (c' := c.setPs { c.pkt.ps with hit := 1, idx := pickRow c.params.tieBreak h hs }) hc ?_
        rfl rfl rfl rfl (by rw [← ctx_params hc]; rfl)
      simp only [hh]

end Sys2Proof.Machine
end

section
/-! PROOF. Where a micro-operation stands: the decoder answers at a place of the iteration only operations that the
encoder puts there (30_encoding.md R121). -/

namespace Sys2Proof

theorem bare_eq_ok {i j : Instr} {ws : List W64} (h : bare i ws = .ok j) : j = i := by
  cases ws with
  | nil => exact (Except.ok.inj h).symm
  | cons => cases h

theorem oneWord_eq_ok {f : W64 → Except DecodeError Instr} {ws : List W64} {i : Instr}
    (h : oneWord f ws = .ok i) : ∃ w, ws = [w] ∧ f w = .ok i := by
  rcases ws with _ | ⟨w, _ | _⟩
  · cases h
  · exact ⟨w, rfl, h⟩
  · cases h

theorem twoWords_eq_ok {f : W64 → W64 → Except DecodeError Instr} {ws : List W64} {i : Instr}
    (h : twoWords f ws = .ok i) : ∃ w0 w1, ws = [w0, w1] ∧ f w0 w1 = .ok i := by
  rcases ws with _ | ⟨w0, _ | ⟨w1, _ | _⟩⟩
  · cases h
  · cases h
  · exact ⟨w0, w1, rfl, h⟩
  · cases h

theorem whenOn_eq_ok {b : BitVec 1} {i j : Instr} (h : whenOn b i = .ok j) : j = i := by
  unfold whenOn at h
  split at h
  · exact (Except.ok.inj h).symm
  · cases h

theorem decLaneOp_eq_ok {mk : Fin 4 → Lane → Instr} {k : Fin 4} {w : W64} {i : Instr}
    (h : decLaneOp mk k w = .ok i) : ∃ l, i = mk k l := by
  rw [Machine.decLaneOp_eq] at h
  split at h
  · exact ⟨_, (Except.ok.inj h).symm⟩
  · cases h

theorem encode_place_of_decode {sl : Slot} {ws : List W64} {i : Instr} (h : decode (.micro sl) ws = .ok i) :
    (encode i).1 = .micro sl := by
  cases sl with
  | winSample | tcamKey | tcamSelect =>
    obtain rfl := bare_eq_ok h
    rfl
  | tcamMatch | csumAcc =>
    obtain ⟨w0, w1, -, h⟩ := twoWords_eq_ok h
    cases h
    rfl
  | csumStart | csumZao | csumEnd =>
    obtain ⟨w0, w1, -, h⟩ := twoWords_eq_ok h
    obtain rfl := whenOn_eq_ok h
    rfl
  | eaShift | eaNxt | eaBufreq | actDoff | eaDone =>
    obtain ⟨w, -, h⟩ := oneWord_eq_ok h
    cases h
    rfl
  | eaCtr =>
    obtain ⟨w, -, h⟩ := oneWord_eq_ok h
    cases h
    unfold decCtr
    split_ifs <;> rfl
  | eaArm16 | eaArm8_0 | eaArm8_1 =>
    obtain ⟨w, -, h⟩ := oneWord_eq_ok h
    obtain rfl := whenOn_eq_ok h
    rfl
  | ex32 k | ex16 k | ex8 k =>
    obtain ⟨w, -, h⟩ := oneWord_eq_ok h
    obtain ⟨l, rfl⟩ := decLaneOp_eq_ok h
    fin_cases k <;> rfl
  | actCsum e =>
    obtain ⟨w, -, h⟩ := oneWord_eq_ok h
    cases e <;> obtain rfl := whenOn_eq_ok h <;> rfl
  | actPri =>
    obtain ⟨w, -, h⟩ := oneWord_eq_ok h
    unfold decPri at h
    split at h
    · cases h
      rfl
    · obtain rfl := whenOn_eq_ok h
      rfl

end Sys2Proof
end

section
/-! PROOF. Settles O20: every step keeps the search exact (40_match.md R143, R145, R146). What the statement asks of
a parse depends on its place only, so a step is judged by the place it leads to; a parse that does not move is judged
as before, and a parse that begins stands at the loop head. -/

namespace Sys2Proof.Machine

/-! ### What is asked at a place -/

/-- What `SearchExact` asks of the parse `c` when it stands at `ph`. -/
def Ctx.ExactAt (c : Ctx) (ph : Phase) : Prop :=
  (∀ i, ph = .slot (.tcamMatch i) → SearchedTo c i.toNat) ∧
    (ph = .slot .tcamSelect → SearchedTo c Config.nRows) ∧
    ∀ sl, ph = .slot sl → c.snap.maxIter ≠ 0 ∧ (appliesAt sl = true → AppliesMatch c) ∧
      ∀ e, engineAt sl = some e → InvokedAs c e

theorem searchExact_iff {s : State} :
    SearchExact s ↔ ∀ k c, s.ctxOf k = some c → c.ExactAt c.run.phase :=
  Iff.rfl

theorem exactAt_head (c : Ctx) : c.ExactAt .head :=
  ⟨nofun, nofun, nofun⟩

section
variable {c : Ctx} (budget : c.snap.maxIter ≠ 0)
include budget

theorem exactAt_winSample : c.ExactAt (.slot .winSample) :=
  ⟨nofun, nofun, fun _ e => by cases e; exact ⟨budget, nofun, nofun⟩⟩

theorem exactAt_tcamKey : c.ExactAt (.slot .tcamKey) :=
  ⟨nofun, nofun, fun _ e => by cases e; exact ⟨budget, nofun, nofun⟩⟩

theorem exactAt_tcamMatch {i : BitVec 8} (h : SearchedTo c i.toNat) : c.ExactAt (.slot (.tcamMatch i)) :=
  ⟨fun _ e => by cases e; exact h, nofun, fun _ e => by cases e; exact ⟨budget, nofun, nofun⟩⟩

theorem exactAt_tcamSelect (h : SearchedTo c Config.nRows) : c.ExactAt (.slot .tcamSelect) :=
  ⟨nofun, fun _ => h, fun _ e => by cases e; exact ⟨budget, nofun, nofun⟩⟩

theorem exactAt_applies {sl : Slot} (ha : appliesAt sl = true) (h : AppliesMatch c)
    (he : ∀ e, engineAt sl = some e → InvokedAs c e) : c.ExactAt (.slot sl) := by
  refine ⟨fun i e => ?_, fun e => ?_, fun sl' e => ?_⟩ <;> cases e
  · cases ha
  · cases ha
  · exact ⟨budget, fun _ => h, he⟩

end

/-! ### Past the search -/

/-- What the statement reads of the entry being applied is in `c'` what it is in `c`; its snapshot and version are
among what every micro-operation keeps (`Ctx.Keeps`). -/
structure Ctx.SameEntry (c c' : Ctx) : Prop where
  k        : c'.k = c.k
  pid      : c'.pid = c.pid
  key      : c'.run.key = c.run.key
  csumAddr : c'.run.csumAddr = c.run.csumAddr
  idx      : c'.pkt.ps.idx = c.pkt.ps.idx
  win      : c'.pkt.ps.win = c.pkt.ps.win
  state    : c'.pkt.ps.state = c.pkt.ps.state

theorem Ctx.SameEntry.refl (c : Ctx) : c.SameEntry c := ⟨rfl, rfl, rfl, rfl, rfl, rfl, rfl⟩

theorem Ctx.SameEntry.appliesMatch {c c' : Ctx} (he : c.SameEntry c') (hk : c.Keeps c') (h : AppliesMatch c) :
    AppliesMatch c' := by
  unfold AppliesMatch
  rw [hk.snap, hk.ver, he.key, he.idx, he.win, he.state]
  exact h

theorem Ctx.SameEntry.invokedAs {c c' : Ctx} (he : c.SameEntry c') (hk : c.Keeps c') {e : Eng}
    (h : InvokedAs c e) : InvokedAs c' e := by
  unfold InvokedAs
  rw [hk.snap, he.idx, he.csumAddr]
  exact h

/-- Past the search, what follows a place is past it too, and uses no engine that the place did not use: an engine is
invoked by ACT.CSUM only, and to pass over that place is to pass over the engine (42_extract.md R210). -/
theorem slotSkip_applies {sl sl' : Slot} (ha : appliesAt sl = true) (h : slotSkip sl = .slot sl') :
    appliesAt sl' = true ∧ ∀ e, engineAt sl' = some e → engineAt sl = some e := by
  cases sl with
  | winSample | tcamKey | tcamMatch | tcamSelect => cases ha
  | eaDone => cases h
  | ex32 k | ex16 k | ex8 k => fin_cases k <;> cases h <;> exact ⟨rfl, nofun⟩
  | actCsum e => cases e <;> cases h <;> exact ⟨rfl, nofun⟩
  | csumStart | csumAcc | csumZao => cases h; exact ⟨rfl, fun _ h => h⟩
  | csumEnd e => cases e <;> cases h <;> exact ⟨rfl, nofun⟩
  | _ => cases h; exact ⟨rfl, nofun⟩

theorem exactAt_slotSkip {c c' : Ctx} {sl : Slot} (hx : c.ExactAt (.slot sl)) (ha : appliesAt sl = true)
    (hk : c.Keeps c') (he : c.SameEntry c') : c'.ExactAt (slotSkip sl) := by
  obtain ⟨-, -, place⟩ := hx
  obtain ⟨budget, applies, invoked⟩ := place sl rfl
  cases hp : slotSkip sl with
  | head => exact exactAt_head c'
  | slot sl' =>
    obtain ⟨ha', engine⟩ := slotSkip_applies ha hp
    exact exactAt_applies (hk.snap ▸ budget) ha' (he.appliesMatch hk (applies ha))
      fun e h => he.invokedAs hk (invoked e (engine e h))

/-- An effect after which the parse, if it goes on, applies the same entry. -/
def Effect.KeepsEntry (c : Ctx) : Effect → Prop
  | .go c' => c.SameEntry c'
  | .stop c' => c'.k = c.k
  | .refuse _ => True

theorem keepsEntry_setPs (c : Ctx) (g : ParseRegs) (hi : g.idx = c.pkt.ps.idx) (hw : g.win = c.pkt.ps.win)
    (hs : g.state = c.pkt.ps.state) : (Effect.go (c.setPs g)).KeepsEntry c :=
  ⟨rfl, rfl, rfl, rfl, hi, hw, hs⟩

theorem keepsEntry_setCsum (c : Ctx) (e : Eng) (g : Csum) :
    (Effect.go (c.setPs (c.pkt.ps.setCsum e g))).KeepsEntry c := by
  cases e <;> exact keepsEntry_setPs c _ rfl rfl rfl

theorem keepsEntry_extract (n : Nat) (val : Ctx → Nat → PhvVal) (l : Lane) (c : Ctx) :
    (extract n val l c).KeepsEntry c := by
  unfold extract
  dsimp only
  split
  · rfl
  · split
    · trivial
    · exact ⟨rfl, rfl, rfl, rfl, rfl, rfl, rfl⟩

/-- Past the search only ACT.CSUM names a checksum row, and only EA.DONE, the last place, writes `STATE`. -/
theorem exec_keepsEntry {i : Instr} {sl : Slot} (hi : (encode i).1 = .micro sl) (ha : appliesAt sl = true)
    (hc : ∀ e, sl ≠ .actCsum e) (hd : sl ≠ .eaDone) :
    ∃ f : Ctx → Effect, (∀ s, exec i s = onParse s f) ∧ ∀ c, (f c).KeepsEntry c := by
  cases i <;> cases hi
  case winSample | tcamKey | tcamMatch | tcamSelect => cases ha
  case actCsum0 | actCsum1 => exact absurd rfl (hc _)
  case eaDone => exact absurd rfl hd
  case eaCtrAdd =>
    refine ⟨_, fun _ => rfl, fun c => ?_⟩
    dsimp only
    split
    · exact keepsEntry_setPs c _ rfl rfl rfl
    · exact .refl c
  case eaShift =>
    refine ⟨_, fun _ => rfl, fun c => ?_⟩
    dsimp only
    split
    · trivial
    · split
      · rfl
      · exact keepsEntry_setPs c _ rfl rfl rfl
  case csumAcc e r =>
    refine ⟨_, fun _ => rfl, fun c => ?_⟩
    split
    · exact keepsEntry_setCsum c e _
    · rfl
  case csumZao e _ | csumEnd e _ => exact ⟨_, fun _ => rfl, fun c => keepsEntry_setCsum c e _⟩
  case actDoff | csumStart | actPriImm | actPriFld =>
    exact ⟨_, fun _ => rfl, fun _ => ⟨rfl, rfl, rfl, rfl, rfl, rfl, rfl⟩⟩
  case eaCtrLdi | eaCtrLds | eaNxt | eaArm16 | eaArm8_0 | eaArm8_1 | eaBufreq =>
    exact ⟨_, fun _ => rfl, fun c => keepsEntry_setPs c _ rfl rfl rfl⟩
  case actEx32_0 | actEx32_1 | actEx32_2 | actEx32_3 | actEx16_0 | actEx16_1 | actEx16_2 | actEx16_3 | actEx8_0 |
      actEx8_1 | actEx8_2 | actEx8_3 =>
    exact ⟨_, fun _ => rfl, keepsEntry_extract _ _ _⟩

/-! ### What a stored parse is -/

theorem commit_run {s : State} {c c' : Ctx} (hc : s.ctx = some c) (hk : c'.k = c.k) :
    ((s.commit c').insts[c.k]?).map Instance.run = some (some c'.run) := by
  obtain ⟨i, hi, -⟩ := ctx_inst hc
  rw [← hk] at hi ⊢
  rw [commit_inst hi]
  rfl

theorem release_run {s : State} {c c' : Ctx} (hc : s.ctx = some c) (hk : c'.k = c.k) :
    ((s.release c').insts[c.k]?).map Instance.run = some none := by
  obtain ⟨i, hi, -⟩ := ctx_inst hc
  rw [← hk] at hi ⊢
  rw [release_inst hi]
  rfl

section
variable {s : State} {c c' : Ctx} {o : Host.Outcome State Fault Refusal} (hc : s.ctx = some c)
  (hk : c.Keeps c') (ho : o = .next (s.commit c'))
include hc hk ho

theorem GoesOn.of_commit {r : Run} {p : Packet} (h : GoesOn s c o r p) : c'.run = r ∧ c'.pkt = p := by
  obtain ⟨u, hu, -, -, hr, hp⟩ := h
  cases hu.symm.trans ho
  rw [commit_run hc hk.k] at hr
  rw [← hk.pid, commit_packet] at hp
  cases hr
  cases hp
  exact ⟨rfl, rfl⟩

theorem Ends.of_commit {why : Cause} {p : Packet} (h : Ends s c o why p) : False := by
  obtain ⟨u, hu, -, -, hr, -⟩ := h
  cases hu.symm.trans ho
  rw [commit_run hc hk.k] at hr
  cases hr

theorem sameEntry_of_commit {f : Ctx → Effect} (hf : o = onParse s f) (he : (f c).KeepsEntry c) :
    c.SameEntry c' := by
  rw [hf, onParse_eq hc] at ho
  cases hfc : f c with
  | refuse r => rw [hfc] at ho; cases ho
  | stop d =>
    rw [hfc] at ho he
    have stopped := release_run hc he
    rw [Host.Outcome.next.inj ho, commit_run hc hk.k] at stopped
    cases stopped
  | go d =>
    rw [hfc] at ho he
    have run := commit_run hc he.k
    have pkt := commit_packet s d
    rw [Host.Outcome.next.inj ho, commit_run hc hk.k, Option.some_inj, Option.some_inj] at run
    rw [Host.Outcome.next.inj ho, he.pid, ← hk.pid, commit_packet, Option.some_inj] at pkt
    exact ⟨hk.k, hk.pid, run ▸ he.key, run ▸ he.csumAddr, pkt ▸ he.idx, pkt ▸ he.win, pkt ▸ he.state⟩

end

/-! ### The search -/

theorem rowMatches_eq_ternary {c : InstCfg} {j : Nat} {v m : W64} (h : c.tcam.get j = some (v, m))
    (key : BitVec 44) : rowMatches c key j = ternary key (decTcam v).bits (decTcam m).bits := by
  rw [decTcam_bits, decTcam_bits, rowMatches, h]
  rfl

/-- The test of row `j` makes a search up to it one past it. -/
theorem SearchedTo.succ {c : Ctx} {j : BitVec 8} {v m : W64} (h : SearchedTo c j.toNat)
    (hg : c.snap.tcam.get j.toNat = some (v, m)) :
    SearchedTo { c with run := { c.run with
      hits := if ternary c.run.key (decTcam v).bits (decTcam m).bits = true then c.run.hits ++ [j]
        else c.run.hits } } (j.toNat + 1) := by
  obtain ⟨key, hits⟩ := h
  refine ⟨key, ?_⟩
  dsimp only
  rw [List.range_succ, List.filter_append, List.filter_singleton, rowMatches_eq_ternary hg, ← hits]
  cases ternary c.run.key (decTcam v).bits (decTcam m).bits <;> simp

theorem SearchedTo.rowMatches {c : Ctx} {n : Nat} (h : SearchedTo c n) {row : BitVec 8} (hr : row ∈ c.run.hits) :
    rowMatches c.snap c.run.key row.toNat = true := by
  obtain ⟨-, hits⟩ := h
  have found : row.toNat ∈ c.run.hits.map BitVec.toNat := List.mem_map_of_mem hr
  rw [hits] at found
  exact (List.mem_filter.1 found).2

/-- The place after a row test: the next row, or TCAM.SELECT after row 255. -/
theorem exactAt_after_row {c : Ctx} (budget : c.snap.maxIter ≠ 0) {j : BitVec 8} (h : SearchedTo c (j.toNat + 1)) :
    c.ExactAt (slotNext (.tcamMatch j)) := by
  rw [slotNext]
  by_cases last : j = 255#8
  · rw [if_pos last]
    subst last
    exact exactAt_tcamSelect budget h
  · rw [if_neg last]
    have succ : (j + 1).toNat = j.toNat + 1 := by bv_omega
    exact exactAt_tcamMatch budget (succ ▸ h)

/-! ### A micro-operation that goes on -/

/-- What ACT.CSUM of engine `e` decodes to: an invocation with the row that the control word names. -/
theorem invoke_of_decode {e : Eng} {w : W64} {i : Instr} (h : decode (.micro (.actCsum e)) [w] = .ok i) :
    ∃ addr, (∀ s, exec i s = onParse s (invoke e addr)) ∧
      ∀ c : Ctx, c.snap.act.get (8 * c.pkt.ps.idx.toNat + 6) = some w → c.run.csumAddr = addr →
        InvokedAs c e := by
  cases e with
  | e0 =>
    rw [show decode (.micro (.actCsum .e0)) [w] = _ from whenOn_bit w 9 _] at h
    split at h <;> cases h
    next on => exact ⟨_, fun _ => rfl, fun c hw ha => ⟨w, hw, on, ha⟩⟩
  | e1 =>
    rw [show decode (.micro (.actCsum .e1)) [w] = _ from whenOn_bit w 15 _] at h
    split at h <;> cases h
    next on => exact ⟨_, fun _ => rfl, fun c hw ha => ⟨w, hw, on, ha⟩⟩

theorem exec_invoke {s : State} {c : Ctx} (hc : s.ctx = some c) (e : Eng) (addr : BitVec 5) :
    GoesOn s c (onParse s (invoke e addr))
      { c.run with csumAddr := addr, sumIn := (c.pkt.ps.csum e).sum } c.pkt :=
  goesOn_of_go hc rfl rfl rfl rfl rfl rfl

/-- A micro-operation that goes on leaves its parse as the next place asks. -/
theorem exactAt_slotNext {s : State} {c c' : Ctx} {sl : Slot} {ws : List W64} {i : Instr} (hc : s.ctx = some c)
    (hx : c.ExactAt (.slot sl)) (hw : slotWords c.snap c.pkt.ps.idx c.run.csumAddr sl = some ws)
    (hd : decode (.micro sl) ws = .ok i) (hk : c.Keeps c') (ho : exec i s = .next (s.commit c')) :
    c'.ExactAt (slotNext sl) := by
  have hi : (encode i).1 = .micro sl := encode_place_of_decode hd
  have ⟨row, select, place⟩ := hx
  obtain ⟨budget, applies, invoked⟩ := place sl rfl
  have budget' : c'.snap.maxIter ≠ 0 := hk.snap ▸ budget
  have past : appliesAt sl = true → (∀ e, sl ≠ .actCsum e) → sl ≠ .eaDone → c'.ExactAt (slotSkip sl) := by
    intro ha hcs hdone
    obtain ⟨f, hf, hfe⟩ := exec_keepsEntry hi ha hcs hdone
    exact exactAt_slotSkip hx ha hk (sameEntry_of_commit hc hk ho (hf s) (hfe c))
  cases sl with
  | winSample => exact exactAt_tcamKey budget'
  | tcamKey =>
    obtain rfl := bare_eq_ok hd
    obtain ⟨run, pkt⟩ := (exec_tcamKey hc).of_commit hc hk ho
    refine exactAt_tcamMatch budget' ⟨?_, ?_⟩
    · rw [run, pkt]
    · rw [run]; rfl
  | tcamMatch j =>
    obtain ⟨⟨v, m⟩, hg, rfl⟩ := Option.map_eq_some_iff.1 hw
    cases hd
    obtain ⟨run, pkt⟩ := (exec_tcamMatch hc j (decTcam v) (decTcam m)).of_commit hc hk ho
    refine exactAt_after_row budget' ?_
    unfold SearchedTo
    rw [run, pkt, hk.snap]
    exact (row j rfl).succ hg
  | tcamSelect =>
    obtain rfl := bare_eq_ok hd
    obtain ⟨ends, selects⟩ := tcamSelectTakesTheLowestMatchOrFaults s c hc
    by_cases hh : c.run.hits = []
    · exact ((ends hh).of_commit hc hk ho).elim
    · obtain ⟨r, hr, -, goes⟩ := selects hh
      obtain ⟨run, pkt⟩ := goes.of_commit hc hk ho
      have searched : SearchedTo c Config.nRows := select rfl
      have ⟨key, _⟩ := searched
      refine exactAt_applies budget' rfl ?_ nofun
      unfold AppliesMatch
      rw [run, pkt, hk.snap]
      exact ⟨searched.rowMatches hr, _, key⟩
  | actCsum e =>
    obtain ⟨w, hg, rfl⟩ := Option.map_eq_some_iff.1 hw
    obtain ⟨addr, hf, names⟩ := invoke_of_decode hd
    rw [hf] at ho
    obtain ⟨run, pkt⟩ := (exec_invoke hc e addr).of_commit hc hk ho
    refine exactAt_applies budget' rfl ?_ fun e' he' => ?_
    · unfold AppliesMatch
      rw [run, pkt, hk.snap]
      exact applies rfl
    · cases he'
      refine names c' ?_ ?_
      · rw [hk.snap, pkt]; exact hg
      · rw [run]
  | eaDone => exact exactAt_head c'
  | _ => exact past rfl nofun nofun

/-- Every place of the search selects its operation: only past the search is a place passed over. -/
theorem appliesAt_of_decode_error {c : InstCfg} {idx : BitVec 8} {addr : BitVec 5} {sl : Slot} {ws : List W64}
    {e : DecodeError} (hw : slotWords c idx addr sl = some ws) (hd : decode (.micro sl) ws = .error e) :
    appliesAt sl = true := by
  cases sl with
  | winSample | tcamKey | tcamSelect => cases hw; cases hd
  | tcamMatch =>
    obtain ⟨_, -, rfl⟩ := Option.map_eq_some_iff.1 hw
    cases hd
  | _ => rfl

/-! ### The steps -/

/-- The parse of the parser that moved. -/
theorem inst_step_exactAt {s t : State} (hx : SearchExact s) {k : Nat} (ha : s.agent = .inst k)
    (hst : step s = .next t) {c' : Ctx} (hc' : t.ctxOf k = some c') : c'.ExactAt c'.run.phase := by
  obtain ⟨idle, rfl⟩ | ⟨c, hc, hctx, hcases⟩ := inst_step_cases ha hst
  · exact hx k c' hc'
  have exact_c : c.ExactAt c.run.phase := hx k c hc
  have own : c.k = k := ctxOf_k hc
  obtain ⟨hp, hb, rfl⟩ | ⟨-, -, rfl⟩ | ⟨sl, ws, e, hp, hw, hd, rfl⟩ | ⟨sl, ws, i, f, hp, hw, hd, hf, hfw, hgo⟩ :=
    hcases
  · cases hc'.symm.trans (ctxOf_afterInst_commit hc rfl rfl rfl rfl rfl rfl)
    have budget : c.snap.maxIter ≠ 0 := fun e => Nat.not_lt_zero _ (e ▸ hb)
    simp only [hp]
    exact exactAt_winSample budget
  · cases hc'.symm.trans (ctxOf_afterInst_release own)
  · cases hc'.symm.trans (ctxOf_movePhase hc Phase.skip)
    rw [hp] at exact_c ⊢
    have next : c.ExactAt (slotSkip sl) :=
      exactAt_slotSkip exact_c (appliesAt_of_decode_error hw hd) (within_self c).1 (.refl c)
    exact next
  obtain ⟨d, e, rfl⟩ | ⟨d, e, rfl⟩ := hgo <;> rw [e] at hfw
  · obtain ⟨hk, -, -⟩ := hfw
    cases hc'.symm.trans (ctxOf_afterInst_commit hc hk.k hk.pid hk.runPkt hk.snap hk.dir hk.params)
    rw [hp] at exact_c
    have ho : exec i s = .next (s.commit d) := by rw [hf, onParse_eq hctx, e]; rfl
    have next : d.ExactAt (slotNext sl) := exactAt_slotNext hctx exact_c hw hd hk ho
    rw [hk.phase, hp]
    exact next
  · cases hc'.symm.trans (ctxOf_afterInst_release (hfw.1.k.trans own))

/-- A parse that does not move is what it was, but for the PHVs. -/
theorem OnlyMoves.ctxOf_other {s t : State} {a : Agent} {p : Nat} (o : OnlyMoves s t a p) (h : MachineInv s)
    {j : Nat} {c : Ctx} (hj : a ≠ .inst j) (hc : t.ctxOf j = some c) :
    s.ctxOf j = some { c with phvs := s.phvs } := by
  obtain ⟨i, r, q, hi, hr, hq, rfl⟩ := ctxOf_eq_some.1 hc
  obtain ⟨hi', hp⟩ := o.other_parse h hj hi hr
  exact ctxOf_eq_some.2 ⟨i, r, q, hi', hr, hp ▸ hq, by rw [o.params]⟩

theorem SearchExact.instStep {s t : State} (hx : SearchExact s) (h : MachineInv s) {k : Nat}
    (ha : s.agent = .inst k) (hst : step s = .next t) : SearchExact t := by
  rw [searchExact_iff]
  intro j c' hc'
  by_cases hj : j = k
  · subst hj
    exact inst_step_exactAt hx ha hst hc'
  · obtain ⟨-, rfl⟩ | ⟨c, hc, hctx, -⟩ := inst_step_cases ha hst
    · exact hx j c' hc'
    · obtain ⟨u, touched, rfl⟩ := inst_step_touchesOnly hctx hst
      have moves := onlyMoves_of_sameButParse h hc (ctxOf_k hc ▸ touched.others)
      exact hx j { c' with phvs := s.phvs } (moves.ctxOf_other h (fun e => hj (Agent.inst.inj e).symm) hc')

/-- A parse that runs after a command of the host ran before it, or PARSE has just begun it. -/
theorem host_exec_run {s u : State} {i : Instr} (hm : ¬ Micro i) (he : exec i s = .next u) {k : Nat}
    {inst : Instance} {r : Run} (hi : u.insts[k]? = some inst) (hr : inst.run = some r) :
    r.phase = .head ∨ ∃ inst₀, s.insts[k]? = some inst₀ ∧ inst₀.run = some r := by
  obtain ⟨p, q, q', -, -, -, -, -, rfl⟩ | ⟨p, q, -, -, rfl⟩ | ⟨q, -, -, rfl⟩ |
    ⟨j, i₀, p, q, g, -, hj, -, -, -, -, -, -, -, rfl⟩ | ⟨j, i₀, mem, n, w0, w1, cfg, -, hj, -, rfl⟩ :=
    host_exec_cases hm he
  · exact .inr ⟨inst, hi, hr⟩
  · exact .inr ⟨inst, hi, hr⟩
  · exact .inr ⟨inst, hi, hr⟩
  · by_cases e : k = j
    · subst e
      cases (launch_inst hj p q).symm.trans hi
      cases hr
      exact .inl rfl
    · exact .inr ⟨inst, (launch_inst_other s e i₀ p q).symm.trans hi, hr⟩
  · rw [set_cfg_eq_withCfg hj, withCfg_get] at hi
    obtain ⟨inst₀, hi₀, rfl⟩ := Option.map_eq_some_iff.1 hi
    refine .inr ⟨inst₀, hi₀, ?_⟩
    split at hr <;> exact hr

/-- A parse in progress is after a step of the host what it was. -/
theorem KeepsParses.ctxOf {s t : State} (hk : KeepsParses s t) (h : MachineInv s) {k : Nat} {i : Instance}
    {r : Run} (hi : s.insts[k]? = some i) (hr : i.run = some r) :
    ∃ c, s.ctxOf k = some c ∧ t.ctxOf k = some c := by
  obtain ⟨params, phvs, packets, insts⟩ := hk
  obtain ⟨q, hq, ho, -⟩ := h.runs k i r hi hr
  obtain ⟨cfg, hi'⟩ := insts k i hi (hr ▸ nofun)
  refine ⟨_, ctxOf_eq_some.2 ⟨i, r, q, hi, hr, hq, rfl⟩, ctxOf_eq_some.2 ⟨_, r, q, hi', hr, ?_, ?_⟩⟩
  · exact packets _ q hq (ho ▸ nofun)
  · rw [params, phvs]

theorem SearchExact.hostStep {s t : State} (hx : SearchExact s) (h : MachineInv s) (ha : s.agent = .host)
    (hst : step s = .next t) : SearchExact t := by
  have keeps : KeepsParses s t := hostStepLeavesOwnedPacketsAlone s t ha hst fun p q hq => (h.packets p q hq).1
  rw [searchExact_iff]
  intro k c' hc'
  obtain ⟨inst, r, p, hi, hr, -, rfl⟩ := ctxOf_eq_some.1 hc'
  have ran : r.phase = .head ∨ ∃ inst₀, s.insts[k]? = some inst₀ ∧ inst₀.run = some r := by
    obtain ⟨-, rfl⟩ | ⟨m, rest, i, u, -, hd, he, rfl⟩ := host_step_cases ha hst
    · exact .inr ⟨inst, hi, hr⟩
    · exact host_exec_run (hostCommand_of_decode hd).2 he hi hr
  obtain begun | ⟨inst₀, hi₀, hr₀⟩ := ran
  · dsimp only
    rw [begun]
    exact exactAt_head _
  · obtain ⟨c, hc, hct⟩ := keeps.ctxOf h hi₀ hr₀
    cases hct.symm.trans hc'
    exact hx k _ hc

/-- Settles O20, by the agent on turn and by the place its step leads a parse to. -/
theorem stepKeepsSearchExact : Obligations.StepKeepsSearchExact := by
  intro s t h hx hst
  cases ha : s.agent with
  | host => exact hx.hostStep h ha hst
  | inst k => exact hx.instStep h ha hst

end Sys2Proof.Machine
end

section
/-! PROOF. Settles O4, O8 and O23 (the step at a place, the order of an iteration, the loop head; 41_pipeline_ea.md
R162, R163) and O26 and O28 to O33 (the EaRow micro-operations, R164 to R172). -/

namespace Sys2Proof.Machine

/-! ### The step of a parse -/

/-- Settles O4: the step is the instruction's execution and then `afterInst`, which a stop does not reach. -/
theorem stepRunsTheMicroOperationAtThePlace : Obligations.StepRunsTheMicroOperationAtThePlace := by
  intro s k c sl ws i ha hc hp hw hd
  have run : step s = andThen (exec i s) (afterInst k) := by
    rw [step_atSlot ha hc hp]
    simp only [slotStep, hw, hd]
  rw [run]
  refine ⟨fun t ht => ?_, fun e he => ?_, fun e he => ?_⟩
  · rw [ht]; rfl
  · rw [he]; rfl
  · rw [he]; rfl

theorem slotNext_tcamMatch {i : BitVec 8} (h : i.toNat < 255) :
    slotNext (.tcamMatch i) = .slot (.tcamMatch (i + 1)) := by
  have row : i ≠ 255#8 := fun e => absurd h (e ▸ Nat.lt_irrefl 255)
  simp only [slotNext, if_neg row]

theorem slotSkip_eq_slotNext {sl : Slot} (h : ∀ e, sl ≠ .actCsum e) : slotSkip sl = slotNext sl := by
  cases sl with
  | actCsum e => exact absurd rfl (h e)
  | _ => rfl

/-- Settles O8, place by place. -/
theorem iterationFollowsTheSevenSteps : Obligations.IterationFollowsTheSevenSteps :=
  ⟨rfl, rfl, rfl, fun _ => slotNext_tcamMatch, rfl, rfl, rfl, rfl, rfl, rfl, rfl, rfl, rfl, rfl, rfl, rfl, rfl, rfl,
    rfl, rfl, rfl, rfl, rfl, rfl, rfl, rfl, fun _ => ⟨rfl, rfl, rfl, rfl⟩, rfl, rfl, rfl, rfl,
    fun _ => slotSkip_eq_slotNext, fun _ => ⟨rfl, rfl⟩, rfl, rfl⟩

theorem step_atHead {s : State} {c : Ctx} (hc : s.ctx = some c) (hp : c.run.phase = .head) :
    step s = andThen (loopHead s) (afterInst c.k) := by
  obtain ⟨ha, hk⟩ := ctx_eq_some.1 hc
  simp only [step, ha, instStep, hk, hp]

/-- Settles O23, by the budget check. -/
theorem loopHeadChecksTheBudget : Obligations.LoopHeadChecksTheBudget := by
  intro s c hc hp
  refine ⟨fun h => ?_, fun h => ?_, step_atHead hc hp⟩
  · exact goesOn_of_go hc (if_neg (Nat.not_le.2 h)) rfl rfl rfl rfl rfl
  · exact ends_of_raise hc (if_pos h) rfl rfl rfl rfl

/-! ### EA.SHIFT -/

/-- Settles O26: the operand is not reserved, so the bound decides. -/
theorem eaShiftAdvancesTheCursorOrFaults : Obligations.EaShiftAdvancesTheCursorOrFaults := by
  intro s c amt hc hamt
  have defined : ¬ amt.toNat > Config.wBytes := Nat.not_lt.2 hamt
  by_cases h : amt.toNat ≤ c.avail
  · refine (if_pos h).mpr (goesOn_of_go hc ((if_neg defined).trans (if_neg (Nat.not_lt.2 h))) rfl rfl rfl rfl rfl)
  · refine (if_neg h).mpr (ends_of_raise hc ((if_neg defined).trans (if_pos (Nat.not_le.1 h))) rfl rfl rfl rfl)

/-! ### Operations that write one parse register -/

section
variable {s : State} {c : Ctx} (hc : s.ctx = some c)
include hc

/-- A micro-operation that only writes the parse registers. -/
theorem goesOn_setPs (g : Ctx → ParseRegs) :
    GoesOn s c (onParse s fun c => .go (c.setPs (g c))) c.run { c.pkt with ps := g c } :=
  goesOn_of_go_all (fun c => c.setPs (g c)) hc rfl rfl rfl rfl rfl

theorem exec_eaCtrAdd_add (amt : BitVec 8) (h : s.params.ctrNoload = .add) :
    GoesOn s c (exec (.eaCtrAdd amt) s) c.run
      { c.pkt with ps := { c.pkt.ps with ctr := c.pkt.ps.ctr + amt } } := by
  refine goesOn_of_go (c' := c.setPs { c.pkt.ps with ctr := c.pkt.ps.ctr + amt }) hc ?_ rfl rfl rfl rfl rfl
  simp only [ctx_params hc, h]

theorem exec_eaCtrAdd_hold (amt : BitVec 8) (h : s.params.ctrNoload = .hold) :
    GoesOn s c (exec (.eaCtrAdd amt) s) c.run c.pkt := by
  refine goesOn_of_go (c' := c) hc ?_ rfl rfl rfl rfl rfl
  simp only [ctx_params hc, h]

end

/-- Settles O28, by the mode of the counter. -/
theorem counterStepsOrReloads : Obligations.CounterStepsOrReloads := fun _ _ amt hc =>
  ⟨exec_eaCtrAdd_add hc amt, exec_eaCtrAdd_hold hc amt, goesOn_setPs hc fun c => { c.pkt.ps with ctr := amt }⟩

/-- Settles O29: `CtrSrc1` is applied to the window as one value. -/
theorem counterReloadsFromTheOpenSource : Obligations.CounterReloadsFromTheOpenSource := fun _ _ idx hc =>
  goesOn_setPs hc fun c => { c.pkt.ps with ctr := Config.ctrSrc1 idx c.pkt.ps.win.bits }

/-- Settles O31: three operations, each with its own register. -/
theorem armLoadsOneOffset : Obligations.ArmLoadsOneOffset := fun _ _ off hc =>
  ⟨goesOn_setPs hc fun c => { c.pkt.ps with off16 := off }, goesOn_setPs hc fun c => { c.pkt.ps with off8_0 := off },
    goesOn_setPs hc fun c => { c.pkt.ps with off8_1 := off }⟩

/-- Settles O32. -/
theorem bufreqRecordsTheRequest : Obligations.BufreqRecordsTheRequest := fun _ _ n hc =>
  goesOn_setPs hc fun c => { c.pkt.ps with bufreq := n }

/-- Settles O33, by the `done` bit. -/
theorem doneFinishesOrTakesTheNextState : Obligations.DoneFinishesOrTakesTheNextState := fun _ _ hc =>
  ⟨ends_of_raise hc (if_pos rfl) rfl rfl rfl rfl, rfl, goesOn_of_go hc (if_neg (by decide)) rfl rfl rfl rfl rfl⟩

/-! ### EA.NXT -/

section
variable {p : Config.Params} (st mask : BitVec 8) (win : Window) {b : Nat}

theorem mergeState_select (h : p.stateMerge = .select) (hb : b < 8) : (mergeState p st mask win).getLsbD b =
    if mask.getLsbD b then (win.byte p.stateWinSrc).getLsbD b else st.getLsbD b := by
  simp only [mergeState, h, BitVec.getLsbD_or, BitVec.getLsbD_and, BitVec.getLsbD_not, hb, decide_true,
    Bool.true_and]
  cases mask.getLsbD b <;> simp

theorem mergeState_or (h : p.stateMerge = .or) : (mergeState p st mask win).getLsbD b =
    (st.getLsbD b || ((win.byte p.stateWinSrc).getLsbD b && mask.getLsbD b)) := by
  simp only [mergeState, h, BitVec.getLsbD_or, BitVec.getLsbD_and]

theorem mergeState_zero_mask (p : Config.Params) : mergeState p st 0 win = st := by
  refine BitVec.eq_of_getLsbD_eq fun b hb => ?_
  cases h : p.stateMerge with
  | select => rw [mergeState_select st 0 win h hb]; simp
  | or => rw [mergeState_or st 0 win h]; simp

end

/-- Settles O30: the merge bit by bit, under each `STATE_MERGE`. -/
theorem nextStateMergesWindowBits : Obligations.NextStateMergesWindowBits := by
  intro s c st mask hc w
  have source : c.pkt.ps.win.byte s.params.stateWinSrc = w := by
    dsimp only [w]
    cases s.params.stateWinSrc <;> rfl
  have goes := goesOn_setPs hc fun c => { c.pkt.ps with nxt := mergeState c.params st mask c.pkt.ps.win }
  rw [ctx_params hc] at goes
  refine ⟨mergeState s.params st mask c.pkt.ps.win, goes, fun b hb => ⟨fun h => ?_, fun h => ?_⟩, ?_⟩
  · exact source ▸ mergeState_select st mask _ h hb
  · exact source ▸ mergeState_or st mask _ h
  · rintro rfl
    exact mergeState_zero_mask st _ s.params

end Sys2Proof.Machine
end

section
/-! PROOF. Settles O25: a parse in progress ends within its budget (41_pipeline_ea.md R162, R174), and an iteration
leads from loop head to loop head (70_reset_and_hazards.md R354). Both rest on what one step makes of a parse:
nothing is left of it, or it stands nearer to its end. -/

namespace Sys2Proof.Machine

/-! ### What a step of a parse answers -/

theorem apply_ne_fault (s : State) (f : Effect) (e : Fault) : f.apply s ≠ .fault e := by
  cases f <;> exact nofun

theorem andThen_ne_fault {o : Host.Outcome State Fault Refusal} (f : State → State) {e : Fault}
    (h : o ≠ .fault e) : andThen o f ≠ .fault e := by
  cases o with
  | fault e' => exact h
  | _ => exact nofun

section
variable {s : State} {c : Ctx} (hc : s.ctx = some c)
include hc

theorem onParse_ne_fault (f : Ctx → Effect) (e : Fault) : onParse s f ≠ .fault e := by
  rw [onParse_eq hc]
  exact apply_ne_fault s _ e

theorem parse_step_ne_fault (e : Fault) : step s ≠ .fault e := by
  obtain ⟨ha, hk⟩ := ctx_eq_some.1 hc
  cases hp : c.run.phase with
  | head =>
    rw [step_atHead hc hp]
    exact andThen_ne_fault _ (onParse_ne_fault hc _ e)
  | slot sl =>
    rw [step_atSlot ha hk hp]
    unfold slotStep
    split
    · exact nofun
    · split
      · exact nofun
      · rename_i hd
        obtain ⟨f, hf, -⟩ := exec_micro (micro_of_decodeSlot hd)
        rw [hf]
        exact andThen_ne_fault _ (onParse_ne_fault hc f e)

theorem parse_step_refused {r : Refusal} (h : step s = .refused r) : ¬ (MachineInv s ∧ SearchExact s) := by
  rintro ⟨hi, hx⟩
  obtain ⟨t, ht⟩ := inst_step_answers hi hx hc
  exact nomatch h.symm.trans ht

theorem parse_step_turns {t : State} (h : step s = .next t) : t.turns = s.turns.tail := by
  obtain ⟨u, touched, rfl⟩ := inst_step_touchesOnly hc h
  exact congrArg List.tail touched.others.turns

end

/-! ### How a step advances a parse -/

/-- `c'` is the parse `c` a step later: it has begun an iteration (41_pipeline_ea.md R162), or it stands nearer to
the end of the present one. -/
structure Ctx.Advances (c c' : Ctx) : Prop where
  snap     : c'.snap = c.snap
  progress : (c.run.phase = .head ∧ c.pkt.ps.iter.toNat < c.snap.maxIter.toNat ∧
      c'.run.phase = .slot .winSample ∧ c'.pkt.ps.iter = c.pkt.ps.iter + 1) ∨
    (c'.pkt.ps.iter = c.pkt.ps.iter ∧ phaseRank c'.run.phase < phaseRank c.run.phase)

theorem parse_step_advances {s t : State} {c c' : Ctx} (hc : s.ctx = some c) (h : step s = .next t)
    (hc' : t.ctxOf c.k = some c') : c.Advances c' := by
  obtain ⟨ha, hk⟩ := ctx_eq_some.1 hc
  obtain ⟨idle, -⟩ | ⟨c₁, -, hc₁, hcases⟩ := inst_step_cases ha h
  · exact nomatch hk.symm.trans idle
  cases hc.symm.trans hc₁
  obtain ⟨hp, hb, rfl⟩ | ⟨-, -, rfl⟩ | ⟨sl, ws, e, hp, -, -, rfl⟩ | ⟨sl, ws, i, f, hp, -, -, -, hf, hgo⟩ := hcases
  · cases hc'.symm.trans (ctxOf_afterInst_commit hk rfl rfl rfl rfl rfl rfl)
    exact ⟨rfl, .inl ⟨hp, hb, congrArg Phase.next hp, rfl⟩⟩
  · exact nomatch hc'.symm.trans (ctxOf_afterInst_release rfl)
  · cases hc'.symm.trans (ctxOf_movePhase hk Phase.skip)
    refine ⟨rfl, .inr ⟨rfl, ?_⟩⟩
    rw [hp]
    exact (phaseRank_lt sl).2
  obtain ⟨d, e, rfl⟩ | ⟨d, e, rfl⟩ := hgo <;> rw [e] at hf
  · obtain ⟨keeps, -, -⟩ := hf
    cases hc'.symm.trans
      (ctxOf_afterInst_commit hk keeps.k keeps.pid keeps.runPkt keeps.snap keeps.dir keeps.params)
    refine ⟨keeps.snap, .inr ⟨keeps.iter, ?_⟩⟩
    rw [keeps.phase, hp]
    exact (phaseRank_lt sl).1
  · exact nomatch hc'.symm.trans (ctxOf_afterInst_release hf.1.k)

theorem Ctx.Advances.measure_lt {c c' : Ctx} (h : c.Advances c') : c'.measure < c.measure := by
  obtain ⟨snap, ⟨hp, hb, hp', hi⟩ | ⟨hi, hr⟩⟩ := h
  · have budget := c.snap.maxIter.isLt
    have count : (c.pkt.ps.iter + 1).toNat = c.pkt.ps.iter.toNat + 1 := by bv_omega
    have begun : phaseRank c'.run.phase = 291 := congrArg phaseRank hp'
    simp only [Ctx.measure, snap, hi, count, begun]
    omega
  · simp only [Ctx.measure, snap, hi]
    omega

/-! ### A parse left to run -/

theorem busy_eq_findIdx_running (s : State) : s.busy = (s.insts.map fun i => i.run.isSome).findIdx? id := by
  rw [List.findIdx?_map]
  rfl

/-- With nothing scheduled, a parse that is still in progress is on turn again (20_memory.md R83): the parsers
that run are the same. -/
theorem parse_step_ctx {s t : State} {c c' : Ctx} (hc : s.ctx = some c) (hs : s.turns = [])
    (h : step s = .next t) (hc' : t.ctxOf c.k = some c') : t.ctx = some c' := by
  obtain ⟨ha, hk⟩ := ctx_eq_some.1 hc
  have turns : t.turns = [] := by rw [parse_step_turns hc h, hs]; rfl
  have running : t.insts.map (fun i => i.run.isSome) = s.insts.map fun i => i.run.isSome := by
    obtain ⟨u, touched, rfl⟩ := inst_step_touchesOnly hc h
    refine List.ext_getElem? fun j => ?_
    rw [List.getElem?_map, List.getElem?_map]
    by_cases e : j = c.k
    · subst e
      obtain ⟨i, r, -, hi, hr, -⟩ := ctxOf_eq_some.1 hk
      obtain ⟨i', r', -, hi', hr', -⟩ := ctxOf_eq_some.1 hc'
      simp only [hi, hi', hr, hr', Option.map_some, Option.isSome_some]
    · exact congrArg _ (touched.others.insts j e)
  have busy : t.busy = s.busy := by rw [busy_eq_findIdx_running, busy_eq_findIdx_running, running]
  have agent : t.agent = s.agent := by simp only [State.agent, turns, hs, busy]
  have own := ctxOf_k hc'
  exact ctx_eq_some.2 ⟨by rw [agent, ha, own], own.symm ▸ hc'⟩

/-- The outcome of a run from `s` that left the parse of parser `k` to itself: the parse is over, or it was
refused in a state the invariants rule out. -/
def ParseIsOver (s : State) (k : Nat) : Host.Outcome State Fault Refusal → Prop
  | .next t => t.ctxOf k = none
  | .fault _ => False
  | .refused _ => ¬ (MachineInv s ∧ SearchExact s)

theorem ParseIsOver.of_step {s t : State} {k : Nat} {o : Host.Outcome State Fault Refusal}
    (h : ParseIsOver t k o) (hst : step s = .next t) : ParseIsOver s k o := by
  cases o with
  | refused r =>
    exact fun ⟨hi, hx⟩ => h ⟨stepKeepsInvariant s t hi hst, stepKeepsSearchExact s t hi hx hst⟩
  | _ => exact h

theorem core_run_succ {s t : State} (h : step s = .next t) (n : Nat) :
    Sys2Proof.core.run (n + 1) s = Sys2Proof.core.run n t := by
  have h' : Sys2Proof.core.step s = .next t := h
  simp only [Host.Core.run, h']

theorem core_run_refused {s : State} {r : Refusal} (h : step s = .refused r) :
    Sys2Proof.core.run 1 s = .refused r := by
  have h' : Sys2Proof.core.step s = .refused r := h
  simp only [Host.Core.run, h']

/-- By induction on the measure: a step ends the parse, is refused, or leaves a smaller measure. -/
theorem parse_is_over_within {s : State} {c : Ctx} (hc : s.ctx = some c) (hs : s.turns = []) :
    ∃ n ≤ c.measure + 1, ParseIsOver s c.k (Sys2Proof.core.run n s) := by
  induction hm : c.measure using Nat.strongRecOn generalizing s c with
  | ind m ih =>
    cases hst : step s with
    | fault e => exact absurd hst (parse_step_ne_fault hc e)
    | refused r =>
      refine ⟨1, Nat.le_add_left 1 m, ?_⟩
      rw [core_run_refused hst]
      exact parse_step_refused hc hst
    | next t =>
      cases hc' : t.ctxOf c.k with
      | none =>
        refine ⟨1, Nat.le_add_left 1 m, ?_⟩
        rw [core_run_succ hst]
        exact hc'
      | some c' =>
        have smaller : c'.measure < m := hm ▸ (parse_step_advances hc hst hc').measure_lt
        have turns : t.turns = [] := by rw [parse_step_turns hc hst, hs]; rfl
        obtain ⟨n, hn, ended⟩ := ih c'.measure smaller (parse_step_ctx hc hs hst hc') turns rfl
        refine ⟨n + 1, by omega, ?_⟩
        rw [core_run_succ hst]
        exact (ctxOf_k hc' ▸ ended).of_step hst

/-! ### One iteration as one step -/

theorem phaseRank_eq_zero {ph : Phase} (h : phaseRank ph ≤ 0) : ph = .head := by
  cases ph with
  | head => rfl
  | slot sl => exact absurd h (Nat.not_le.2 (Nat.zero_lt_of_lt (phaseRank_lt sl).1))

/-- Parser `k` keeps the turn. -/
def State.keepTurn (t : State) (k : Nat) : State := { t with turns := .inst k :: t.turns }

theorem keepTurn_ctx {t : State} {k : Nat} {d : Ctx} (h : t.ctxOf k = some d) : (t.keepTurn k).ctx = some d := h

theorem MachineInv.keepTurn {t : State} (h : MachineInv t) (k : Nat) : MachineInv (t.keepTurn k) :=
  ⟨h.canonical, h.packets, h.runs, h.owners, h.phvsApart⟩

theorem midIteration_eq_true {t : State} {k : Nat} (h : t.midIteration k = true) :
    ∃ d, t.ctxOf k = some d ∧ d.run.phase ≠ .head := by
  unfold State.midIteration at h
  split at h
  · cases h
  · exact ⟨_, ‹_›, ne_of_beq_false (Bool.not_eq_true' _ ▸ h)⟩

/-- The parse of parser `k`, if it is still in progress, is in iteration `i` at most `n` places from its end. -/
def InIteration (t : State) (k : Nat) (i : BitVec 16) (n : Nat) : Prop :=
  ∀ d, t.ctxOf k = some d → d.pkt.ps.iter = i ∧ phaseRank d.run.phase ≤ n

/-- The outcome `o`, from `s`, of what is left of iteration `i`: no fault; with the turns `ts` left the parse is at
the loop head, if it is still in progress; and no refusal under the invariants. -/
structure CompletesIteration (s : State) (k : Nat) (i : BitVec 16) (ts : List Agent)
    (o : Host.Outcome State Fault Refusal) : Prop where
  ne_fault : ∀ e, o ≠ .fault e
  next     : ∀ u, o = .next u → u.turns = ts ∧ InIteration u k i 0
  answers  : MachineInv s → SearchExact s → ∃ u, o = .next u

/-- A parse's step before what is left of an iteration. -/
theorem CompletesIteration.of_step {s t : State} {k : Nat} {i : BitVec 16} {ts : List Agent}
    {o : Host.Outcome State Fault Refusal} (h : CompletesIteration t k i ts o) (hst : step s = .next t) :
    CompletesIteration s k i ts o :=
  ⟨h.ne_fault, h.next, fun hi hx =>
    h.answers (stepKeepsInvariant s t hi hst) (stepKeepsSearchExact s t hi hx hst)⟩

theorem completesIteration_of_refused {s : State} {c : Ctx} {i : BitVec 16} {ts : List Agent} {r : Refusal}
    (hc : s.ctx = some c) (hst : step s = .refused r) : CompletesIteration s c.k i ts (.refused r) :=
  ⟨nofun, nofun, fun hi hx => absurd ⟨hi, hx⟩ (parse_step_refused hc hst)⟩

/-- Who has the turn does not enter the invariants. -/
theorem CompletesIteration.of_keepTurn {t : State} {j k : Nat} {i : BitVec 16} {ts : List Agent}
    {o : Host.Outcome State Fault Refusal} (h : CompletesIteration (t.keepTurn j) k i ts o) :
    CompletesIteration t k i ts o :=
  ⟨h.ne_fault, h.next, fun hi hx => h.answers (hi.keepTurn j) hx⟩

theorem inIteration_of_step {s t : State} {c : Ctx} {n : Nat} (hc : s.ctx = some c)
    (h : phaseRank c.run.phase ≤ n + 1) (hp : c.run.phase ≠ .head) (hst : step s = .next t) :
    InIteration t c.k c.pkt.ps.iter n := by
  intro d hd
  obtain ⟨-, ⟨head, -⟩ | ⟨iter, nearer⟩⟩ := parse_step_advances hc hst hd
  · exact absurd head hp
  · exact ⟨iter, by omega⟩

theorem restOfIteration_completes {k : Nat} {i : BitVec 16} {n : Nat} {t : State} (h : InIteration t k i n) :
    CompletesIteration t k i t.turns (restOfIteration k n t) := by
  induction n generalizing t with
  | zero => exact ⟨nofun, fun u hu => by cases hu; exact ⟨rfl, h⟩, fun _ _ => ⟨t, rfl⟩⟩
  | succ n ih =>
    unfold restOfIteration
    split
    next mid =>
      obtain ⟨d, hd, hp⟩ := midIteration_eq_true mid
      obtain ⟨rfl, rank⟩ := h d hd
      obtain rfl := ctxOf_k hd
      have hc : (t.keepTurn d.k).ctx = some d := keepTurn_ctx hd
      refine CompletesIteration.of_keepTurn (j := d.k) ?_
      split
      next u hst =>
        have turns : u.turns = t.turns := parse_step_turns hc hst
        exact turns ▸ (ih (inIteration_of_step hc rank hp hst)).of_step hst
      next e hst => exact absurd hst (parse_step_ne_fault hc e)
      next r hst => exact completesIteration_of_refused hc hst
    next mid =>
      refine ⟨nofun, fun u hu => ?_, fun _ _ => ⟨t, rfl⟩⟩
      cases hu
      refine ⟨rfl, fun d hd => ⟨(h d hd).1, ?_⟩⟩
      have head : d.run.phase = .head := by simpa [State.midIteration, hd] using mid
      rw [head]
      exact Nat.le_refl 0

/-- The step that begins an iteration leaves the parse, if it does not end it, at the first of its places. -/
theorem inIteration_of_begin {s t : State} {c : Ctx} (hc : s.ctx = some c) (hp : c.run.phase = .head)
    (hst : step s = .next t) : InIteration t c.k (c.pkt.ps.iter + 1) 291 := by
  intro d hd
  obtain ⟨-, ⟨-, -, first, iter⟩ | ⟨-, nearer⟩⟩ := parse_step_advances hc hst hd
  · exact ⟨iter, (congrArg phaseRank first).le⟩
  · rw [hp] at nearer
    exact absurd nearer (Nat.not_lt_zero _)

theorem iterStep_completes {s : State} {c : Ctx} (hc : s.ctx = some c) (hp : c.run.phase = .head) :
    CompletesIteration s c.k (c.pkt.ps.iter + 1) s.turns.tail (iterStep s) := by
  obtain ⟨ha, -⟩ := ctx_eq_some.1 hc
  simp only [iterStep, ha]
  split
  next t hst =>
    rw [← parse_step_turns hc hst]
    exact (restOfIteration_completes (inIteration_of_begin hc hp hst)).of_step hst
  next e hst => exact absurd hst (parse_step_ne_fault hc e)
  next r hst => exact completesIteration_of_refused hc hst

/-- Settles O25: the measure bounds a run, and the places left bound an iteration. -/
theorem parseTerminatesWithinItsBudget : Obligations.ParseTerminatesWithinItsBudget := by
  refine fun s c hc => ⟨fun hs => parse_is_over_within hc hs, fun hp => ?_⟩
  obtain ⟨ne_fault, next, answers⟩ := iterStep_completes hc hp
  refine ⟨fun t ht => ?_, ne_fault, answers⟩
  obtain ⟨turns, inIteration⟩ := next t ht
  refine ⟨turns, ?_⟩
  cases hd : t.ctxOf c.k with
  | none => exact .inl rfl
  | some d =>
    obtain ⟨iter, rank⟩ := inIteration d hd
    exact .inr ⟨d, rfl, phaseRank_eq_zero rank, iter⟩

end Sys2Proof.Machine
end

section
/-! PROOF. Settles O34 to O37 and O39: the header field extractor (42_extract.md R201 to R210). A lane of each width is
one `extract`, so the source check and the write are shown once, for every width. -/

namespace Sys2Proof.Machine

/-! ### ACT.DOFF -/

/-- Settles O34: the carried value and the register are written in one effect. -/
theorem doffResetsUsesThenIncrements : Obligations.DoffResetsUsesThenIncrements := fun _ _ _ _ hc =>
  goesOn_of_go hc rfl rfl rfl rfl rfl rfl

/-! ### The lanes -/

section
variable {s : State} {c : Ctx} {n : Nat} {val : Ctx → Nat → PhvVal} {l : Lane}

/-- Each source byte lies in the window (R203), so the lane writes (R204, R205). -/
theorem extract_inside {h : Nat} (inside : srcEff l c.run.doffEff + n ≤ c.avail)
    (hv : (c.pkt.view c.dir).phv = some h) : extract n val l c =
      .go { c with phvs := phvWrite c.phvs h (dstEff l c.run.doffEff) (val c (srcEff l c.run.doffEff)) } := by
  simp only [extract, if_neg (Nat.not_lt.2 inside), hv]

/-- The check comes before the handle is looked at (R203). -/
theorem extract_outside (outside : ¬ srcEff l c.run.doffEff + n ≤ c.avail) :
    extract n val l c = raise c .outOfBoundsRead :=
  if_pos (Nat.not_le.1 outside)

theorem lane_writes_or_faults {h : Nat} (hc : s.ctx = some c) (hv : (c.pkt.view c.dir).phv = some h) :
    if srcEff l c.run.doffEff + n ≤ c.avail then
      WritesPhv s c (onParse s (extract n val l)) h (dstEff l c.run.doffEff) (val c (srcEff l c.run.doffEff))
    else Ends s c (onParse s (extract n val l)) .outOfBoundsRead c.pkt := by
  split
  next inside => exact writesPhv_of_go hc (extract_inside inside hv)
  next outside => exact ends_of_raise hc (extract_outside outside) rfl rfl rfl rfl

end

/-- Settles O35: the four operations are one lane of 4 bytes. -/
theorem thirtyTwoBitLanesExtractOrFault : Obligations.ThirtyTwoBitLanesExtractOrFault := by
  intro s c l h hc hv i hi
  rw [exec_ex32 s l i hi]
  exact lane_writes_or_faults hc hv

/-- Settles O36: the four operations are one lane of 2 bytes. -/
theorem sixteenBitLanesExtractOrFault : Obligations.SixteenBitLanesExtractOrFault := by
  intro s c l h hc hv i hi
  rw [exec_ex16 s l i hi]
  exact lane_writes_or_faults hc hv

/-- Settles O37: the four operations are one lane of 1 byte. -/
theorem eightBitLanesExtractOrFault : Obligations.EightBitLanesExtractOrFault := by
  intro s c l h hc hv i hi
  rw [exec_ex8 s l i hi]
  exact lane_writes_or_faults hc hv

/-! ### The dispatch of the checksum engines -/

/-- Settles O39: both operations are `invoke`, each of its own engine. -/
theorem csumDispatchPassesTheRunningSum : Obligations.CsumDispatchPassesTheRunningSum := fun _ _ addr hc =>
  ⟨exec_invoke hc .e0 addr, exec_invoke hc .e1 addr⟩

end Sys2Proof.Machine
end

section
/-! PROOF. Settles O40 to O43 and O45: the checksum accumulator (43_checksum.md R231 to R235), one operation after the
other within an invocation (log 3), and an accumulation in two invocations. -/

namespace Sys2Proof.Machine

/-! ### Accumulating in two invocations -/

/-- R231 at one position: the term of a selected byte joins the running sum. -/
def addSelected (sel : Nat → Bool) (term : Nat → BitVec 16) (s : BitVec 16) (k : Nat) : BitVec 16 :=
  if sel k then onesAdd s (term k) else s

theorem accumulate_eq_foldl (r : CsumLanes) (byte : Nat → Byte) (s : BitVec 16) : accumulate r byte s =
    (List.range 32).foldl (addSelected r.mask.getLsbD fun k => laneTerm r k (byte k)) (onesAdd s r.add) := rfl

section
variable {sel sel' : Nat → Bool} {term : Nat → BitVec 16} {k : Nat}

theorem addSelected_of_selected (h : sel k = true) (s : BitVec 16) : addSelected sel term s k = onesAdd s (term k) :=
  if_pos h

theorem addSelected_of_not_selected (h : sel k = false) (s : BitVec 16) : addSelected sel term s k = s :=
  if_neg (Bool.eq_false_iff.1 h)

theorem addSelected_onesAdd (s a : BitVec 16) :
    addSelected sel term (onesAdd s a) k = onesAdd (addSelected sel term s k) a := by
  cases h : sel k with
  | false => simp only [addSelected_of_not_selected h]
  | true => simp only [addSelected_of_selected h, onesAdd_assoc, onesAdd_comm a]

/-- What a running sum starts with may as well be added at its end. -/
theorem foldl_addSelected_onesAdd (ks : List Nat) (s a : BitVec 16) :
    ks.foldl (addSelected sel term) (onesAdd s a) = onesAdd (ks.foldl (addSelected sel term) s) a := by
  induction ks generalizing s with
  | nil => rfl
  | cons k ks ih => rw [List.foldl_cons, List.foldl_cons, addSelected_onesAdd, ih]

/-- The second pass may add its term of a position before the first pass goes on. -/
theorem addSelected_foldl_addSelected (ks : List Nat) (s : BitVec 16) :
    addSelected sel' term (ks.foldl (addSelected sel term) s) k =
      ks.foldl (addSelected sel term) (addSelected sel' term s k) := by
  cases h : sel' k with
  | false => simp only [addSelected_of_not_selected h]
  | true => simp only [addSelected_of_selected h, foldl_addSelected_onesAdd]

theorem addSelected_twice (disjoint : (sel k && sel' k) = false) (s : BitVec 16) :
    addSelected sel' term (addSelected sel term s k) k = addSelected (fun k => sel k || sel' k) term s k := by
  cases h : sel k with
  | false => simp only [addSelected, h, Bool.false_eq_true, if_false, Bool.false_or]
  | true =>
    have alone : sel' k = false := by rwa [h, Bool.true_and] at disjoint
    simp only [addSelected, h, alone, Bool.false_eq_true, if_false, Bool.true_or]

/-- Two passes over disjoint selections are one pass over both. -/
theorem foldl_addSelected_twice (disjoint : ∀ k, (sel k && sel' k) = false) (ks : List Nat) (s : BitVec 16) :
    ks.foldl (addSelected sel' term) (ks.foldl (addSelected sel term) s) =
      ks.foldl (addSelected (fun k => sel k || sel' k) term) s := by
  induction ks generalizing s with
  | nil => rfl
  | cons k ks ih =>
    simp only [List.foldl_cons]
    rw [addSelected_foldl_addSelected, ih, addSelected_twice (disjoint k)]

end

/-- Settles O45: the terms depend on `swap` and `shr` alone, and the second invocation adds nothing of its own. -/
theorem accumulationSplitsAcrossInvocations : Obligations.AccumulationSplitsAcrossInvocations := by
  intro m m' swap shr add s byte apart
  have disjoint : ∀ k, (m.getLsbD k && m'.getLsbD k) = false := fun k => by
    rw [← BitVec.getLsbD_and, apart]
    exact BitVec.getLsbD_zero
  have union : (m ||| m').getLsbD = fun k => m.getLsbD k || m'.getLsbD k := funext fun _ => BitVec.getLsbD_or
  simp only [accumulate_eq_foldl, union, BitVec.ofNat_eq_ofNat, onesAdd_zero]
  exact foldl_addSelected_twice disjoint _ _

/-! ### CSUM.START and CSUM.ACC -/

/-- Settles O40: only a carried value is written. -/
theorem csumStartBeginsFromZero : Obligations.CsumStartBeginsFromZero := fun _ _ _ hc =>
  goesOn_of_go hc rfl rfl rfl rfl rfl rfl

theorem lanesLegal_iff (r : CsumLanes) (avail : Nat) :
    lanesLegal r avail = true ↔ ∀ k < 32, r.mask.getLsbD k = true → k < avail := by
  simp [lanesLegal, Bool.or_eq_true, imp_iff_not_or]

/-- Settles O41, by the bound check, which comes before the sum is written. -/
theorem csumAccFoldsTheSelectedBytesOrFaults : Obligations.CsumAccFoldsTheSelectedBytesOrFaults := by
  intro s c e r hc
  refine ⟨fun inside => ?_, fun ⟨k, hk, selected, outside⟩ => ?_⟩
  · exact goesOn_of_go hc (if_pos ((lanesLegal_iff r c.avail).2 inside)) rfl rfl rfl rfl rfl
  · have illegal : ¬ lanesLegal r c.avail = true := fun h =>
      Nat.not_lt.2 outside ((lanesLegal_iff r c.avail).1 h k hk selected)
    exact ends_of_raise hc (if_neg illegal) rfl rfl rfl rfl

/-! ### CSUM.ZAO and CSUM.END -/

/-- Settles O42: each operation writes the registers of its engine in one effect. -/
theorem csumEndLatchesTheSum : Obligations.CsumEndLatchesTheSum := fun _ _ _ _ hc =>
  ⟨goesOn_of_go hc rfl rfl rfl rfl rfl rfl, goesOn_of_go hc rfl rfl rfl rfl rfl rfl⟩

@[simp] theorem csum_setCsum (r : ParseRegs) (e : Eng) (g : Csum) : (r.setCsum e g).csum e = g := by
  cases e <;> rfl

/-- The turn depends on the schedule and on which instances parse. -/
theorem agent_eq_of_running {s t : State} (turns : t.turns = s.turns)
    (running : ∀ j : Nat, (t.insts[j]?).map (fun i => i.run.isSome) = (s.insts[j]?).map fun i => i.run.isSome) :
    t.agent = s.agent := by
  have same : t.insts.map (fun i => i.run.isSome) = s.insts.map fun i => i.run.isSome :=
    List.ext_getElem? fun j => by rw [List.getElem?_map, List.getElem?_map, running]
  simp only [State.agent, turns, busy_eq_findIdx_running, same]

/-- A parse that goes on is still the parse in progress, with its packet and carried values as the operation left
them, so that the next operation can run on it. -/
theorem GoesOn.next_ctx {s : State} {c : Ctx} {o : Host.Outcome State Fault Refusal} {r : Run} {p : Packet}
    (h : GoesOn s c o r p) (hc : s.ctx = some c) (hr : r.pkt = c.run.pkt) :
    ∃ t, o = .next t ∧ t.ctx = some { c with run := r, pkt := p } := by
  obtain ⟨t, ht, same, phvs, run, packet⟩ := h
  obtain ⟨i, hi, parsing, dir, snap⟩ := ctx_inst hc
  obtain ⟨i', hi', run'⟩ := Option.map_eq_some_iff.1 run
  have static := same.static
  simp only [hi, hi', Option.map_some, Option.some.injEq, Prod.mk.injEq] at static
  obtain ⟨dir', -, snap'⟩ := static
  have turn : t.agent = s.agent := agent_eq_of_running same.turns fun j => by
    by_cases e : j = c.k
    · rw [e, hi, hi', Option.map_some, Option.map_some, run', parsing]; rfl
    · rw [same.insts j e]
  have pid : r.pkt = c.pid := hr.trans (ctx_packet hc).2
  refine ⟨t, ht, ctx_eq_some.2 ⟨turn.trans (ctx_eq_some.1 hc).1,
    ctxOf_eq_some.2 ⟨i', r, p, hi', run', pid ▸ packet, ?_⟩⟩⟩
  rw [pid, same.params, phvs, dir', snap', dir, snap, ctx_params hc, ctx_phvs hc]

/-- Settles O43: CSUM.END latches the sum as CSUM.ZAO left it. -/
theorem zerosAsOnesNeverLatchesZero : Obligations.ZerosAsOnesNeverLatchesZero := by
  intro s c e pos pos' hc
  obtain ⟨t, ht, hct⟩ := (csumEndLatchesTheSum s c e pos hc).2.next_ctx hc rfl
  obtain ⟨u, hu, -, -, -, latched⟩ := (csumEndLatchesTheSum t _ e pos' hct).1
  refine ⟨t, u, _, ht, hu, latched, ?_, ?_, ?_⟩
  · simp only [csum_setCsum]
    split
    next => decide
    next nonzero => exact nonzero
  · simp only [csum_setCsum]
  · simp only [csum_setCsum]

end Sys2Proof.Machine
end

section
/-! PROOF. Settles O46: the packet's priority, from an immediate or from a field of the match window
(44_priority.md R251, R252). -/

namespace Sys2Proof.Machine

/-- R252's sources as numbers; the two bytes of `lookup16` are its quotient and remainder by 256. -/
theorem byte_priSrc_toNat (win : Window) (src : BitVec 2) : (win.byte (priSrc src)).toNat =
    if src = 0 then win.lookup16.toNat / 256
    else if src = 1 then win.lookup16.toNat % 256
    else if src = 2 then win.lookup8_0.toNat
    else win.lookup8_1.toNat := by
  have high : (win.lookup16.extractLsb' 8 8).toNat = win.lookup16.toNat / 256 := by
    rw [BitVec.extractLsb'_toNat, Nat.shiftRight_eq_div_pow]
    omega
  simp only [priSrc, BitVec.ofNat_eq_ofNat]
  split
  next => exact high
  split
  next => exact BitVec.extractLsb'_toNat ..
  split <;> rfl

/-- R252: the shift comes before the mask. -/
theorem priField_eq_ofNat (win : Window) (src : BitVec 2) (shr mask : BitVec 3) : priField win src shr mask =
    BitVec.ofNat 3 ((win.byte (priSrc src)).toNat / 2 ^ shr.toNat) &&& mask := by
  rw [← Nat.shiftRight_eq_div_pow, ← BitVec.toNat_ushiftRight]
  rfl

/-- Settles O46: each operation writes the packet's priority alone, ACT.PRI.FLD the value of R252. -/
theorem priorityFromImmediateOrWindow : Obligations.PriorityFromImmediateOrWindow := by
  intro s c v src shr mask hc
  rw [← byte_priSrc_toNat, ← priField_eq_ofNat]
  exact ⟨goesOn_of_go hc rfl rfl rfl rfl rfl rfl, goesOn_of_go hc rfl rfl rfl rfl rfl rfl⟩

end Sys2Proof.Machine
end

section
/-! PROOF. Settles O54 and O47 to O53: the packet identifier, and what each packet command makes of the packet it
names (45_packet.md R260 to R271). -/

namespace Sys2Proof.Machine

/-! ### The packet identifier -/

theorem mcCpy_eq_append (id32 : BitVec 32) (pipe : BitVec 4) (copy : BitVec 16) :
    mcCpy id32 pipe copy = 3#4 ++ 0#8 ++ pipe ++ copy ++ id32 := rfl

theorem mirrCpy_eq_append (id32 : BitVec 32) (pipe : BitVec 4) (copy : BitVec 16) :
    mirrCpy id32 pipe copy = 1#4 ++ 0#8 ++ pipe ++ copy ++ id32 := rfl

/-- R266 sets the C2C flag, bit 59, beside the fields of R264. -/
theorem mcC2c_eq_append (id32 : BitVec 32) (pipe : BitVec 4) (copy : BitVec 16) :
    mcC2c id32 pipe copy = 3#4 ++ 1#1 ++ 0#7 ++ pipe ++ copy ++ id32 := by
  have flag : 1#64 <<< 59 = 0#4 ++ 1#1 ++ 0#7 ++ 0#4 ++ 0#16 ++ 0#32 := by decide
  have high : (3#4 ++ 0#8 ||| 0#4 ++ 1#1 ++ 0#7 : BitVec 12) = 3#4 ++ 1#1 ++ 0#7 := by decide
  rw [mcC2c, flag, mcCpy_eq_append, BitVec.or_append, BitVec.or_append, BitVec.or_append, high, BitVec.or_zero,
    BitVec.or_zero, BitVec.or_zero]

section
variable (high : BitVec 12) (pipe : BitVec 4) (copy : BitVec 16) (id32 : BitVec 32)

theorem idBase_append : idBase (high ++ pipe ++ copy ++ id32) = id32 := BitVec.extractLsb'_append_eq_right

theorem idCopy_append : idCopy (high ++ pipe ++ copy ++ id32) = copy := by
  rw [idCopy, extract_append_high _ _ _ (by decide), extract_append_low _ _ _ (by decide), extract_all]

theorem idPipe_append : idPipe (high ++ pipe ++ copy ++ id32) = pipe := by
  rw [idPipe, extract_append_high _ _ _ (by decide), extract_append_high _ _ _ (by decide),
    extract_append_low _ _ _ (by decide), extract_all]

theorem idC2c_append : idC2c (high ++ pipe ++ copy ++ id32) = high.extractLsb' 7 1 := by
  rw [idC2c, extract_append_high _ _ _ (by decide), extract_append_high _ _ _ (by decide),
    extract_append_high _ _ _ (by decide)]

theorem idType_append : idType (high ++ pipe ++ copy ++ id32) = high.extractLsb' 8 4 := by
  rw [idType, extract_append_high _ _ _ (by decide), extract_append_high _ _ _ (by decide),
    extract_append_high _ _ _ (by decide)]

end

theorem idBase_cloneId (kind : CloneKind) (base : BitVec 32) (pipe : BitVec 4) (copy : BitVec 16) :
    idBase (cloneId kind base pipe copy) = base := by
  cases kind with
  | mc => exact idBase_append _ _ _ _
  | mirror => exact idBase_append _ _ _ _
  | mcC2c => rw [cloneId, mcC2c_eq_append, idBase_append]

theorem setBase_getLsbD (x : BitVec 64) (id32 : BitVec 32) {i : Nat} (inside : i < 64) :
    (setBase x id32).getLsbD i = if i < 32 then id32.getLsbD i else x.getLsbD i := by
  rw [setBase, BitVec.getLsbD_append]
  split
  next => rfl
  next high =>
    rw [BitVec.getLsbD_extractLsb', Nat.add_sub_cancel' (Nat.le_of_not_lt high), decide_eq_true (by omega),
      Bool.true_and]

theorem setType_getLsbD (x : BitVec 64) (t4 : BitVec 4) (i : Nat) :
    (setType x t4).getLsbD i = if i < 60 then x.getLsbD i else t4.getLsbD (i - 60) := by
  rw [setType, BitVec.getLsbD_append]
  split
  next low => rw [BitVec.getLsbD_extractLsb', decide_eq_true low, Bool.true_and, Nat.zero_add]
  next => rfl

theorem idBase_setType (x : BitVec 64) (t4 : BitVec 4) : idBase (setType x t4) = idBase x := by
  apply BitVec.eq_of_getLsbD_eq
  intro i hi
  rw [idBase, idBase, BitVec.getLsbD_extractLsb', BitVec.getLsbD_extractLsb', setType_getLsbD, if_pos (by omega)]

/-- R271: the base and the type are apart. -/
theorem setBase_setType (x : BitVec 64) (id32 : BitVec 32) (t4 : BitVec 4) :
    setBase (setType x t4) id32 = setType (setBase x id32) t4 := by
  apply BitVec.eq_of_getLsbD_eq
  intro i hi
  simp only [setBase_getLsbD _ _ hi, setType_getLsbD]
  by_cases base : i < 32
  · rw [if_pos base, if_pos base, if_pos (by omega)]
  · rw [if_neg base, if_neg base]

theorem setBase_setBase (x : BitVec 64) (id' id32 : BitVec 32) :
    setBase (setBase x id') id32 = setBase x id32 :=
  congrArg (· ++ id32) BitVec.extractLsb'_append_eq_left

theorem setType_setType (x : BitVec 64) (t' t4 : BitVec 4) : setType (setType x t') t4 = setType x t4 :=
  congrArg (t4 ++ ·) BitVec.extractLsb'_append_eq_right

/-! ### PKT.CREATE and PKT.CLONE -/

theorem normalId_eq_append (id32 : BitVec 32) : normalId id32 = 0#32 ++ id32 := rfl

/-- The packet a clone of `p` is (45_packet.md R261); `n` is `N_QCTR`. -/
def Packet.clone (p : Packet) (id : BitVec 64) (carry : BitVec 1) (n : Nat) : Packet :=
  if carry = 1#1 then { p with pktId := id } else Packet.fresh p.bytes id n

theorem clone_pktId (p : Packet) (id : BitVec 64) (carry : BitVec 1) (n : Nat) : (p.clone id carry n).pktId = id := by
  unfold Packet.clone
  split <;> rfl

theorem creates_clone {s : State} {src : Nat} {p : Packet} (hp : s.hostPacket src = some p) (kind : CloneKind)
    (pipe : BitVec 4) (copy : BitVec 16) (carry : BitVec 1) :
    Creates s (exec (.pktClone src kind pipe copy carry) s)
      (p.clone (cloneId kind (idBase p.pktId) pipe copy) carry s.params.nQctr) := by
  simp only [exec, execPktClone, hp]
  exact creates_addPacket s _

/-- Settles O54: every step of a chain keeps the low 32 bits of the id, and a copy encoder's id is its fields
side by side. -/
theorem lineageIsKept : Obligations.LineageIsKept := by
  intro x id32 id' t4 t' pipe copy
  refine ⟨fun s src p kind carry hp ho => ?_, fun chain => ?_, idBase_cloneId .mc .., idBase_cloneId .mirror ..,
    idBase_cloneId .mcC2c .., idBase_setType x t4, ?_, ?_, ?_, ?_, ?_, ?_, ?_, setBase_setType x id32 t4,
    setBase_setBase x id' id32, setType_setType x t' t4⟩
  · obtain ⟨t, ht, -, -, hq⟩ := creates_clone (hostPacket_eq_some.2 ⟨hp, ho⟩) kind pipe copy carry
    refine ⟨t, _, ht, hq, clone_pktId .., ?_⟩
    rw [clone_pktId, idBase_cloneId]
  · refine List.foldlRecOn chain _ (motive := fun y => idBase y = idBase x) rfl fun y hy o _ => ?_
    rw [← hy]
    cases o with
    | inl t => exact idBase_setType y t
    | inr clone => exact idBase_cloneId ..
  · rw [mcCpy_eq_append, idType_append]; decide
  · rw [mirrCpy_eq_append, idType_append]; decide
  · rw [mcC2c_eq_append, idType_append]; decide
  · rw [mcC2c_eq_append, idC2c_append]; decide
  · rw [mcCpy_eq_append, idC2c_append]; decide
  · rw [mirrCpy_eq_append, idC2c_append]; decide
  · rw [mcCpy_eq_append, mirrCpy_eq_append, mcC2c_eq_append]
    simp only [List.forall_mem_cons]
    exact ⟨⟨idPipe_append .., idCopy_append ..⟩, ⟨idPipe_append .., idCopy_append ..⟩,
      ⟨idPipe_append .., idCopy_append ..⟩, nofun⟩

/-- Settles O47: PKT.CREATE adds `Packet.fresh`. -/
theorem createMakesAFreshNormalPacket : Obligations.CreateMakesAFreshNormalPacket := by
  intro s bytes id32
  rw [← normalId_eq_append]
  exact creates_addPacket s (Packet.fresh bytes (normalId id32) s.params.nQctr)

/-- Settles O48, by both values of `carry` in `Packet.clone`. -/
theorem cloneMakesAFreshIdentity : Obligations.CloneMakesAFreshIdentity := by
  intro s src p kind pipe copy hp ho
  have clones := creates_clone (hostPacket_eq_some.2 ⟨hp, ho⟩) kind pipe copy
  exact ⟨clones 1, clones 0⟩

/-! ### Commands on one packet -/

theorem onPacket_eq_next {s : State} {p : Nat} {q : Packet} (hq : s.hostPacket p = some q) (f : Packet → Packet) :
    onPacket s p f = .next { s with packets := s.packets.set p (f q) } := by
  simp only [onPacket, hq]

/-- A command on one packet, done twice, is as done once when its change to the packet is. -/
theorem onPacket_again {s : State} {p : Nat} {q : Packet} {f : Packet → Packet} (again : f (f q) = f q)
    (owner : (f q).owner = .host) : onPacket { s with packets := s.packets.set p (f q) } p f =
      .next { s with packets := s.packets.set p (f q) } := by
  rw [onPacket_eq_next (hostPacket_eq_some.2 ⟨Memory.get_set_same .., owner⟩), again, Memory.set_set]

theorem resetFields_resetFields (q : Packet) (n : Nat) : (q.resetFields n).resetFields n = q.resetFields n := rfl

/-- Settles O49: PKT.RESET is `Packet.resetFields`, which keeps the owner. -/
theorem resetClearsAllButIdentity : Obligations.ResetClearsAllButIdentity := by
  intro s p q hq ho
  have hp := hostPacket_eq_some.2 ⟨hq, ho⟩
  refine ⟨?_, fun t ht => ?_⟩
  · rw [← ho]
    exact becomes_onPacket hp _
  · cases (onPacket_eq_next hp _).symm.trans ht
    exact onPacket_again (f := (·.resetFields s.params.nQctr)) (resetFields_resetFields q _) ho

/-- Settles O50: PKT.SET_EGRESS is one change to one packet. -/
theorem setEgressCopiesTheIngressView : Obligations.SetEgressCopiesTheIngressView := fun _ _ _ hq ho =>
  becomes_onPacket (hostPacket_eq_some.2 ⟨hq, ho⟩) _

/-- PARSE of a packet that is gone stops at that check, or at one of the two before it (O22). -/
theorem parse_faults_of_gone {s : State} {p : Nat} (gone : s.packets.get p = none) (k : Nat) :
    ∃ e, exec (.parse p k) s = .fault e := by
  obtain ⟨absent, present⟩ := parseStopsWhereTheSpecGivesNoStep s p k
  cases hi : s.insts[k]? with
  | none => exact ⟨_, absent hi⟩
  | some i =>
    obtain ⟨busy, idle, -⟩ := present i hi
    by_cases hr : i.run = none
    · exact ⟨_, idle hr gone⟩
    · exact ⟨_, busy hr⟩

/-- Settles O51: PKT.RETIRE erases the packet, and a packet that is gone is none the host owns (O55). -/
theorem retireEndsThePacket : Obligations.RetireEndsThePacket := by
  intro s p q hq ho
  refine ⟨⟨{ s with packets := s.packets.erase p }, ?_, ⟨rfl, rfl, rfl, rfl, rfl, fun x hx => ?_⟩, rfl, ?_⟩, ?_⟩
  · simp only [exec, execPktRetire, hostPacket_eq_some.2 ⟨hq, ho⟩]
  · rw [Memory.get_erase, if_neg hx]
  · rw [Memory.get_erase, if_pos rfl]
  · intro u gone kind id32 t4 pipe copy carry w k
    have hp : ∀ q, u.packets.get p = some q → q.owner ≠ .host := fun q hq => nomatch gone.symm.trans hq
    obtain ⟨-, -, -, outside⟩ :=
      commandsOutsideTheirDomainHaveNoStep u p kind id32 t4 pipe copy carry w k 0 0 0 0
    obtain ⟨faults, wrFaults⟩ := outside hp
    have wr : ∃ e, exec (.pktWr p w) u = .fault e := by
      by_cases hw : fieldExists u.params.nQctr w = true
      · exact ⟨_, wrFaults hw⟩
      · exact ⟨_, if_neg hw⟩
    simp only [List.forall_mem_cons] at faults ⊢
    obtain ⟨clone, reset, setEgress, retire, id, type, mcCpy, mirrCpy, mcC2c, -⟩ := faults
    exact ⟨parse_faults_of_gone gone k, ⟨_, clone⟩, ⟨_, reset⟩, ⟨_, setEgress⟩, ⟨_, retire⟩, wr,
      ⟨_, id⟩, ⟨_, type⟩, ⟨_, mcCpy⟩, ⟨_, mirrCpy⟩, ⟨_, mcC2c⟩, nofun⟩

theorem becomes_pktWr {s : State} {p : Nat} {q : Packet} (hq : s.hostPacket p = some q) {w : FieldWrite}
    (hw : fieldExists s.params.nQctr w = true) : Becomes s (exec (.pktWr p w) s) p (q.write w) := by
  simp only [exec, execPktWr, if_pos hw]
  exact becomes_onPacket hq _

/-- Settles O52, by the equation of `Packet.write` for each field. -/
theorem wrStoresOneField : Obligations.WrStoresOneField := by
  intro s p q d v h b k hq ho
  have stores {w : FieldWrite} (hw : fieldExists s.params.nQctr w = true) :=
    becomes_pktWr (hostPacket_eq_some.2 ⟨hq, ho⟩) hw
  cases d <;>
    exact ⟨stores rfl, stores rfl, stores rfl, stores rfl, stores rfl, stores rfl, stores rfl,
      fun hk => stores (decide_eq_true hk), stores rfl, stores rfl, stores rfl, stores rfl, stores rfl, stores rfl,
      stores rfl, stores rfl⟩

/-- Settles O53: each encoder is one change to one packet, its id. -/
theorem identityEncodersWriteTheId : Obligations.IdentityEncodersWriteTheId := by
  intro s p q id32 t4 pipe copy hq ho
  have encodes := becomes_onPacket (hostPacket_eq_some.2 ⟨hq, ho⟩)
  rw [← mcC2c_eq_append]
  exact ⟨encodes _, encodes _, encodes _, encodes _, encodes _⟩

end Sys2Proof.Machine
end

section
/-! PROOF. Settles O24: what taking an exception, or finishing, does to the parse in progress (60_exceptions.md R300,
R301, R305). -/

namespace Sys2Proof.Machine

/-- Raising a cause ends the parse on turn and keeps everything but the packet's cause, outcome and owner. -/
theorem ends_raise {s : State} {c : Ctx} (hc : s.ctx = some c) (why : Cause) :
    Ends s c ((raise c why).apply s) why c.pkt := by
  rw [← onParse_eq hc fun c => raise c why]
  exact ends_of_raise hc rfl rfl rfl rfl rfl

/-- Settles O24: the codes by evaluation, the state by `ends_raise`, the outcome tag cause by cause. -/
theorem takingAnExceptionWritesCauseAndOutcome : Obligations.TakingAnExceptionWritesCauseAndOutcome := by
  refine ⟨by decide, fun s c why hc => ?_⟩
  obtain ⟨t, next, frame, phvs, idle, packet⟩ := ends_raise hc why
  refine ⟨t, next, frame, phvs, idle, packet.trans ?_⟩
  cases why <;> rfl

end Sys2Proof.Machine
end
